-- ==== Sys2Proof/Word.lean ====
section
/-! DEFINITION. The word types of KAFP (spec/00_scope.md R15, R17). -/

namespace Sys2Proof

/-- A 32-bit command word, operand word, register value or response value (R90, R96). -/
abbrev Word := BitVec 32

/-- One byte of the radio stream (R27). -/
abbrev Byte := BitVec 8

/-- A PCM sample: a signed 16-bit integer carried as its two's-complement pattern (R17). `BitVec.toInt` is `s16`. -/
abbrev Pcm := BitVec 16

/-- A raw capture slot: an unsigned pattern of SLOT_W bits, held in 32 bits with zeros above (R17, R21). -/
abbrev Slot := BitVec 32

/-- A frame number, the 4-bit TOK field (R91, R92). -/
abbrev Token := BitVec 4

end Sys2Proof
end

