-- ==== Sys2Proof/Config.lean ====
section
/-! DEFINITION. What an instance of KAFP fixes (spec/00_scope.md R8), the things the environment can do to it, and
the free values of the model. -/

namespace Sys2Proof

/-- SLOT_W: one raw capture slot has 16 or 32 bits (R8). -/
inductive SlotWidth where
  | w16
  | w32
  deriving DecidableEq, Repr, Inhabited

/-- The parameters of one instance (R8). No operation changes them. -/
structure Params where
  /-- `L`, raw samples per frame and stereo pairs per Output Frame. -/
  frameLen : Nat
  /-- `N`, number of frames. -/
  depth : Nat
  /-- `RING_CAP`, bytes of the radio ring. -/
  ringCap : Nat
  /-- `SRATE`, hertz; read by no rule. -/
  srate : Word
  /-- `SLOT_W`. -/
  slotW : SlotWidth
  deriving DecidableEq, Repr, Inhabited

/-- The legal values of the parameters (R8). -/
abbrev Params.legal (p : Params) : Prop :=
  1 ≤ p.frameLen ∧ p.frameLen ≤ 4096 ∧ 1 ≤ p.depth ∧ p.depth ≤ 16 ∧
    4 ≤ p.ringCap ∧ p.ringCap ≤ 65532 ∧ p.ringCap % 4 = 0

/-- DESIGN CHOICE (log 1), unsafe: the instance that `State.reset` stands for. The spec gives no values; these are the
ones of the example of spec/95_test_vectors.md section 2.7. Statements are made for every legal `Params`. -/
def Config.exampleInstance : Params :=
  { frameLen := 256, depth := 4, ringCap := 4096, srate := 44100#32, slotW := .w16 }

/-- The three command ports (R293). -/
inductive CmdPort where
  | hp
  | rp
  | sp
  deriving DecidableEq, Repr, Inhabited

/-- What the capture source presents at an instant (R300). -/
inductive Source where
  /-- One whole frame of samples is ready. -/
  | frame (d : List Slot)
  | error
  | nothing
  deriving DecidableEq, Repr, Inhabited

/-- What the sink presents at an instant (R301). -/
inductive Sink where
  | accepting
  | error
  | busy
  deriving DecidableEq, Repr, Inhabited

/-- Who moves at an instant: the asynchronous inputs of R288, the sequencers of R303, and reset (R320). -/
inductive Move where
  /-- The outside presents one word on a port (R90). -/
  | present (p : CmdPort) (w : Word)
  /-- The oldest command presented on a port is carried out, if all its words are there. -/
  | serve (p : CmdPort)
  /-- The outstanding direct-mode operation of agent C is looked at again (R14, R338). -/
  | resumeC
  /-- The same for agent M. -/
  | resumeM
  /-- The boot sequencer moves (R256). -/
  | boot
  /-- The capture sequencer moves (R156). -/
  | capture
  /-- The mixer sequencer moves (R207). -/
  | mixer
  /-- The reset input is asserted (R320). -/
  | reset
  deriving DecidableEq, Repr, Inhabited

/-- One turn: who moves, and what the environment presents at that instant (R13, R339). -/
structure Turn where
  move : Move
  source : Source
  sink : Sink
  /-- A BOUNDED wait that is not ready at this instant times out (R14). -/
  expire : Bool
  deriving DecidableEq, Repr, Inhabited

/-- Free value (log 2): the turn the world takes when `State.agenda` holds none. The spec puts no law on the order of
agents, on the environment's answers or on expiry (R13, R14, R300, R301), so nothing is known of this function. -/
opaque Config.freeTurn : Nat → Turn

/-- Free value (log 5): the byte at a ring index that nothing has written since reset (R27, R321). -/
opaque Config.ringByte : Nat → Byte

end Sys2Proof
end

