-- ==== Sys2Proof/Syntax.lean ====
section
/-! DEFINITION. The 23 operations of KAFP as syntax (spec/30_encoding.md R91, R93, R97): one constructor per row of
spec/opcode_table.json. Every operation carries its agent field, since which agents may issue it is checked after
decoding (R92). -/

namespace Sys2Proof

/-- The five agents (R11). -/
inductive Agent where
  | H
  | C
  | M
  | R
  | S
  deriving DecidableEq, Repr, Inhabited

/-- The wait modes of the six waiting operations (R14): TRY, BOUNDED, UNBOUNDED. -/
inductive WaitMode where
  | poll
  | bounded
  | unbounded
  deriving DecidableEq, Repr, Inhabited

/-- The session events of SEVT (R93, R173). -/
inductive SessionEvent where
  | connected
  | disconnected
  | playing
  | paused
  deriving DecidableEq, Repr, Inhabited

/-- The operations (R97). `ag` is AG, `wm` is WM, `t` is TOK; the rest is IMM, the operand word or the payload. -/
inductive Instr where
  | nop (ag : Agent)
  | cfgr (ag : Agent) (r : BitVec 8)
  | cfgw (ag : Agent) (r : BitVec 8) (v : Word)
  | start (ag : Agent)
  | acqf (ag : Agent) (wm : WaitMode)
  | pubb (ag : Agent) (wm : WaitMode) (t : Token)
  | takb (ag : Agent) (wm : WaitMode)
  | relf (ag : Agent) (t : Token)
  | fst (ag : Agent) (t : Token) (i : BitVec 12) (v : Word)
  | fld (ag : Agent) (t : Token) (i : BitVec 12)
  | caprd (ag : Agent) (wm : WaitMode) (t : Token)
  | conv (ag : Agent) (v : Word)
  | scale (ag : Agent) (u : BitVec 16)
  | lpf (ag : Agent) (x : Pcm)
  | gate (ag : Agent) (x : Pcm)
  | fidle (ag : Agent) (t : Token)
  | oclr (ag : Agent)
  | rpop (ag : Agent) (wm : WaitMode)
  | mixf (ag : Agent) (t : Token)
  | sinkw (ag : Agent) (wm : WaitMode)
  | old (ag : Agent) (i : BitVec 12)
  | rpush (ag : Agent) (len : BitVec 16) (payload : List Word)
  | sevt (ag : Agent) (ev : SessionEvent)
  deriving DecidableEq, Repr

/-- The AG field of a command (R92). -/
def Instr.agent : Instr → Agent
  | .nop ag => ag
  | .cfgr ag _ => ag
  | .cfgw ag _ _ => ag
  | .start ag => ag
  | .acqf ag _ => ag
  | .pubb ag _ _ => ag
  | .takb ag _ => ag
  | .relf ag _ => ag
  | .fst ag _ _ _ => ag
  | .fld ag _ _ => ag
  | .caprd ag _ _ => ag
  | .conv ag _ => ag
  | .scale ag _ => ag
  | .lpf ag _ => ag
  | .gate ag _ => ag
  | .fidle ag _ => ag
  | .oclr ag => ag
  | .rpop ag _ => ag
  | .mixf ag _ => ag
  | .sinkw ag _ => ag
  | .old ag _ => ag
  | .rpush ag _ _ => ag
  | .sevt ag _ => ag

end Sys2Proof
end

