-- ==== Sys2Proof/WellFormed.lean ====
section
/-! DEFINITION. Which terms of `Instr` are commands. Every field of every operation has the width of its encoding, so
one check remains: an RPUSH carries exactly `ceil(len / 4)` payload words (spec/30_encoding.md R90, R95). Values that a
command may carry and that its operation refuses (a token `>= N`, a length that is no multiple of 4) are no matter of
well-formedness: they are faults of the operation (R100). -/

namespace Sys2Proof

/-- The number of payload words of an RPUSH with the given IMM (R90). -/
def payloadWords (len : BitVec 16) : Nat := (len.toNat + 3) / 4

/-- The term stands for a command (R90). -/
def Instr.wellFormed : Instr → Bool
  | .rpush _ len payload => payload.length == payloadWords len
  | .nop _ | .cfgr _ _ | .cfgw _ _ _ | .start _ | .acqf _ _ | .pubb _ _ _ | .takb _ _ | .relf _ _ => true
  | .fst _ _ _ _ | .fld _ _ _ | .caprd _ _ _ | .conv _ _ | .scale _ _ | .lpf _ _ | .gate _ _ => true
  | .fidle _ _ | .oclr _ | .rpop _ _ | .mixf _ _ | .sinkw _ _ | .old _ _ | .sevt _ _ => true

end Sys2Proof
end

