-- ==== Sys2Proof/Decode.lean ====
section
/-! DEFINITION. Decoding and encoding of commands (spec/30_encoding.md R90 to R100; spec/opcode_table.json), and the
words of a table row. -/

namespace Sys2Proof

/-! ### Fields of the command word (R91) -/

/-- `OPC`, bits 31:26. -/
def opcOf (w : Word) : BitVec 6 := w.extractLsb' 26 6
/-- `AG`, bits 25:23. -/
def agOf (w : Word) : BitVec 3 := w.extractLsb' 23 3
/-- `WM`, bits 22:21. -/
def wmOf (w : Word) : BitVec 2 := w.extractLsb' 21 2
/-- `RSV`, bit 20. -/
def rsvOf (w : Word) : BitVec 1 := w.extractLsb' 20 1
/-- `TOK`, bits 19:16. -/
def tokOf (w : Word) : Token := w.extractLsb' 16 4
/-- `IMM`, bits 15:0. -/
def immOf (w : Word) : BitVec 16 := w.extractLsb' 0 16

/-- The agent an AG code names (R11); codes 5 to 7 are reserved. -/
def agentOfCode (c : BitVec 3) : Option Agent :=
  match c.toNat with
  | 0 => some .H
  | 1 => some .C
  | 2 => some .M
  | 3 => some .R
  | 4 => some .S
  | _ => none

/-- The AG code of an agent (R11). -/
def agentCode : Agent → BitVec 3
  | .H => 0
  | .C => 1
  | .M => 2
  | .R => 3
  | .S => 4

/-- The wait mode a WM code names (R14); 3 is reserved. -/
def waitModeOfCode (c : BitVec 2) : Option WaitMode :=
  match c.toNat with
  | 0 => some .poll
  | 1 => some .bounded
  | 2 => some .unbounded
  | _ => none

/-- The WM code of a wait mode (R14). -/
def waitModeCode : WaitMode → BitVec 2
  | .poll => 0
  | .bounded => 1
  | .unbounded => 2

/-- The event of SEVT's IMM[1:0] (R93). -/
def eventOfCode (c : BitVec 2) : SessionEvent :=
  match c.toNat with
  | 0 => .connected
  | 1 => .disconnected
  | 2 => .playing
  | _ => .paused

/-- The IMM[1:0] of an event (R93). -/
def eventCode : SessionEvent → BitVec 2
  | .connected => 0
  | .disconnected => 1
  | .playing => 2
  | .paused => 3

/-! ### Decoding -/

/-- Why a command word is illegal (R98). Every one of them raises F_ILLOP. -/
inductive Illegal where
  /-- `OPC` is none of the 23 values of R97. -/
  | undefinedOpcode
  /-- `AG` is 5, 6 or 7. -/
  | reservedAgent
  /-- `RSV` is 1. -/
  | reservedBit
  /-- `WM` is 3. -/
  | reservedWaitMode
  /-- `WM` is not 0 in an operation that cannot wait. -/
  | strayWaitMode
  /-- `TOK` is not 0 in a format without a token. -/
  | strayToken
  /-- An `IMM` bit the operation does not use is 1. -/
  | strayImmediate
  deriving DecidableEq, Repr

/-- The fields of a command word that passed the checks of R98. -/
structure Fields where
  ag : Agent
  wm : WaitMode
  tok : Token
  imm : BitVec 16
  deriving DecidableEq, Repr

/-- The checks of R98 after the opcode, for a format (R91) that uses WM, that has a token, and that uses the low
`immBits` bits of IMM. -/
def checkFields (w : Word) (waits hasToken : Bool) (immBits : Nat) : Except Illegal Fields :=
  match agentOfCode (agOf w), waitModeOfCode (wmOf w) with
  | none, _ => .error .reservedAgent
  | some _, none => .error .reservedWaitMode
  | some ag, some wm =>
    if rsvOf w ≠ 0 then .error .reservedBit
    else if waits = false ∧ wm ≠ .poll then .error .strayWaitMode
    else if hasToken = false ∧ tokOf w ≠ 0 then .error .strayToken
    else if (immOf w).toNat ≥ 2 ^ immBits then .error .strayImmediate
    else .ok { ag := ag, wm := wm, tok := tokOf w, imm := immOf w }

/-- How many words a command has, by its command word alone (R90, R99). -/
def commandLength (w : Word) : Nat :=
  match (opcOf w).toNat with
  | 0x02 => 2
  | 0x0C => 2
  | 0x10 => 2
  | 0x20 => 1 + payloadWords (immOf w)
  | _ => 1

/-- The command that a command word and its extra words stand for (R91, R93 to R95, R97), or why it is illegal (R98). -/
def decode (w : Word) (extra : List Word) : Except Illegal Instr :=
  match (opcOf w).toNat with
  | 0x00 => (checkFields w false false 0).map fun f => .nop f.ag
  | 0x01 => (checkFields w false false 8).map fun f => .cfgr f.ag (f.imm.setWidth 8)
  | 0x02 => (checkFields w false false 8).map fun f => .cfgw f.ag (f.imm.setWidth 8) (extra.headD 0)
  | 0x03 => (checkFields w false false 0).map fun f => .start f.ag
  | 0x08 => (checkFields w true false 0).map fun f => .acqf f.ag f.wm
  | 0x09 => (checkFields w true true 0).map fun f => .pubb f.ag f.wm f.tok
  | 0x0A => (checkFields w true false 0).map fun f => .takb f.ag f.wm
  | 0x0B => (checkFields w false true 0).map fun f => .relf f.ag f.tok
  | 0x0C => (checkFields w false true 12).map fun f => .fst f.ag f.tok (f.imm.setWidth 12) (extra.headD 0)
  | 0x0D => (checkFields w false true 12).map fun f => .fld f.ag f.tok (f.imm.setWidth 12)
  | 0x0E => (checkFields w true true 0).map fun f => .caprd f.ag f.wm f.tok
  | 0x10 => (checkFields w false false 0).map fun f => .conv f.ag (extra.headD 0)
  | 0x11 => (checkFields w false false 16).map fun f => .scale f.ag f.imm
  | 0x12 => (checkFields w false false 16).map fun f => .lpf f.ag f.imm
  | 0x13 => (checkFields w false false 16).map fun f => .gate f.ag f.imm
  | 0x14 => (checkFields w false true 0).map fun f => .fidle f.ag f.tok
  | 0x18 => (checkFields w false false 0).map fun f => .oclr f.ag
  | 0x19 => (checkFields w true false 0).map fun f => .rpop f.ag f.wm
  | 0x1A => (checkFields w false true 0).map fun f => .mixf f.ag f.tok
  | 0x1B => (checkFields w true false 0).map fun f => .sinkw f.ag f.wm
  | 0x1C => (checkFields w false false 12).map fun f => .old f.ag (f.imm.setWidth 12)
  | 0x20 => (checkFields w false false 16).map fun f => .rpush f.ag f.imm extra
  | 0x21 => (checkFields w false false 2).map fun f => .sevt f.ag (eventOfCode (f.imm.setWidth 2))
  | _ => .error .undefinedOpcode

/-- What stands first in a list of words presented on a port. -/
inductive Fetched where
  /-- Not all words of the first command are there yet (R90, R100 step 2). -/
  | incomplete
  /-- An illegal command with command word `w` (R98); its words are consumed (R99). -/
  | illegal (why : Illegal) (w : Word) (rest : List Word)
  | command (i : Instr) (rest : List Word)
  deriving DecidableEq, Repr

/-- Take the first command of a list of words (R90, R99, R100 steps 1 to 3). -/
def fetch : List Word → Fetched
  | [] => .incomplete
  | w :: ws =>
    if ws.length < commandLength w - 1 then .incomplete
    else
      match decode w (ws.take (commandLength w - 1)) with
      | .ok i => .command i (ws.drop (commandLength w - 1))
      | .error e => .illegal e w (ws.drop (commandLength w - 1))

/-! ### Encoding -/

/-- A command word from its fields, RSV being 0 (R91). -/
def packHead (opc : BitVec 6) (ag : Agent) (wm : WaitMode) (tok : Token) (imm : BitVec 16) : Word :=
  opc ++ (agentCode ag ++ (waitModeCode wm ++ ((0 : BitVec 1) ++ (tok ++ imm))))

/-- The words of a command (R91, R97). -/
def encode : Instr → List Word
  | .nop ag => [packHead 0x00 ag .poll 0 0]
  | .cfgr ag r => [packHead 0x01 ag .poll 0 (r.setWidth 16)]
  | .cfgw ag r v => [packHead 0x02 ag .poll 0 (r.setWidth 16), v]
  | .start ag => [packHead 0x03 ag .poll 0 0]
  | .acqf ag wm => [packHead 0x08 ag wm 0 0]
  | .pubb ag wm t => [packHead 0x09 ag wm t 0]
  | .takb ag wm => [packHead 0x0A ag wm 0 0]
  | .relf ag t => [packHead 0x0B ag .poll t 0]
  | .fst ag t i v => [packHead 0x0C ag .poll t (i.setWidth 16), v]
  | .fld ag t i => [packHead 0x0D ag .poll t (i.setWidth 16)]
  | .caprd ag wm t => [packHead 0x0E ag wm t 0]
  | .conv ag v => [packHead 0x10 ag .poll 0 0, v]
  | .scale ag u => [packHead 0x11 ag .poll 0 u]
  | .lpf ag x => [packHead 0x12 ag .poll 0 x]
  | .gate ag x => [packHead 0x13 ag .poll 0 x]
  | .fidle ag t => [packHead 0x14 ag .poll t 0]
  | .oclr ag => [packHead 0x18 ag .poll 0 0]
  | .rpop ag wm => [packHead 0x19 ag wm 0 0]
  | .mixf ag t => [packHead 0x1A ag .poll t 0]
  | .sinkw ag wm => [packHead 0x1B ag wm 0 0]
  | .old ag i => [packHead 0x1C ag .poll 0 (i.setWidth 16)]
  | .rpush ag len payload => packHead 0x20 ag .poll 0 len :: payload
  | .sevt ag ev => [packHead 0x21 ag .poll 0 ((eventCode ev).setWidth 16)]

/-! ### The words of a row of spec/opcode_table.json -/

/-- The words of the instruction whose bits are `w` (bit 0 the least significant of the first word, every bit from
`nbits` on 0), as many as the command needs. -/
def layoutWords (nbits w : Nat) : List Word :=
  let v := w % 2 ^ nbits
  let head : Word := BitVec.ofNat 32 v
  head :: (List.range (commandLength head - 1)).map fun k => BitVec.ofNat 32 (v >>> (32 * (k + 1)))

/-- The instruction the decoder reads from a row's bits. -/
def decodeTableWord (nbits w : Nat) : Option Instr :=
  match fetch (layoutWords nbits w) with
  | .command i _ => some i
  | .illegal _ _ _ => none
  | .incomplete => none

end Sys2Proof
end

