-- ==== Sys2Proof/Machine/State.lean ====
section
/-! DEFINITION. The state of KAFP as plain data (spec/10_state.md), and its value after reset (R50, R320). The fields of
`Now`, `State.agenda` and `State.tick` are the model's own: the environment at this instant and the turns to come
(R13, R49, R339). -/

namespace Sys2Proof.Machine

/-- Why the model itself stops. No operation of the spec stops the machine: its faults are next states (R281). -/
inductive Fault where
  /-- Raised by `execRpush` alone, on a term that no words encode (its payload is not `ceil(len / 4)` words, R90). The
  decoder yields no such term, so no step ends here. Safe. Log 14. -/
  | illFormed
  deriving DecidableEq, Repr

/-- Why an instruction has no meaning. -/
inductive Refusal where
  /-- The instruction of this mnemonic has no meaning yet. Raised by `exec`'s arms alone; no arm raises it now. Safe. -/
  | notModelled (mnemonic : String)
  deriving DecidableEq, Repr

/-- STATUS.PHASE (R12, R37). -/
inductive Phase where
  | setup
  | boot
  | run
  | fatal
  deriving DecidableEq, Repr, Inhabited

/-- STATUS.PLAY, the Playing flag (R37, R174). Code 3 never occurs. -/
inductive Play where
  | idle
  | paused
  | playing
  deriving DecidableEq, Repr, Inhabited

/-- Where a token is (R22). -/
inductive Owner where
  | free
  | cap
  | busy
  | mix
  deriving DecidableEq, Repr, Inhabited

/-- BSTEP (R46, R256). -/
inductive BStep where
  | off
  | acq
  | read
  | avg
  | rel
  | failrel
  deriving DecidableEq, Repr, Inhabited

/-- CSTEP (R46, R156). -/
inductive CStep where
  | acq
  | read
  | pub
  | rel
  deriving DecidableEq, Repr, Inhabited

/-- MSTEP (R46, R207). -/
inductive MStep where
  | clr
  | pop
  | take
  | mix
  | rel
  | sink
  deriving DecidableEq, Repr, Inhabited

/-- The status of a response (R96). -/
inductive Status where
  | ok
  | timeout
  | wouldblock
  | dropped
  | error
  | skip
  | fault
  deriving DecidableEq, Repr, Inhabited

/-- The ten fault causes (R280). -/
inductive Cause where
  | illop
  | agent
  | phase
  | range
  | own
  | hold
  | undef
  | badlen
  | cfg
  | calfail
  deriving DecidableEq, Repr, Inhabited

/-- Where a command comes from: a command port, or a sequencer (R293). -/
inductive Origin where
  | port (p : CmdPort)
  | boot
  | capture
  | mixer
  deriving DecidableEq, Repr, Inhabited

/-- One storage space: (address, value) pairs, addresses strictly rising, no entry equal to what an unlisted address
reads as. -/
abbrev Memory (α : Type) := List (Nat × α)

/-- One stereo pair of the Output Frame (R28). -/
structure Pair where
  left : Pcm
  right : Pcm
  deriving DecidableEq, Repr, Inhabited

/-- A response (R96): where the command came from, its AG code, status and value. -/
structure Response where
  origin : Origin
  ag : BitVec 3
  st : Status
  val : Word
  deriving DecidableEq, Repr, Inhabited

/-- Unit POOL but for frame memory (R22 to R25). -/
structure Pool where
  /-- `OWN`: an unlisted token is FREE. -/
  own : Memory Owner
  chold : Option Token
  mhold : Option Token
  /-- `FREEQ`, head first. -/
  freeq : List Token
  /-- `BUSYQ`, head first. -/
  busyq : List Token
  deriving DecidableEq, Repr

/-- Unit RING (R27). -/
structure Ring where
  /-- `RB` by physical index: an unlisted byte is one that nothing has written since reset. -/
  rb : Memory Byte
  rrd : Nat
  rfill : Nat
  deriving DecidableEq, Repr

/-- The filter state (R29). -/
structure Filter where
  dl : Vector Pcm 7
  fidx : Fin 7
  deriving DecidableEq, Repr

/-- CONVCFG (R31). -/
structure ConvCfg where
  nbits : BitVec 5
  shift : BitVec 5
  sgn : Bool
  deriving DecidableEq, Repr

/-- PATHCFG (R32). -/
structure PathCfg where
  firEn : Bool
  gateEn : Bool
  sat : Bool
  calEn : Bool
  deriving DecidableEq, Repr

/-- The configuration registers (R31 to R36). Each holds its listed bits; the others read 0. -/
structure Cfg where
  convcfg : ConvCfg
  pathcfg : PathCfg
  thresh : BitVec 16
  coef0 : BitVec 16
  coef1 : BitVec 16
  coef2 : BitVec 16
  coef3 : BitVec 16
  idle : BitVec 16
  calmax : BitVec 8
  deriving DecidableEq, Repr

/-- EVT (R38). -/
structure Evt where
  capfail : Bool
  sinkmiss : Bool
  deriving DecidableEq, Repr

/-- The sequencers' registers (R44, R46), and for each sequencer whether it has stopped (R156, R207, R256, R339;
log 10). -/
structure Seq where
  bstep : BStep
  cstep : CStep
  mstep : MStep
  calcnt : BitVec 8
  bstopped : Bool
  cstopped : Bool
  mstopped : Bool
  deriving DecidableEq, Repr

/-- The outstanding operations (R48). Agents H, R and S have none, since none of their operations waits (R14, R97). -/
structure Waiting where
  opC : Option Instr
  opM : Option Instr
  deriving DecidableEq, Repr

/-- The words presented on each command port and not yet taken, oldest first (R90, R320). -/
structure Ports where
  hp : List Word
  rp : List Word
  sp : List Word
  deriving DecidableEq, Repr

/-- The observation (R49): frames the sink accepted and responses given, both oldest first. -/
structure Log where
  sink : List (List Pcm)
  responses : List Response
  deriving DecidableEq, Repr

/-- The model's own: where the command being carried out came from, and what the environment presents (R300, R301, R14)
at this instant. -/
structure Now where
  origin : Origin
  source : Source
  sink : Sink
  expire : Bool
  deriving DecidableEq, Repr

/-- The state of the block (R20 to R50), the observation, and the model's own fields. -/
structure State where
  params : Params
  /-- `FM`: slot `i` of frame `t` at address `t * L + i`; an unlisted slot is `undef` (R21). -/
  fm : Memory Slot
  pool : Pool
  ring : Ring
  play : Play
  /-- `OUT` by index: an unlisted pair is (0, 0) (R28). -/
  out : Memory Pair
  filter : Filter
  cfg : Cfg
  /-- STATUS.CALDONE (R35). -/
  caldone : Bool
  phase : Phase
  evt : Evt
  /-- FAULT, one bit per cause (R39). -/
  fault : BitVec 10
  seq : Seq
  waiting : Waiting
  ports : Ports
  log : Log
  now : Now
  /-- The turns still to come (log 2). -/
  agenda : List Turn
  /-- How many free turns have been drawn (log 2). -/
  tick : Nat
  deriving DecidableEq, Repr

/-- The tokens `0, 1, ..., n-1` (R24). -/
def tokensBelow (n : Nat) : List Token := (List.range n).map (BitVec.ofNat 4)

/-- All tokens free (R22 to R25). -/
def Pool.seeded (depth : Nat) : Pool :=
  { own := [], chold := none, mhold := none, freeq := tokensBelow depth, busyq := [] }

/-- The filter state zero (R29). -/
def Filter.zero : Filter := { dl := Vector.replicate 7 0, fidx := 0 }

/-- The configuration registers after reset (R45, R50). -/
def Cfg.reset : Cfg :=
  { convcfg := { nbits := 16, shift := 0, sgn := true }
    pathcfg := { firEn := false, gateEn := false, sat := false, calEn := false }
    thresh := 500, coef0 := 0, coef1 := 0, coef2 := 0, coef3 := 0, idle := 0, calmax := 8 }

/-- The sequencers' registers after reset (R50). -/
def Seq.reset : Seq :=
  { bstep := .off, cstep := .acq, mstep := .clr, calcnt := 0, bstopped := false, cstopped := false, mstopped := false }

/-- The state right after reset of the instance `p` (R50), nothing presented, no turn laid down (log 4). -/
def State.resetFor (p : Params) : State :=
  { params := p
    fm := []
    pool := Pool.seeded p.depth
    ring := { rb := [], rrd := 0, rfill := 0 }
    play := .idle
    out := []
    filter := Filter.zero
    cfg := Cfg.reset
    caldone := false
    phase := .setup
    evt := { capfail := false, sinkmiss := false }
    fault := 0
    seq := Seq.reset
    waiting := { opC := none, opM := none }
    ports := { hp := [], rp := [], sp := [] }
    log := { sink := [], responses := [] }
    now := { origin := .port .hp, source := .nothing, sink := .busy, expire := false }
    agenda := []
    tick := 0 }

/-- The state right after reset (R50) of the instance of log 1. -/
def State.reset : State := State.resetFor Config.exampleInstance

end Sys2Proof.Machine
end

