-- ==== Sys2Proof/Machine/Operands.lean ====
section
/-! DEFINITION. The operand forms of KAFP (spec/30_encoding.md R93 to R95; spec/20_memory.md R62 to R66) and the
narrowing primitives of spec/00_scope.md R16. -/

namespace Sys2Proof.Machine

/-- `wrap16`: the low 16 bits, read signed (R16). -/
def wrap16 (v : Int) : Pcm := BitVec.ofInt 16 v

/-- `sat16` (R16). -/
def sat16 (v : Int) : Pcm :=
  if v < -32768 then BitVec.ofInt 16 (-32768)
  else if v > 32767 then BitVec.ofInt 16 32767
  else BitVec.ofInt 16 v

/-- `sext_N` (R16): the signed reading of an N-bit pattern. -/
def sextN (n f : Nat) : Int := if f < 2 ^ (n - 1) then (f : Int) else (f : Int) - 2 ^ n

/-- `tdiv` (R16): the quotient truncated toward zero. -/
def tdiv (a b : Int) : Int := a.tdiv b

/-- `>>a k` (R16): the floor of the division by `2^k`. -/
def asr (v : Int) (k : Nat) : Int := v / 2 ^ k

/-- The bits of a raw slot (R8). -/
def slotBits : SlotWidth → Nat
  | .w16 => 16
  | .w32 => 32

/-- `slot = word[SLOT_W-1 : 0]` (R94). -/
def slotOfWord (sw : SlotWidth) (w : Word) : Slot := BitVec.ofNat 32 (w.toNat % 2 ^ slotBits sw)

/-- A raw slot from two bytes, the first the low one (R65). -/
def slotOfBytes2 (b0 b1 : Byte) : Slot := BitVec.ofNat 32 (b0.toNat + 256 * b1.toNat)

/-- A raw slot from four bytes (R65). -/
def slotOfBytes4 (b0 b1 b2 b3 : Byte) : Slot :=
  BitVec.ofNat 32 (b0.toNat + 256 * b1.toNat + 65536 * b2.toNat + 16777216 * b3.toNat)

/-- A result as `VAL = zext_32(u16(v))` (R96). -/
def valOfInt (v : Int) : Word := (BitVec.ofInt 16 v).setWidth 32

/-- A PCM sample as VAL (R96). -/
def valOfPcm (x : Pcm) : Word := x.setWidth 32

/-- The four bytes of a payload word, low byte first (R64). -/
def wordBytes (w : Word) : List Byte :=
  [w.extractLsb' 0 8, w.extractLsb' 8 8, w.extractLsb' 16 8, w.extractLsb' 24 8]

/-- The chunk bytes `c[0 .. len-1]` of an RPUSH (R64, R95, R170). -/
def chunkOf (len : BitVec 16) (payload : List Word) : List Byte := (payload.flatMap wordBytes).take len.toNat

/-- A sample from two stream bytes, the earlier one the low byte (R62). -/
def sampleOfBytes (b0 b1 : Byte) : Pcm := b1 ++ b0

/-- Stream bytes as stereo pairs, left sample first (R63). -/
def pairsOfBytes : List Byte → List Pair
  | b0 :: b1 :: b2 :: b3 :: rest => ⟨sampleOfBytes b0 b1, sampleOfBytes b2 b3⟩ :: pairsOfBytes rest
  | _ => []

/-- The stream bytes of samples, low byte first (R66). -/
def bytesOfSamples (xs : List Pcm) : List Byte := xs.flatMap fun x => [x.extractLsb' 0 8, x.extractLsb' 8 8]

/-- Token `t` is a frame of the instance (R61, R92). -/
abbrev tokenInRange (s : State) (t : Token) : Prop := t.toNat < s.params.depth

/-- Index `i` is an index of the instance (R61, R93). -/
abbrev indexInRange (s : State) (i : BitVec 12) : Prop := i.toNat < s.params.frameLen

/-- The address of `FM[t][i]` (log 22). -/
def slotAddr (s : State) (t : Token) (i : Nat) : Nat := t.toNat * s.params.frameLen + i

/-- `OFB = 4 * L` (R9). -/
def outputFrameBytes (p : Params) : Nat := 4 * p.frameLen

/-- `MAXCODE = 2^NBITS - 1` (R9). -/
def maxCode (c : ConvCfg) : Nat := 2 ^ c.nbits.toNat - 1

/-- A field of a register with its least significant bit at `lo` (R15). -/
def placed {n : Nat} (lo : Nat) (v : BitVec n) : Word := v.setWidth 32 <<< lo

/-- One bit of a register. -/
def bit (b : Bool) : BitVec 1 := BitVec.ofBool b

end Sys2Proof.Machine
end

