-- ==== Sys2Proof/Machine/Flags.lean ====
section
/-! DEFINITION. The flags of KAFP (spec/10_state.md R47): the sticky FAULT and EVT bits, CALDONE, the Playing flag, and
the codes under which state is seen in registers and responses. There are no arithmetic condition codes. -/

namespace Sys2Proof.Machine

/-- STATUS.PHASE codes (R12). -/
def phaseCode : Phase → BitVec 2
  | .setup => 0
  | .boot => 1
  | .run => 2
  | .fatal => 3

/-- STATUS.PLAY codes (R37). -/
def playCode : Play → BitVec 2
  | .idle => 0
  | .paused => 1
  | .playing => 2

/-- OWN codes (R22). -/
def ownerCode : Owner → BitVec 2
  | .free => 0
  | .cap => 1
  | .busy => 2
  | .mix => 3

/-- BSTEP codes (R46). -/
def bstepCode : BStep → BitVec 3
  | .off => 0
  | .acq => 1
  | .read => 2
  | .avg => 3
  | .rel => 4
  | .failrel => 5

/-- CSTEP codes (R46). -/
def cstepCode : CStep → BitVec 3
  | .acq => 0
  | .read => 1
  | .pub => 2
  | .rel => 3

/-- MSTEP codes (R46). -/
def mstepCode : MStep → BitVec 3
  | .clr => 0
  | .pop => 1
  | .take => 2
  | .mix => 3
  | .rel => 4
  | .sink => 5

/-- The ST codes of R96. -/
def statusCode : Status → BitVec 4
  | .ok => 0
  | .timeout => 1
  | .wouldblock => 2
  | .dropped => 3
  | .error => 4
  | .skip => 5
  | .fault => 6

/-- The FAULT bit of a cause (R280). -/
def causeBit : Cause → Nat
  | .illop => 0
  | .agent => 1
  | .phase => 2
  | .range => 3
  | .own => 4
  | .hold => 5
  | .undef => 6
  | .badlen => 7
  | .cfg => 8
  | .calfail => 9

/-- The one-bit mask of a cause in FAULT (R280). -/
def causeMask (c : Cause) : BitVec 10 := 1#10 <<< causeBit c

/-- FAULT with the bit of a cause set (R39, R281). -/
def State.withFaultBit (s : State) (c : Cause) : State := { s with fault := s.fault ||| causeMask c }

/-- EVT.CAPFAIL set (R38). -/
def State.withCapfail (s : State) : State := { s with evt := { s.evt with capfail := true } }

/-- EVT.SINKMISS set (R38). -/
def State.withSinkmiss (s : State) : State := { s with evt := { s.evt with sinkmiss := true } }

/-- IDLE written, which sets CALDONE (R35). -/
def State.withIdle (s : State) (v : BitVec 16) : State := { s with cfg := { s.cfg with idle := v }, caldone := true }

/-- The Playing flag after a session event (R174). -/
def playAfter : Play → SessionEvent → Play
  | _, .connected => .paused
  | _, .disconnected => .idle
  | .idle, .playing => .idle
  | .paused, .playing => .playing
  | .playing, .playing => .playing
  | .idle, .paused => .idle
  | .paused, .paused => .paused
  | .playing, .paused => .paused

end Sys2Proof.Machine
end

