-- ==== Sys2Proof/Machine/Ops.lean ====
section
/-! DEFINITION. The shared operations of KAFP: reading and writing a storage space (spec/20_memory.md R60), the pool
moves (R131), answering a command (R96), raising a fault (R281), the checks of a command (R284, R293, R294) and waiting
(R14). -/

namespace Sys2Proof.Machine

/-- What an operation answers to the host of the model. -/
abbrev Result := Host.Outcome State Fault Refusal

/-! ### A storage space -/

/-- What is listed at an address. -/
def Memory.read {α : Type} : Memory α → Nat → Option α
  | [], _ => none
  | (b, x) :: m, a => if a = b then some x else Memory.read m a

/-- The entry that lists a value at an address; none for no value. -/
def Memory.entry {α : Type} (a : Nat) : Option α → Memory α
  | none => []
  | some v => [(a, v)]

/-- List a value at an address, or nothing. -/
def Memory.put {α : Type} : Memory α → Nat → Option α → Memory α
  | [], a, o => Memory.entry a o
  | (b, x) :: m, a, o =>
    if a < b then Memory.entry a o ++ (b, x) :: m
    else if a = b then Memory.entry a o ++ m
    else (b, x) :: Memory.put m a o

/-- Write consecutive addresses from `a` on. -/
def Memory.putAll {α : Type} (m : Memory α) (a : Nat) : List (Option α) → Memory α
  | [] => m
  | o :: os => Memory.putAll (Memory.put m a o) (a + 1) os

/-- Read `n` consecutive addresses from `a` on; none when one of them lists nothing. -/
def Memory.readAll {α : Type} (m : Memory α) (a : Nat) : Nat → Option (List α)
  | 0 => some []
  | n + 1 =>
    match Memory.read m a, Memory.readAll m (a + 1) n with
    | some x, some xs => some (x :: xs)
    | _, _ => none

/-- The canonical form: addresses strictly rising. -/
abbrev Memory.sorted {α : Type} (m : Memory α) : Prop := m.Pairwise fun x y => x.1 < y.1

/-- The canonical form of every space of a state: addresses strictly rising, no entry equal to what an unlisted address
reads as, and no address outside the space (R21, R22, R27, R28, R60). An unlisted address of FM and RB reads as no value,
so there every entry differs from it. -/
abbrev Memory.wf (s : State) : Prop :=
  Memory.sorted s.fm ∧ (∀ c ∈ s.fm, c.1 < s.params.depth * s.params.frameLen ∧ c.2.toNat < 2 ^ slotBits s.params.slotW) ∧
    Memory.sorted s.pool.own ∧ (∀ c ∈ s.pool.own, c.1 < s.params.depth ∧ c.2 ≠ .free) ∧
    Memory.sorted s.ring.rb ∧ (∀ c ∈ s.ring.rb, c.1 < s.params.ringCap) ∧
    Memory.sorted s.out ∧ (∀ c ∈ s.out, c.1 < s.params.frameLen ∧ c.2 ≠ ⟨0, 0⟩)

/-! ### Frame memory, Output Frame, ownership map, ring -/

/-- `FM[t][i]`; none is `undef` (R21). -/
def slotAt (s : State) (t : Token) (i : Nat) : Option Slot := Memory.read s.fm (slotAddr s t i)

/-- The slots of frame `t`, when all are defined (R195, R232). -/
def frameSlots (s : State) (t : Token) : Option (List Slot) := Memory.readAll s.fm (slotAddr s t 0) s.params.frameLen

/-- `FM[t][i] <- v` (R125). -/
def State.withSlot (s : State) (t : Token) (i : Nat) (v : Slot) : State :=
  { s with fm := Memory.put s.fm (slotAddr s t i) (some v) }

/-- Every slot of frame `t` written, none being `undef` (R150). -/
def State.withFrame (s : State) (t : Token) (d : List (Option Slot)) : State :=
  { s with fm := Memory.putAll s.fm (slotAddr s t 0) d }

/-- Every slot of frame `t` marked `undef` (R150). -/
def State.withUndefFrame (s : State) (t : Token) : State := s.withFrame t (List.replicate s.params.frameLen none)

/-- `L` raw slots from a draw of the capture source (R300): exactly `L`, each of SLOT_W bits. Log 6. -/
def drawnFrame (p : Params) (d : List Slot) : List (Option Slot) :=
  (List.range p.frameLen).map fun i => some (slotOfWord p.slotW (d.getD i 0))

/-- `OUT[i]` (R28). -/
def pairAt (out : Memory Pair) (i : Nat) : Pair := (Memory.read out i).getD ⟨0, 0⟩

/-- `OUT[i] <- p`. -/
def putPair (out : Memory Pair) (i : Nat) (p : Pair) : Memory Pair :=
  Memory.put out i (if p = ⟨0, 0⟩ then none else some p)

/-- Pairs written from index `i` on. -/
def putPairs (out : Memory Pair) (i : Nat) : List Pair → Memory Pair
  | [] => out
  | p :: ps => putPairs (putPair out i p) (i + 1) ps

/-- The samples of the Output Frame in the order of the sink (R66). -/
def outSamples (s : State) : List Pcm :=
  (List.range s.params.frameLen).flatMap fun i => [(pairAt s.out i).left, (pairAt s.out i).right]

/-- `OWN[t]` (R22). -/
def ownerOf (pl : Pool) (t : Token) : Owner := (Memory.read pl.own t.toNat).getD .free

/-- `OWN[t] <- o`. -/
def putOwner (own : Memory Owner) (t : Token) (o : Owner) : Memory Owner :=
  Memory.put own t.toNat (if o = .free then none else some o)

/-- `RB[a]` (R27): the listed byte, else the free value of a byte that nothing has written (log 5). -/
def ringByteAt (rb : Memory Byte) (a : Nat) : Byte := (Memory.read rb a).getD (Config.ringByte a)

/-- `n` ring bytes from position `pos` on, wrapping at `cap` (R27, R191). -/
def ringBytes (rb : Memory Byte) (cap pos : Nat) : Nat → List Byte
  | 0 => []
  | n + 1 => ringByteAt rb (pos % cap) :: ringBytes rb cap (pos + 1) n

/-- Bytes stored from position `pos` on, wrapping at `cap` (R170). -/
def ringStore (rb : Memory Byte) (cap pos : Nat) : List Byte → Memory Byte
  | [] => rb
  | b :: bs => ringStore (Memory.put rb (pos % cap) (some b)) cap (pos + 1) bs

/-- `RINGQ`, the valid content of the ring, oldest first (R27). -/
def ringQ (s : State) : List Byte := ringBytes s.ring.rb s.params.ringCap s.ring.rrd s.ring.rfill

/-! ### Pool moves (R131) -/

/-- ACQF: token `t`, the head of FREEQ, goes to agent C; `q` is the rest of FREEQ (R121). -/
def Pool.acquire (pl : Pool) (t : Token) (q : List Token) : Pool :=
  { pl with freeq := q, chold := some t, own := putOwner pl.own t .cap }

/-- PUBB: agent C's token `t` goes to the tail of BUSYQ (R122). -/
def Pool.publish (pl : Pool) (t : Token) : Pool :=
  { pl with busyq := pl.busyq ++ [t], chold := none, own := putOwner pl.own t .busy }

/-- TAKB: token `t`, the head of BUSYQ, goes to agent M; `q` is the rest of BUSYQ (R123). -/
def Pool.take (pl : Pool) (t : Token) (q : List Token) : Pool :=
  { pl with busyq := q, mhold := some t, own := putOwner pl.own t .mix }

/-- RELF: token `t` goes to the tail of FREEQ, from agent C, else from agent M (R124). -/
def Pool.release (pl : Pool) (ag : Agent) (t : Token) : Pool :=
  match ag with
  | .C => { pl with freeq := pl.freeq ++ [t], chold := none, own := putOwner pl.own t .free }
  | .H | .M | .R | .S => { pl with freeq := pl.freeq ++ [t], mhold := none, own := putOwner pl.own t .free }

/-- The token an agent holds (R72): H, R and S never hold one. -/
def Pool.heldBy (pl : Pool) : Agent → Option Token
  | .C => pl.chold
  | .M => pl.mhold
  | .H | .R | .S => none

/-! ### Outstanding operations (R48) -/

/-- The outstanding operation of an agent. -/
def Waiting.of (w : Waiting) : Agent → Option Instr
  | .C => w.opC
  | .M => w.opM
  | .H | .R | .S => none

/-- The outstanding operation of an agent set or dropped. -/
def State.withWaiting (s : State) (ag : Agent) (o : Option Instr) : State :=
  match ag with
  | .C => { s with waiting := { s.waiting with opC := o } }
  | .M => { s with waiting := { s.waiting with opM := o } }
  | .H | .R | .S => s

/-! ### Answering, raising, waiting -/

/-- The response recorded (R49, R96). -/
def State.answered (s : State) (ag : Agent) (st : Status) (v : Word) : State :=
  { s with log := { s.log with responses := s.log.responses ++ [⟨s.now.origin, agentCode ag, st, v⟩] } }

/-- `respond(ST, VAL)` (R16, R96). -/
def respond (s : State) (ag : Agent) (st : Status) (v : Word) : Result := .next (s.answered ag st v)

/-- The state after `raise Fault(F_X)` (R281): one FAULT bit set, the response (FAULT, mask), nothing else changed. -/
def State.faulted (s : State) (ag : Agent) (c : Cause) : State :=
  (s.withFaultBit c).answered ag .fault ((causeMask c).setWidth 32)

/-- `raise Fault(F_X)` (R281). There is no return from it (R286). -/
def raiseFault (s : State) (ag : Agent) (c : Cause) : Result := .next (s.faulted ag c)

/-- The state after an illegal command word raised F_ILLOP (R98, R281): the response goes to the port, under the AG bits
the word has (log 20). -/
def State.illegalFaulted (s : State) (ag : BitVec 3) : State :=
  let s1 := s.withFaultBit .illop
  { s1 with
    log := { s1.log with responses := s1.log.responses ++ [⟨s1.now.origin, ag, .fault, (causeMask .illop).setWidth 32⟩] } }

/-- Step 3 of R284: the port may carry the agent now (R293). -/
def portCarries (o : Origin) (ag : Agent) (ph : Phase) : Bool :=
  match o, ag with
  | .port .hp, .H => true
  | .port .hp, .C => ph == .setup
  | .port .hp, .M => ph == .setup
  | .port .rp, .R => true
  | .port .sp, .S => true
  | .boot, .C => ph == .boot
  | .capture, .C => ph == .run
  | .mixer, .M => ph == .run
  | _, _ => false

/-- Steps 3 and 4 of R284 before an operation's own rule: `issuers` are the agents of its row of R97, `phases` the phases
of its row of R294 for this agent. -/
def checked (s : State) (ag : Agent) (issuers : List Agent) (phases : List Phase) (body : Result) : Result :=
  if ¬(portCarries s.now.origin ag s.phase = true ∧ ag ∈ issuers) then raiseFault s ag .agent
  else if s.phase ∉ phases then raiseFault s ag .phase
  else body

/-- Step 6 of R284 for a named token: in range, and held by the issuing agent (R72). -/
def owned (s : State) (ag : Agent) (t : Token) (body : Result) : Result :=
  if ¬ tokenInRange s t then raiseFault s ag .range
  else if s.pool.heldBy ag ≠ some t then raiseFault s ag .own
  else body

/-- What the wait mode makes of an operation `i` that is not ready (R14); `late` is the state in which a BOUNDED wait
that expires answers, which differs from `s` for CAPRD alone (R150). -/
def notReady (s late : State) (i : Instr) (wm : WaitMode) : Result :=
  match wm with
  | .poll => respond s i.agent .wouldblock 0
  | .bounded =>
    if s.now.expire then respond late i.agent .timeout 0 else .next (s.withWaiting i.agent (some i))
  | .unbounded => .next (s.withWaiting i.agent (some i))

/-- Go on from a next state. -/
def Result.andThen (r : Result) (f : State → Result) : Result :=
  match r with
  | .next s => f s
  | .fault e => .fault e
  | .refused e => .refused e

end Sys2Proof.Machine
end

