-- ==== Sys2Proof/Machine/Capture.lean ====
section
/-! DEFINITION. Unit CAPIF: CAPRD (spec/41_capture.md R150, spec/60_exceptions.md R300). -/

namespace Sys2Proof.Machine

/-- The source's answer is consumed; what it presents next is a new draw, which the next turn brings (R300, log 2). -/
def State.sourceConsumed (s : State) : State := { s with now := { s.now with source := .nothing } }

/-- CAPRD from its ready condition on (R150). -/
def caprdReady (ag : Agent) (wm : WaitMode) (t : Token) (s : State) : Result :=
  match s.now.source with
  | .frame d =>
    respond (s.withFrame t (drawnFrame s.params d)).sourceConsumed ag .ok (BitVec.ofNat 32 s.params.frameLen)
  | .error => respond (s.withUndefFrame t).sourceConsumed ag .error 0
  | .nothing => notReady s (s.withUndefFrame t) (.caprd ag wm t) wm

/-- CAPRD (R150). -/
def execCaprd (ag : Agent) (wm : WaitMode) (t : Token) (s : State) : Result :=
  checked s ag [.C] [.setup, .boot, .run] <| owned s ag t <| caprdReady ag wm t s

end Sys2Proof.Machine
end

