-- ==== Sys2Proof/Machine/Registers.lean ====
section
/-! DEFINITION. The control and status registers (spec/10_state.md R30 to R45): their numbers, access, what CFGR reads and
what CFGW may write. -/

namespace Sys2Proof.Machine

/-- The registers of R45. -/
inductive Csr where
  | param0
  | param1
  | srate
  | convcfg
  | pathcfg
  | thresh
  | coef0
  | coef1
  | coef2
  | coef3
  | idle
  | calmax
  | status
  | fault
  | evt
  | qcnt
  | ringst
  | first
  | ownmap
  | calcnt
  | dlv (k : Fin 7)
  deriving DecidableEq, Repr

/-- The register of a number; every other number is unimplemented (R45). -/
def csrOfNumber (r : BitVec 8) : Option Csr :=
  match r.toNat with
  | 0x00 => some .param0
  | 0x01 => some .param1
  | 0x02 => some .srate
  | 0x04 => some .convcfg
  | 0x05 => some .pathcfg
  | 0x06 => some .thresh
  | 0x08 => some .coef0
  | 0x09 => some .coef1
  | 0x0A => some .coef2
  | 0x0B => some .coef3
  | 0x0C => some .idle
  | 0x0D => some .calmax
  | 0x10 => some .status
  | 0x11 => some .fault
  | 0x12 => some .evt
  | 0x13 => some .qcnt
  | 0x14 => some .ringst
  | 0x15 => some .first
  | 0x16 => some .ownmap
  | 0x17 => some .calcnt
  | 0x18 => some (.dlv 0)
  | 0x19 => some (.dlv 1)
  | 0x1A => some (.dlv 2)
  | 0x1B => some (.dlv 3)
  | 0x1C => some (.dlv 4)
  | 0x1D => some (.dlv 5)
  | 0x1E => some (.dlv 6)
  | _ => none

/-- The number of a register (R45). -/
def csrNumber : Csr → BitVec 8
  | .param0 => 0x00
  | .param1 => 0x01
  | .srate => 0x02
  | .convcfg => 0x04
  | .pathcfg => 0x05
  | .thresh => 0x06
  | .coef0 => 0x08
  | .coef1 => 0x09
  | .coef2 => 0x0A
  | .coef3 => 0x0B
  | .idle => 0x0C
  | .calmax => 0x0D
  | .status => 0x10
  | .fault => 0x11
  | .evt => 0x12
  | .qcnt => 0x13
  | .ringst => 0x14
  | .first => 0x15
  | .ownmap => 0x16
  | .calcnt => 0x17
  | .dlv k => 0x18 + BitVec.ofNat 8 k.val

/-- CFGW may write the register (access class RW-SETUP, R45); the others are read-only. -/
def csrWritable : Csr → Bool
  | .convcfg | .pathcfg | .thresh | .coef0 | .coef1 | .coef2 | .coef3 | .idle | .calmax => true
  | .param0 | .param1 | .srate | .status | .fault | .evt | .qcnt | .ringst | .first | .ownmap | .calcnt => false
  | .dlv _ => false

/-- PARAM0 (R30). -/
def param0Word (p : Params) : Word :=
  placed 0 (BitVec.ofNat 13 p.frameLen) ||| placed 16 (BitVec.ofNat 5 p.depth) ||| placed 24 (bit (p.slotW == .w32))

/-- CONVCFG (R31). -/
def convcfgWord (c : ConvCfg) : Word := placed 0 c.nbits ||| placed 8 c.shift ||| placed 16 (bit c.sgn)

/-- PATHCFG (R32). -/
def pathcfgWord (c : PathCfg) : Word :=
  placed 0 (bit c.firEn) ||| placed 1 (bit c.gateEn) ||| placed 2 (bit c.sat) ||| placed 3 (bit c.calEn)

/-- STATUS (R37). -/
def statusWord (s : State) : Word :=
  placed 0 (phaseCode s.phase) ||| placed 2 (playCode s.play) ||| placed 4 (bit s.caldone) |||
    placed 5 (bit s.pool.chold.isSome) ||| placed 6 (s.pool.chold.getD 0) |||
    placed 10 (bit s.pool.mhold.isSome) ||| placed 11 (s.pool.mhold.getD 0) |||
    placed 16 (cstepCode s.seq.cstep) ||| placed 20 (mstepCode s.seq.mstep) ||| placed 24 (bstepCode s.seq.bstep)

/-- EVT (R38). -/
def evtWord (e : Evt) : Word := placed 0 (bit e.capfail) ||| placed 1 (bit e.sinkmiss)

/-- QCNT (R40). -/
def qcntWord (pl : Pool) : Word :=
  placed 0 (BitVec.ofNat 5 pl.freeq.length) ||| placed 8 (BitVec.ofNat 5 pl.busyq.length)

/-- RINGST (R41). -/
def ringstWord (r : Ring) : Word := placed 0 (BitVec.ofNat 16 r.rfill) ||| placed 16 (BitVec.ofNat 16 r.rrd)

/-- The `OWN` fields of the tokens below `n`, token 0 in the low bits (R43). -/
def ownmapBelow (pl : Pool) : Nat → Word
  | 0 => 0
  | n + 1 => ownmapBelow pl n ||| placed (2 * n) (ownerCode (ownerOf pl (BitVec.ofNat 4 n)))

/-- The value CFGR reads (R30 to R44, R251), assembled from the state. -/
def csrRead (s : State) : Csr → Word
  | .param0 => param0Word s.params
  | .param1 => placed 0 (BitVec.ofNat 16 s.params.ringCap)
  | .srate => s.params.srate
  | .convcfg => convcfgWord s.cfg.convcfg
  | .pathcfg => pathcfgWord s.cfg.pathcfg
  | .thresh => placed 0 s.cfg.thresh
  | .coef0 => placed 0 s.cfg.coef0
  | .coef1 => placed 0 s.cfg.coef1
  | .coef2 => placed 0 s.cfg.coef2
  | .coef3 => placed 0 s.cfg.coef3
  | .idle => placed 0 s.cfg.idle
  | .calmax => placed 0 s.cfg.calmax
  | .status => statusWord s
  | .fault => placed 0 s.fault
  | .evt => evtWord s.evt
  | .qcnt => qcntWord s.pool
  | .ringst => ringstWord s.ring
  | .first => placed 0 (BitVec.ofNat 3 s.filter.fidx.val)
  | .ownmap => ownmapBelow s.pool s.params.depth
  | .calcnt => placed 0 s.seq.calcnt
  | .dlv k => placed 0 (s.filter.dl.get k)

/-- CONVCFG from a written value (R31). -/
def convcfgOfWord (v : Word) : ConvCfg :=
  { nbits := v.extractLsb' 0 5, shift := v.extractLsb' 8 5, sgn := v.getLsbD 16 }

/-- PATHCFG from a written value (R32). -/
def pathcfgOfWord (v : Word) : PathCfg :=
  { firEn := v.getLsbD 0, gateEn := v.getLsbD 1, sat := v.getLsbD 2, calEn := v.getLsbD 3 }

/-- The field constraint of CONVCFG (R31). -/
abbrev convcfgLegal (sw : SlotWidth) (c : ConvCfg) : Prop :=
  1 ≤ c.nbits.toNat ∧ c.nbits.toNat ≤ 16 ∧ c.shift.toNat + c.nbits.toNat ≤ slotBits sw

/-- `v` is a legal value of the register (R252). -/
def csrLegal (sw : SlotWidth) (c : Csr) (v : Word) : Bool :=
  match c with
  | .convcfg => v &&& 0xFFFEE0E0#32 == 0 && decide (convcfgLegal sw (convcfgOfWord v))
  | .pathcfg => v.toNat < 2 ^ 4
  | .thresh | .coef0 | .coef1 | .coef2 | .coef3 | .idle => v.toNat < 2 ^ 16
  | .calmax => decide (v.toNat < 2 ^ 8 ∧ 1 ≤ v.toNat)
  | .param0 | .param1 | .srate | .status | .fault | .evt | .qcnt | .ringst | .first | .ownmap | .calcnt => false
  | .dlv _ => false

/-- The state after a legal write of a register (R252). A write of IDLE sets CALDONE. -/
def csrWrite (s : State) (c : Csr) (v : Word) : State :=
  match c with
  | .convcfg => { s with cfg := { s.cfg with convcfg := convcfgOfWord v } }
  | .pathcfg => { s with cfg := { s.cfg with pathcfg := pathcfgOfWord v } }
  | .thresh => { s with cfg := { s.cfg with thresh := v.setWidth 16 } }
  | .coef0 => { s with cfg := { s.cfg with coef0 := v.setWidth 16 } }
  | .coef1 => { s with cfg := { s.cfg with coef1 := v.setWidth 16 } }
  | .coef2 => { s with cfg := { s.cfg with coef2 := v.setWidth 16 } }
  | .coef3 => { s with cfg := { s.cfg with coef3 := v.setWidth 16 } }
  | .idle => s.withIdle (v.setWidth 16)
  | .calmax => { s with cfg := { s.cfg with calmax := v.setWidth 8 } }
  | .param0 | .param1 | .srate | .status | .fault | .evt | .qcnt | .ringst | .first | .ownmap | .calcnt => s
  | .dlv _ => s

end Sys2Proof.Machine
end

