-- ==== Sys2Proof/Machine/HostOps.lean ====
section
/-! DEFINITION. The operations of agent H without counterpart in the source: NOP, CFGR, CFGW, START (spec/45_host.md). -/

namespace Sys2Proof.Machine

/-- The phases in which an agent may issue NOP (R294). -/
def nopPhases : Agent → List Phase
  | .H | .R | .S => [.setup, .boot, .run, .fatal]
  | .C | .M => [.setup, .boot, .run]

/-- NOP (R250). -/
def execNop (ag : Agent) (s : State) : Result :=
  checked s ag [.H, .C, .M, .R, .S] (nopPhases ag) <| respond s ag .ok 0

/-- CFGR (R251). -/
def execCfgr (ag : Agent) (r : BitVec 8) (s : State) : Result :=
  checked s ag [.H] [.setup, .boot, .run, .fatal] <|
    match csrOfNumber r with
    | none => raiseFault s ag .range
    | some c => respond s ag .ok (csrRead s c)

/-- CFGW (R252). -/
def execCfgw (ag : Agent) (r : BitVec 8) (v : Word) (s : State) : Result :=
  checked s ag [.H] [.setup] <|
    match csrOfNumber r with
    | none => raiseFault s ag .range
    | some c =>
      if csrWritable c = false then raiseFault s ag .range
      else if csrLegal s.params.slotW c v = false then raiseFault s ag .range
      else respond (csrWrite s c v) ag .ok 0

/-- START may go on (R255). -/
def startable (s : State) : Bool :=
  s.waiting.opC.isNone && s.waiting.opM.isNone &&
    !(!s.cfg.convcfg.sgn && !s.cfg.pathcfg.calEn && !s.caldone) &&
    !(!s.cfg.convcfg.sgn && !s.cfg.pathcfg.calEn && decide (s.cfg.idle.toNat > maxCode s.cfg.convcfg))

/-- What START re-initialises (R254). -/
def State.reinitialised (s : State) : State :=
  { s with pool := Pool.seeded s.params.depth, out := [], filter := Filter.zero, seq := Seq.reset }

/-- The state START leaves: BOOT at B_ACQ when calibration is enabled, else RUN (R253). -/
def State.started (s : State) : State :=
  let s1 := s.reinitialised
  if s.cfg.pathcfg.calEn then { s1 with phase := .boot, seq := { s1.seq with bstep := .acq } }
  else { s1 with phase := .run }

/-- START (R253). -/
def execStart (ag : Agent) (s : State) : Result :=
  checked s ag [.H] [.setup] <|
    if startable s = false then raiseFault s ag .cfg
    else respond s.started ag .ok ((phaseCode s.started.phase).setWidth 32)

end Sys2Proof.Machine
end

