-- ==== Sys2Proof/Machine/Dsp.lean ====
section
/-! DEFINITION. Unit DSP: the sample functions and CONV, SCALE, LPF, GATE, FIDLE (spec/44_dsp.md). All arithmetic is
exact (R238). -/

namespace Sys2Proof.Machine

/-! ### Functions -/

/-- `conv(slot)` (R221). -/
def convSlot (c : ConvCfg) (slot : Slot) : Int :=
  let f := (slot.toNat / 2 ^ c.shift.toNat) % 2 ^ c.nbits.toNat
  if c.sgn then sextN c.nbits.toNat f else (f : Int)

/-- `scale(u)` (R225). -/
def scaleCode (c : ConvCfg) (idle u : Nat) : Int :=
  if u = idle then 0
  else if u > idle then (((u - idle) * 32767 / (maxCode c - idle) : Nat) : Int)
  else -(((idle - u) * 32768 / idle : Nat) : Int)

/-- The taps `H[0..6]` (R34). -/
def taps (c : Cfg) : Vector Int 7 :=
  #v[c.coef0.toInt, c.coef1.toInt, c.coef2.toInt, c.coef3.toInt, c.coef2.toInt, c.coef1.toInt, c.coef0.toInt]

/-- `(FIDX + 7 - k) mod 7` (R227). -/
def tapIndex (fidx k : Fin 7) : Fin 7 := ⟨(fidx.val + 7 - k.val) % 7, Nat.mod_lt _ (by decide)⟩

/-- The accumulator of the filter, over a delay line that holds the newest sample at `fidx` (R227). -/
def firAcc (h : Vector Int 7) (dl : Vector Pcm 7) (fidx : Fin 7) : Int :=
  ((List.finRange 7).map fun k => h.get k * (dl.get (tapIndex fidx k)).toInt).sum

/-- The delay line with the newest sample in (R227). -/
def Filter.pushed (f : Filter) (x : Pcm) : Vector Pcm 7 := f.dl.set f.fidx.val x

/-- The output of `lpf(x)` (R227). -/
def lpfOut (c : Cfg) (f : Filter) (x : Pcm) : Pcm := wrap16 (asr (firAcc (taps c) (f.pushed x) f.fidx) 15)

/-- The filter state after `lpf(x)` (R227). -/
def lpfNext (f : Filter) (x : Pcm) : Filter :=
  { dl := f.pushed x, fidx := ⟨(f.fidx.val + 1) % 7, Nat.mod_lt _ (by decide)⟩ }

/-- `gate(x)` (R231). -/
def gateSample (c : Cfg) (x : Pcm) : Pcm := if x.toInt.natAbs < c.thresh.toNat then 0 else x

/-- The scale stage of the mic path as a PCM sample: in unsigned mode only (R236). -/
def micScaled (c : Cfg) (slot : Slot) : Pcm :=
  if c.convcfg.sgn then wrap16 (convSlot c.convcfg slot)
  else wrap16 (scaleCode c.convcfg c.idle.toNat (convSlot c.convcfg slot).toNat)

/-- The gate stage of the mic path (R236). -/
def micGated (c : Cfg) (x : Pcm) : Pcm := if c.pathcfg.gateEn then gateSample c x else x

/-- `micpath(slot)`: convert, scale, filter, gate (R236), with the filter state after it. -/
def micPath (c : Cfg) (f : Filter) (slot : Slot) : Pcm × Filter :=
  let v1 := micScaled c slot
  if c.pathcfg.firEn then (micGated c (lpfOut c f v1), lpfNext f v1) else (micGated c v1, f)

/-- `idle_avg` of the slots of a frame (R233). -/
def idleAvg (c : ConvCfg) (slots : List Slot) (frameLen : Nat) : Int :=
  tdiv (slots.map (convSlot c)).sum frameLen

/-! ### Operations -/

/-- The phases in which an agent may issue CONV, SCALE and GATE (R294). -/
def dspPhases : Agent → List Phase
  | .H => [.setup, .boot, .run]
  | .C | .M | .R | .S => [.setup]

/-- CONV (R220). -/
def execConv (ag : Agent) (v : Word) (s : State) : Result :=
  checked s ag [.H, .C, .M] (dspPhases ag) <|
    respond s ag .ok (valOfInt (convSlot s.cfg.convcfg (slotOfWord s.params.slotW v)))

/-- SCALE (R224). -/
def execScale (ag : Agent) (u : BitVec 16) (s : State) : Result :=
  checked s ag [.H, .C, .M] (dspPhases ag) <|
    if u.toNat > maxCode s.cfg.convcfg then raiseFault s ag .range
    else respond s ag .ok (valOfInt (scaleCode s.cfg.convcfg s.cfg.idle.toNat u.toNat))

/-- LPF (R226): it advances the filter by one sample whatever FIR_EN is. -/
def execLpf (ag : Agent) (x : Pcm) (s : State) : Result :=
  checked s ag [.M] [.setup] <|
    respond { s with filter := lpfNext s.filter x } ag .ok (valOfPcm (lpfOut s.cfg s.filter x))

/-- GATE (R230): it works whatever GATE_EN is. -/
def execGate (ag : Agent) (x : Pcm) (s : State) : Result :=
  checked s ag [.H, .C, .M] (dspPhases ag) <| respond s ag .ok (valOfPcm (gateSample s.cfg x))

/-- The phases in which an agent may issue FIDLE (R294). -/
def fidlePhases : Agent → List Phase
  | .C => [.setup, .boot]
  | .H | .M | .R | .S => [.setup]

/-- FIDLE (R232). -/
def execFidle (ag : Agent) (t : Token) (s : State) : Result :=
  checked s ag [.C, .M] (fidlePhases ag) <| owned s ag t <|
    match frameSlots s t with
    | none => raiseFault s ag .undef
    | some slots =>
      respond (s.withIdle (BitVec.ofInt 16 (idleAvg s.cfg.convcfg slots s.params.frameLen))) ag .ok
        (valOfInt (idleAvg s.cfg.convcfg slots s.params.frameLen))

end Sys2Proof.Machine
end

