-- ==== Sys2Proof/Machine/Mixer.lean ====
section
/-! DEFINITION. Unit MIX: OCLR, RPOP, MIXF, SINKW, OLD (spec/43_mixer.md). -/

namespace Sys2Proof.Machine

/-- OCLR (R190). -/
def execOclr (ag : Agent) (s : State) : Result :=
  checked s ag [.M] [.setup, .run] <| respond { s with out := [] } ag .ok 0

/-- The number of bytes RPOP removes (R191). -/
def popCount (s : State) : Nat := min s.ring.rfill (outputFrameBytes s.params)

/-- The state after RPOP removed and decoded bytes (R191). -/
def State.popped (s : State) : State :=
  { s with
    out := putPairs s.out 0 (pairsOfBytes (ringBytes s.ring.rb s.params.ringCap s.ring.rrd (popCount s)))
    ring := { s.ring with
      rrd := (s.ring.rrd + popCount s) % s.params.ringCap
      rfill := s.ring.rfill - popCount s } }

/-- RPOP from its ready condition on: the Playing flag is tested at the instant of completion (R191). -/
def rpopReady (ag : Agent) (wm : WaitMode) (s : State) : Result :=
  if s.play ≠ .playing then respond s ag .skip 0
  else if s.ring.rfill = 0 then notReady s s (.rpop ag wm) wm
  else respond s.popped ag .ok (BitVec.ofNat 32 (popCount s))

/-- RPOP (R191). -/
def execRpop (ag : Agent) (wm : WaitMode) (s : State) : Result :=
  checked s ag [.M] [.setup, .run] <| rpopReady ag wm s

/-- `mixadd(a, m)` (R198). -/
def mixAdd (sat : Bool) (a m : Pcm) : Pcm :=
  if sat then sat16 (a.toInt + m.toInt) else wrap16 (a.toInt + m.toInt)

/-- The same mic sample added to both channels of a pair (R195). -/
def mixPair (sat : Bool) (p : Pair) (m : Pcm) : Pair := ⟨mixAdd sat p.left m, mixAdd sat p.right m⟩

/-- The loop of MIXF from index `i` on: the Output Frame and the filter after it (R195). -/
def mixSlots (c : Cfg) (out : Memory Pair) (f : Filter) (i : Nat) : List Slot → Memory Pair × Filter
  | [] => (out, f)
  | x :: xs =>
    mixSlots c (putPair out i (mixPair c.pathcfg.sat (pairAt out i) (micPath c f x).1)) (micPath c f x).2 (i + 1) xs

/-- The state after a frame's slots are mixed (R195). -/
def State.mixed (s : State) (slots : List Slot) : State :=
  { s with out := (mixSlots s.cfg s.out s.filter 0 slots).1, filter := (mixSlots s.cfg s.out s.filter 0 slots).2 }

/-- MIXF (R195). -/
def execMixf (ag : Agent) (t : Token) (s : State) : Result :=
  checked s ag [.M] [.setup, .run] <| owned s ag t <|
    match frameSlots s t with
    | none => raiseFault s ag .undef
    | some slots => respond (s.mixed slots) ag .ok 0

/-- The Output Frame appended to SINKLOG (R49, R200). -/
def State.sunk (s : State) : State := { s with log := { s.log with sink := s.log.sink ++ [outSamples s] } }

/-- SINKW from its ready condition on (R200). -/
def sinkwReady (ag : Agent) (wm : WaitMode) (s : State) : Result :=
  match s.now.sink with
  | .accepting => respond s.sunk ag .ok (BitVec.ofNat 32 (outputFrameBytes s.params))
  | .error => respond s ag .error 0
  | .busy => notReady s s (.sinkw ag wm) wm

/-- SINKW (R200). -/
def execSinkw (ag : Agent) (wm : WaitMode) (s : State) : Result :=
  checked s ag [.M] [.setup, .run] <| sinkwReady ag wm s

/-- The phases in which an agent may issue OLD (R294). -/
def oldPhases : Agent → List Phase
  | .H => [.setup, .boot, .run]
  | .C | .M | .R | .S => [.setup]

/-- OLD (R202): right sample in VAL[31:16], left sample in VAL[15:0]. -/
def execOld (ag : Agent) (i : BitVec 12) (s : State) : Result :=
  checked s ag [.H, .M] (oldPhases ag) <|
    if ¬ indexInRange s i then raiseFault s ag .range
    else respond s ag .ok ((pairAt s.out i.toNat).right ++ (pairAt s.out i.toNat).left)

end Sys2Proof.Machine
end

