-- ==== Sys2Proof/Machine/Pool.lean ====
section
/-! DEFINITION. Unit POOL: ACQF, PUBB, TAKB, RELF, FST, FLD (spec/40_pool.md). Each waiting operation has a part
`…Ready` that looks at the ready condition; it runs again when an outstanding operation is looked at (R14). -/

namespace Sys2Proof.Machine

/-- ACQF from its ready condition on (R121). -/
def acqfReady (ag : Agent) (wm : WaitMode) (s : State) : Result :=
  match s.pool.freeq with
  | [] => notReady s s (.acqf ag wm) wm
  | t :: q => respond { s with pool := s.pool.acquire t q } ag .ok (t.setWidth 32)

/-- ACQF (R121). -/
def execAcqf (ag : Agent) (wm : WaitMode) (s : State) : Result :=
  checked s ag [.C] [.setup, .boot, .run] <|
    if s.pool.chold.isSome then raiseFault s ag .hold else acqfReady ag wm s

/-- PUBB from its ready condition on (R122). -/
def pubbReady (ag : Agent) (wm : WaitMode) (t : Token) (s : State) : Result :=
  if s.pool.busyq.length ≥ s.params.depth then notReady s s (.pubb ag wm t) wm
  else respond { s with pool := s.pool.publish t } ag .ok 0

/-- PUBB (R122). -/
def execPubb (ag : Agent) (wm : WaitMode) (t : Token) (s : State) : Result :=
  checked s ag [.C] [.setup, .run] <| owned s ag t <| pubbReady ag wm t s

/-- TAKB from its ready condition on (R123). -/
def takbReady (ag : Agent) (wm : WaitMode) (s : State) : Result :=
  match s.pool.busyq with
  | [] => notReady s s (.takb ag wm) wm
  | t :: q => respond { s with pool := s.pool.take t q } ag .ok (t.setWidth 32)

/-- TAKB (R123). -/
def execTakb (ag : Agent) (wm : WaitMode) (s : State) : Result :=
  checked s ag [.M] [.setup, .run] <|
    if s.pool.mhold.isSome then raiseFault s ag .hold else takbReady ag wm s

/-- The phases in which an agent may issue RELF (R294). -/
def relfPhases : Agent → List Phase
  | .C => [.setup, .boot, .run]
  | .H | .M | .R | .S => [.setup, .run]

/-- RELF (R124). It cannot wait. -/
def execRelf (ag : Agent) (t : Token) (s : State) : Result :=
  checked s ag [.C, .M] (relfPhases ag) <| owned s ag t <|
    respond { s with pool := s.pool.release ag t } ag .ok 0

/-- FST (R125): the operand word's slot goes to `FM[t][i]`. -/
def execFst (ag : Agent) (t : Token) (i : BitVec 12) (v : Word) (s : State) : Result :=
  checked s ag [.C] [.setup] <|
    if ¬ indexInRange s i then raiseFault s ag .range
    else owned s ag t <| respond (s.withSlot t i.toNat (slotOfWord s.params.slotW v)) ag .ok 0

/-- FLD (R126). -/
def execFld (ag : Agent) (t : Token) (i : BitVec 12) (s : State) : Result :=
  checked s ag [.C, .M] [.setup] <|
    if ¬ indexInRange s i then raiseFault s ag .range
    else owned s ag t <|
      match slotAt s t i.toNat with
      | none => raiseFault s ag .undef
      | some x => respond s ag .ok x

end Sys2Proof.Machine
end

