-- ==== Sys2Proof/Machine/Radio.lean ====
section
/-! DEFINITION. The radio side: RPUSH and SEVT (spec/42_ring.md). -/

namespace Sys2Proof.Machine

/-- The state after a chunk is appended to the ring (R170). -/
def State.pushed (s : State) (c : List Byte) : State :=
  { s with ring := { s.ring with
      rb := ringStore s.ring.rb s.params.ringCap (s.ring.rrd + s.ring.rfill) c
      rfill := s.ring.rfill + c.length } }

/-- RPUSH (R170 to R172). It cannot wait. -/
def execRpush (ag : Agent) (len : BitVec 16) (payload : List Word) (s : State) : Result :=
  if payload.length ≠ payloadWords len then .fault .illFormed
  else
    checked s ag [.R] [.setup, .boot, .run] <|
      if len.toNat = 0 ∨ len.toNat % 4 ≠ 0 then raiseFault s ag .badlen
      else if len.toNat > s.params.ringCap - s.ring.rfill then respond s ag .dropped 0
      else respond (s.pushed (chunkOf len payload)) ag .ok (len.setWidth 32)

/-- The state after a session event (R173): a connection empties the ring (R175). -/
def State.afterEvent (s : State) (ev : SessionEvent) : State :=
  match ev with
  | .connected => { s with play := playAfter s.play .connected, ring := { s.ring with rrd := 0, rfill := 0 } }
  | .disconnected => { s with play := playAfter s.play .disconnected }
  | .playing => { s with play := playAfter s.play .playing }
  | .paused => { s with play := playAfter s.play .paused }

/-- SEVT (R173): it answers the new value of PLAY. -/
def execSevt (ag : Agent) (ev : SessionEvent) (s : State) : Result :=
  checked s ag [.S] [.setup, .boot, .run] <|
    respond (s.afterEvent ev) ag .ok ((playCode (s.afterEvent ev).play).setWidth 32)

end Sys2Proof.Machine
end

