-- ==== Sys2Proof/Machine/Dispatch.lean ====
section
/-! DEFINITION. The meaning of every operation, one arm each (spec/30_encoding.md R97). -/

namespace Sys2Proof.Machine

/-- An operation issued from `s.now.origin` with the environment of `s.now` (R100 from step 4 on). -/
def exec (i : Instr) (s : State) : Host.Outcome State Fault Refusal :=
  match i with
  | .nop ag => Sys2Proof.Machine.execNop ag s
  | .cfgr ag r => Sys2Proof.Machine.execCfgr ag r s
  | .cfgw ag r v => Sys2Proof.Machine.execCfgw ag r v s
  | .start ag => Sys2Proof.Machine.execStart ag s
  | .acqf ag wm => Sys2Proof.Machine.execAcqf ag wm s
  | .pubb ag wm t => Sys2Proof.Machine.execPubb ag wm t s
  | .takb ag wm => Sys2Proof.Machine.execTakb ag wm s
  | .relf ag t => Sys2Proof.Machine.execRelf ag t s
  | .fst ag t k v => Sys2Proof.Machine.execFst ag t k v s
  | .fld ag t k => Sys2Proof.Machine.execFld ag t k s
  | .caprd ag wm t => Sys2Proof.Machine.execCaprd ag wm t s
  | .conv ag v => Sys2Proof.Machine.execConv ag v s
  | .scale ag u => Sys2Proof.Machine.execScale ag u s
  | .lpf ag x => Sys2Proof.Machine.execLpf ag x s
  | .gate ag x => Sys2Proof.Machine.execGate ag x s
  | .fidle ag t => Sys2Proof.Machine.execFidle ag t s
  | .oclr ag => Sys2Proof.Machine.execOclr ag s
  | .rpop ag wm => Sys2Proof.Machine.execRpop ag wm s
  | .mixf ag t => Sys2Proof.Machine.execMixf ag t s
  | .sinkw ag wm => Sys2Proof.Machine.execSinkw ag wm s
  | .old ag k => Sys2Proof.Machine.execOld ag k s
  | .rpush ag len payload => Sys2Proof.Machine.execRpush ag len payload s
  | .sevt ag ev => Sys2Proof.Machine.execSevt ag ev s

end Sys2Proof.Machine
end

