-- ==== Sys2Proof/Machine/Sequencers.lean ====
section
/-! DEFINITION. What moves besides a command: an outstanding operation looked at again (spec/00_scope.md R14), the
capture sequencer (spec/41_capture.md R156), the mixer sequencer (spec/43_mixer.md R207), the boot sequencer
(spec/45_host.md R256), and reset (spec/70_reset_and_hazards.md R320). -/

namespace Sys2Proof.Machine

/-! ### Outstanding operations -/

/-- An outstanding operation looked at again, from its ready condition on: its other checks were made when it was issued
(R284). Only the six operations of R14 can be outstanding; for any other nothing happens. -/
def completeOp (i : Instr) (s : State) : Result :=
  match i with
  | .acqf ag wm => acqfReady ag wm s
  | .pubb ag wm t => pubbReady ag wm t s
  | .takb ag wm => takbReady ag wm s
  | .caprd ag wm t => caprdReady ag wm t s
  | .rpop ag wm => rpopReady ag wm s
  | .sinkw ag wm => sinkwReady ag wm s
  | .nop _ | .cfgr _ _ | .cfgw _ _ _ | .start _ | .relf _ _ | .fst _ _ _ _ | .fld _ _ _ => .next s
  | .conv _ _ | .scale _ _ | .lpf _ _ | .gate _ _ | .fidle _ _ | .oclr _ | .mixf _ _ | .old _ _ => .next s
  | .rpush _ _ _ | .sevt _ _ => .next s

/-- The outstanding operation of agent `ag`, when it has one, looked at again; it is dropped, and stays only if it is
still not ready and does not time out. -/
def resumeAgent (ag : Agent) (s : State) : Result :=
  match s.waiting.of ag with
  | none => .next s
  | some i => completeOp i (s.withWaiting ag none)

/-- A direct-mode operation looked at again: in phase SETUP, for the host port (R293, R295, R338; log 11). -/
def resumeDirect (ag : Agent) (s : State) : Result :=
  if s.phase = .setup then resumeAgent ag { s with now := { s.now with origin := .port .hp } } else .next s

/-! ### Sequencers -/

/-- The status of the last response. -/
def lastStatus (s : State) : Option Status := s.log.responses.getLast?.map Response.st

/-- A sequencer's move for agent `ag`: its outstanding operation looked at again, or the command of its step issued; then,
once a response is there, what its table says, in the same step (R156, R207, R256, R285; log 21). With no command to issue
it stops (log 10). -/
def sequencerMove (o : Origin) (ag : Agent) (command : Option Instr) (table stop : State → State) (s : State) : Result :=
  let s0 : State := { s with now := { s.now with origin := o } }
  let go : Option Result :=
    if (s.waiting.of ag).isSome then some (resumeAgent ag s0) else command.map fun i => exec i s0
  match go with
  | none => .next (stop s)
  | some r => r.andThen fun s1 => if (s1.waiting.of ag).isSome then .next s1 else .next (table s1)

/-- The capture sequencer stops (R156). -/
def State.captureStopped (s : State) : State := { s with seq := { s.seq with cstopped := true } }

/-- CSTEP written. -/
def State.atCStep (s : State) (c : CStep) : State := { s with seq := { s.seq with cstep := c } }

/-- The command of the capture sequencer's step (R156). -/
def captureCommand (s : State) : Option Instr :=
  match s.seq.cstep with
  | .acq => some (.acqf .C .bounded)
  | .read => s.pool.chold.map fun t => .caprd .C .bounded t
  | .pub => s.pool.chold.map fun t => .pubb .C .bounded t
  | .rel => s.pool.chold.map fun t => .relf .C t

/-- The capture sequencer's table: side effect and next step for the response just given (R156). -/
def captureTable (s : State) : State :=
  match s.seq.cstep, lastStatus s with
  | .acq, some .ok => s.atCStep .read
  | .acq, some .timeout => s.atCStep .acq
  | .read, some .ok => s.atCStep .pub
  | .read, some .timeout => s.withCapfail.atCStep .rel
  | .read, some .error => s.withCapfail.atCStep .rel
  | .pub, some .ok => s.atCStep .acq
  | .pub, some .timeout => s.atCStep .rel
  | .rel, some .ok => s.atCStep .acq
  | _, _ => s.captureStopped

/-- The capture sequencer moves; it runs only in phase RUN (R156). -/
def captureMove (s : State) : Result :=
  if s.phase = .run ∧ s.seq.cstopped = false then
    sequencerMove .capture .C (captureCommand s) captureTable State.captureStopped s
  else .next s

/-- The mixer sequencer stops (R207). -/
def State.mixerStopped (s : State) : State := { s with seq := { s.seq with mstopped := true } }

/-- MSTEP written. -/
def State.atMStep (s : State) (m : MStep) : State := { s with seq := { s.seq with mstep := m } }

/-- The command of the mixer sequencer's step (R207). -/
def mixerCommand (s : State) : Option Instr :=
  match s.seq.mstep with
  | .clr => some (.oclr .M)
  | .pop => some (.rpop .M .bounded)
  | .take => some (.takb .M .bounded)
  | .mix => s.pool.mhold.map fun t => .mixf .M t
  | .rel => s.pool.mhold.map fun t => .relf .M t
  | .sink => some (.sinkw .M .bounded)

/-- The mixer sequencer's table (R207). -/
def mixerTable (s : State) : State :=
  match s.seq.mstep, lastStatus s with
  | .clr, some .ok => s.atMStep .pop
  | .pop, some .ok => s.atMStep .take
  | .pop, some .skip => s.atMStep .take
  | .pop, some .timeout => s.atMStep .take
  | .take, some .ok => s.atMStep .mix
  | .take, some .timeout => s.atMStep .sink
  | .mix, some .ok => s.atMStep .rel
  | .mix, some .fault => s.atMStep .rel
  | .rel, some .ok => s.atMStep .sink
  | .sink, some .ok => s.atMStep .clr
  | .sink, some .timeout => s.withSinkmiss.atMStep .clr
  | .sink, some .error => s.withSinkmiss.atMStep .clr
  | _, _ => s.mixerStopped

/-- The mixer sequencer moves; it runs only in phase RUN (R207). -/
def mixerMove (s : State) : Result :=
  if s.phase = .run ∧ s.seq.mstopped = false then
    sequencerMove .mixer .M (mixerCommand s) mixerTable State.mixerStopped s
  else .next s

/-- The boot sequencer stops (R256). -/
def State.bootStopped (s : State) : State := { s with seq := { s.seq with bstopped := true } }

/-- BSTEP written. -/
def State.atBStep (s : State) (b : BStep) : State := { s with seq := { s.seq with bstep := b } }

/-- The command of the boot sequencer's step; B_OFF has none (R256). -/
def bootCommand (s : State) : Option Instr :=
  match s.seq.bstep with
  | .off => none
  | .acq => some (.acqf .C .bounded)
  | .read => s.pool.chold.map fun t => .caprd .C .bounded t
  | .avg => s.pool.chold.map fun t => .fidle .C t
  | .rel => s.pool.chold.map fun t => .relf .C t
  | .failrel => s.pool.chold.map fun t => .relf .C t

/-- A failed calibration read: CALCNT counts it, and the next step is B_FAILREL once CALMAX attempts are used (R256). -/
def State.calibrationMissed (s : State) : State :=
  { s with seq := { s.seq with
      calcnt := s.seq.calcnt + 1
      bstep := if s.seq.calcnt.toNat + 1 ≥ s.cfg.calmax.toNat then .failrel else .read } }

/-- Calibration done: phase RUN (R256). -/
def State.calibrated (s : State) : State := { s.atBStep .off with phase := .run }

/-- Calibration failed for good: F_CALFAIL and phase FATAL (R256, R285). -/
def State.calibrationFailed (s : State) : State := { (s.atBStep .off).withFaultBit .calfail with phase := .fatal }

/-- The boot sequencer's table (R256). -/
def bootTable (s : State) : State :=
  match s.seq.bstep, lastStatus s with
  | .acq, some .ok => s.atBStep .read
  | .acq, some .timeout => s.atBStep .acq
  | .read, some .ok => s.atBStep .avg
  | .read, some .timeout => s.calibrationMissed
  | .read, some .error => s.calibrationMissed
  | .avg, some .ok => s.atBStep .rel
  | .rel, some .ok => s.calibrated
  | .failrel, some .ok => s.calibrationFailed
  | _, _ => s.bootStopped

/-- The boot sequencer moves; it runs only in phase BOOT (R256). -/
def bootMove (s : State) : Result :=
  if s.phase = .boot ∧ s.seq.bstopped = false then
    sequencerMove .boot .C (bootCommand s) bootTable State.bootStopped s
  else .next s

/-! ### Reset -/

/-- The reset input (R320): every state element takes the value of R50, outstanding operations and presented words are
dropped; the parameters, the observation, and the turns to come are no state that reset touches (log 7, log 8). -/
def State.afterReset (s : State) : State :=
  { State.resetFor s.params with log := s.log, now := s.now, agenda := s.agenda, tick := s.tick }

end Sys2Proof.Machine
end

