-- ==== Sys2Proof/Machine/Turns.lean ====
section
/-! DEFINITION. One turn (log 2): the environment's answers of this instant, and the move (spec/00_scope.md R13,
spec/60_exceptions.md R288). -/

namespace Sys2Proof.Machine

/-- The words presented on a port and not yet taken (R90). -/
def Ports.of (p : Ports) : CmdPort → List Word
  | .hp => p.hp
  | .rp => p.rp
  | .sp => p.sp

/-- The words of a port replaced. -/
def Ports.set (p : Ports) (c : CmdPort) (ws : List Word) : Ports :=
  match c with
  | .hp => { p with hp := ws }
  | .rp => { p with rp := ws }
  | .sp => { p with sp := ws }

/-- The state in which a command of port `p` is carried out: the command's words taken, `rest` left on the port. -/
def State.servingPort (s : State) (p : CmdPort) (rest : List Word) : State :=
  { s with ports := s.ports.set p rest, now := { s.now with origin := .port p } }

/-- An agent with an operation outstanding issues no other (R13): its direct-mode command stays on the host port
(log 9). Outside SETUP that port may not carry it, so it is not held there but faults (R293). -/
def held (s : State) (p : CmdPort) (i : Instr) : Bool :=
  p == .hp && s.phase == .setup && (s.waiting.of i.agent).isSome

/-- The oldest command of a list of words that is not held, with the words of the held ones before it: a waiting operation
of one agent does not hold back the commands of another (R293). `fuel` is at least the number of words. -/
def firstServable (holds : Instr → Bool) : Nat → List Word → List Word × Fetched
  | 0, _ => ([], .incomplete)
  | fuel + 1, ws =>
    match fetch ws with
    | .incomplete => ([], .incomplete)
    | .illegal e w rest => ([], .illegal e w rest)
    | .command i rest =>
      if holds i then
        let later := firstServable holds fuel rest
        (ws.take (ws.length - rest.length) ++ later.1, later.2)
      else ([], .command i rest)

/-- The oldest command of a port that is not held carried out, if all its words are there; the words of held ones stay
(R13, R90, R99, R100, R293). -/
def servePort (p : CmdPort) (s : State) : Result :=
  let words := s.ports.of p
  match firstServable (held s p) words.length words with
  | (_, .incomplete) => .next s
  | (kept, .illegal _ w rest) => .next ((s.servingPort p (kept ++ rest)).illegalFaulted (agOf w))
  | (kept, .command i rest) => exec i (s.servingPort p (kept ++ rest))

/-- A move (R288, R303, R320). -/
def runMove (m : Move) (s : State) : Result :=
  match m with
  | .present p w => .next { s with ports := s.ports.set p (s.ports.of p ++ [w]) }
  | .serve p => servePort p s
  | .resumeC => resumeDirect .C s
  | .resumeM => resumeDirect .M s
  | .boot => bootMove s
  | .capture => captureMove s
  | .mixer => mixerMove s
  | .reset => .next s.afterReset

/-- What the environment presents at the instant of a turn (R14, R300, R301). -/
def State.withTurn (s : State) (t : Turn) : State :=
  { s with now := { s.now with source := t.source, sink := t.sink, expire := t.expire } }

/-- The next turn, and the state with it taken off: the first of the agenda, else the next free turn (log 2). -/
def nextTurn (s : State) : Turn × State :=
  match s.agenda with
  | [] => (Config.freeTurn s.tick, { s with tick := s.tick + 1 })
  | t :: ts => (t, { s with agenda := ts })

/-- A turn taken. -/
def takeTurn (t : Turn) (s : State) : Result := runMove t.move (s.withTurn t)

/-- The port that may carry a command word's agent (R293). -/
def portForAgent (ag : BitVec 3) : CmdPort :=
  if ag = agentCode .R then .rp else if ag = agentCode .S then .sp else .hp

/-- The agent whose outstanding operation would hold a command with these AG bits; dropped (log 3). -/
def State.agentFreed (s : State) (ag : BitVec 3) : State :=
  if ag = agentCode .C then s.withWaiting .C none
  else if ag = agentCode .M then s.withWaiting .M none
  else s

/-- The words of one command put first on the port of its agent, and the next turn laid down to serve that port with the
environment as it stands (log 3). -/
def State.withCommand (s : State) (ws : List Word) : State :=
  let ag := agOf (ws.headD 0)
  let p := portForAgent ag
  let s1 := s.agentFreed ag
  { s1 with
    ports := s1.ports.set p (ws ++ s1.ports.of p)
    agenda := { move := .serve p, source := s1.now.source, sink := s1.now.sink, expire := s1.now.expire } :: s1.agenda }

end Sys2Proof.Machine
end

