-- ==== Sys2Proof/Machine/Step.lean ====
section
/-! DEFINITION. One step of KAFP: one turn, hence one atomic transition (spec/00_scope.md R13). -/

namespace Sys2Proof.Machine

/-- One turn of the world. -/
def step (s : State) : Host.Outcome State Fault Refusal := takeTurn (nextTurn s).1 (nextTurn s).2

/-- `s` with an instruction of spec/opcode_table.json put where the next step takes its command from (log 3). -/
def State.withFetchWord (s : State) (nbits w : Nat) : State := s.withCommand (layoutWords nbits w)

end Sys2Proof.Machine
end

