-- ==== Sys2Proof/Safety.lean ====
section
/-! DEFINITION. The terms in which statements about KAFP are made: the permission table (spec/30_encoding.md R97,
spec/60_exceptions.md R293, R294), the parts of the state, and the invariants (spec/10_state.md R26, R27, R31, R36;
spec/41_capture.md R157; spec/43_mixer.md R208; spec/45_host.md R256, R257; spec/70_reset_and_hazards.md R323). -/

namespace Sys2Proof.Safety

open Sys2Proof.Machine

/-! ### Permissions, as the tables have them -/

/-- The agents column of R97. -/
def issuers : Instr → List Agent
  | .nop _ => [.H, .C, .M, .R, .S]
  | .cfgr _ _ | .cfgw _ _ _ | .start _ => [.H]
  | .acqf _ _ | .pubb _ _ _ | .fst _ _ _ _ | .caprd _ _ _ => [.C]
  | .takb _ _ | .lpf _ _ | .oclr _ | .rpop _ _ | .mixf _ _ | .sinkw _ _ => [.M]
  | .relf _ _ | .fld _ _ _ | .fidle _ _ => [.C, .M]
  | .conv _ _ | .scale _ _ | .gate _ _ => [.H, .C, .M]
  | .old _ _ => [.H, .M]
  | .rpush _ _ _ => [.R]
  | .sevt _ _ => [.S]

/-- The phases of R294 for an operation and its agent; the entries `seq` count as legal. -/
def legalPhases : Instr → List Phase
  | .nop .H | .nop .R | .nop .S => [.setup, .boot, .run, .fatal]
  | .nop .C | .nop .M => [.setup, .boot, .run]
  | .cfgr _ _ => [.setup, .boot, .run, .fatal]
  | .cfgw _ _ _ | .start _ => [.setup]
  | .acqf _ _ | .caprd _ _ _ | .relf .C _ => [.setup, .boot, .run]
  | .pubb _ _ _ | .takb _ _ | .relf _ _ => [.setup, .run]
  | .fst _ _ _ _ | .fld _ _ _ | .lpf _ _ => [.setup]
  | .conv .H _ | .scale .H _ | .gate .H _ | .old .H _ => [.setup, .boot, .run]
  | .conv _ _ | .scale _ _ | .gate _ _ | .old _ _ => [.setup]
  | .fidle .C _ => [.setup, .boot]
  | .fidle _ _ => [.setup]
  | .oclr _ | .rpop _ _ | .mixf _ _ | .sinkw _ _ => [.setup, .run]
  | .rpush _ _ _ | .sevt _ _ => [.setup, .boot, .run]

/-- The table of R293: an origin carries an agent in a phase. -/
abbrev carries (o : Origin) (ag : Agent) (ph : Phase) : Prop :=
  (o = .port .hp ∧ (ag = .H ∨ ((ag = .C ∨ ag = .M) ∧ ph = .setup))) ∨ (o = .port .rp ∧ ag = .R) ∨
    (o = .port .sp ∧ ag = .S) ∨ (o = .boot ∧ ag = .C ∧ ph = .boot) ∨ (o = .capture ∧ ag = .C ∧ ph = .run) ∨
    (o = .mixer ∧ ag = .M ∧ ph = .run)

/-- Steps 3 and 4 of R284 pass: the operation reaches its own rule. -/
abbrev mayIssue (i : Instr) (s : State) : Prop :=
  carries s.now.origin i.agent s.phase ∧ i.agent ∈ issuers i ∧ s.phase ∈ legalPhases i

/-- The operation can wait (R14). -/
def canWait : Instr → Bool
  | .acqf _ _ | .pubb _ _ _ | .takb _ _ | .caprd _ _ _ | .rpop _ _ | .sinkw _ _ => true
  | .nop _ | .cfgr _ _ | .cfgw _ _ _ | .start _ | .relf _ _ | .fst _ _ _ _ | .fld _ _ _ => false
  | .conv _ _ | .scale _ _ | .lpf _ _ | .gate _ _ | .fidle _ _ | .oclr _ | .mixf _ _ | .old _ _ => false
  | .rpush _ _ _ | .sevt _ _ => false

/-! ### Parts of the state, for frames -/

/-- The parts of the block's state, and the observation of the sink. -/
inductive Part where
  | fm
  | pool
  | ring
  | play
  | out
  | filter
  | cfg
  | caldone
  | phase
  | evt
  | fault
  | seq
  | waiting
  | sinkLog
  deriving DecidableEq, Repr

/-- Two states agree on a part. -/
def agreeOn (p : Part) (s t : State) : Prop :=
  match p with
  | .fm => t.fm = s.fm
  | .pool => t.pool = s.pool
  | .ring => t.ring = s.ring
  | .play => t.play = s.play
  | .out => t.out = s.out
  | .filter => t.filter = s.filter
  | .cfg => t.cfg = s.cfg
  | .caldone => t.caldone = s.caldone
  | .phase => t.phase = s.phase
  | .evt => t.evt = s.evt
  | .fault => t.fault = s.fault
  | .seq => t.seq = s.seq
  | .waiting => t.waiting = s.waiting
  | .sinkLog => t.log.sink = s.log.sink

/-- The parts an operation may write: those its rule writes, FAULT (every operation may be refused, R281), and the
outstanding operations where it can wait (R14). -/
def mayWrite : Instr → List Part
  | .nop _ | .cfgr _ _ | .fld _ _ _ | .conv _ _ | .scale _ _ | .gate _ _ | .old _ _ => [.fault]
  | .cfgw _ _ _ | .fidle _ _ => [.fault, .cfg, .caldone]
  | .start _ => [.fault, .pool, .out, .filter, .seq, .phase]
  | .acqf _ _ | .pubb _ _ _ | .takb _ _ => [.fault, .pool, .waiting]
  | .relf _ _ => [.fault, .pool]
  | .fst _ _ _ _ => [.fault, .fm]
  | .caprd _ _ _ => [.fault, .fm, .waiting]
  | .lpf _ _ => [.fault, .filter]
  | .oclr _ => [.fault, .out]
  | .rpop _ _ => [.fault, .out, .ring, .waiting]
  | .mixf _ _ => [.fault, .out, .filter]
  | .sinkw _ _ => [.fault, .sinkLog, .waiting]
  | .rpush _ _ _ => [.fault, .ring]
  | .sevt _ _ => [.fault, .ring, .play]

/-! ### What a next state holds -/

/-- The one response that `t` has and `s` has not (R49, R96). -/
abbrev responds (s t : State) (ag : Agent) (st : Status) (v : Word) : Prop :=
  t.log.responses = s.log.responses ++ [⟨s.now.origin, agentCode ag, st, v⟩]

/-- Nothing but the parts `ps` differs: every other part, the parameters, the words on the ports and the turns to come are
as before. -/
def keeps (ps : List Part) (s t : State) : Prop :=
  t.params = s.params ∧ t.ports = s.ports ∧ t.agenda = s.agenda ∧ t.tick = s.tick ∧ ∀ p, p ∉ ps → agreeOn p s t

/-- The operation `i` becomes outstanding (R14, R48): no response is given, every other agent's outstanding operation is its
own and stays (R13, R293), and nothing else changes. -/
def becomesOutstanding (i : Instr) (s t : State) : Prop :=
  t.waiting.of i.agent = some i ∧ (∀ ag, ag ≠ i.agent → t.waiting.of ag = s.waiting.of ag) ∧
    t.log.responses = s.log.responses ∧ keeps [.waiting] s t

/-! ### The checks of R284, as the tables have them -/

/-- The numbers of the registers (R45). -/
def registerNumbers : List Nat :=
  [0x00, 0x01, 0x02, 0x04, 0x05, 0x06, 0x08, 0x09, 0x0A, 0x0B, 0x0C, 0x0D, 0x10, 0x11, 0x12, 0x13, 0x14, 0x15, 0x16,
    0x17, 0x18, 0x19, 0x1A, 0x1B, 0x1C, 0x1D, 0x1E]

/-- The table of R252: `v` may be written to the register of number `r`. -/
abbrev legalWrite (sw : SlotWidth) (r v : Nat) : Prop :=
  (r = 0x04 ∧ v % 2 ^ 17 = v ∧ v / 2 ^ 5 % 2 ^ 3 = 0 ∧ v / 2 ^ 13 % 2 ^ 3 = 0 ∧ 1 ≤ v % 2 ^ 5 ∧ v % 2 ^ 5 ≤ 16 ∧
      v / 2 ^ 8 % 2 ^ 5 + v % 2 ^ 5 ≤ slotBits sw) ∨
    (r = 0x05 ∧ v < 2 ^ 4) ∨ (r ∈ [0x06, 0x08, 0x09, 0x0A, 0x0B, 0x0C] ∧ v < 2 ^ 16) ∨ (r = 0x0D ∧ 1 ≤ v ∧ v < 2 ^ 8)

/-- The conditions of R255 under which START is refused. -/
abbrev notStartable (s : State) : Prop :=
  s.waiting.opC ≠ none ∨ s.waiting.opM ≠ none ∨
    (s.cfg.convcfg.sgn = false ∧ s.cfg.pathcfg.calEn = false ∧ s.caldone = false) ∨
    (s.cfg.convcfg.sgn = false ∧ s.cfg.pathcfg.calEn = false ∧ maxCode s.cfg.convcfg < s.cfg.idle.toNat)

/-- The token an operation names (R93, R97). -/
def tokenOf : Instr → Option Token
  | .pubb _ _ t | .relf _ t | .fst _ t _ _ | .fld _ t _ | .caprd _ _ t | .fidle _ t | .mixf _ t => some t
  | .nop _ | .cfgr _ _ | .cfgw _ _ _ | .start _ | .acqf _ _ | .takb _ _ | .conv _ _ | .scale _ _ | .lpf _ _ => none
  | .gate _ _ | .oclr _ | .rpop _ _ | .sinkw _ _ | .old _ _ | .rpush _ _ _ | .sevt _ _ => none

/-- The index an operation names (R93). -/
def indexOf : Instr → Option (BitVec 12)
  | .fst _ _ i _ | .fld _ _ i | .old _ i => some i
  | .nop _ | .cfgr _ _ | .cfgw _ _ _ | .start _ | .acqf _ _ | .pubb _ _ _ | .takb _ _ | .relf _ _ => none
  | .caprd _ _ _ | .conv _ _ | .scale _ _ | .lpf _ _ | .gate _ _ | .fidle _ _ | .oclr _ | .rpop _ _ => none
  | .mixf _ _ | .sinkw _ _ | .rpush _ _ _ | .sevt _ _ => none

/-- Step 5: a token, an index, a register number, a value or a length is out of range (R280 rows 3 and 7). -/
def rangeFault (i : Instr) (s : State) : Option Cause :=
  match i with
  | .cfgr _ r => if r.toNat ∈ registerNumbers then none else some .range
  | .cfgw _ r v => if legalWrite s.params.slotW r.toNat v.toNat then none else some .range
  | .scale _ u => if u.toNat ≤ maxCode s.cfg.convcfg then none else some .range
  | .rpush _ len _ => if len.toNat = 0 ∨ len.toNat % 4 ≠ 0 then some .badlen else none
  | i =>
    if (∀ t, tokenOf i = some t → t.toNat < s.params.depth) ∧ (∀ k, indexOf i = some k → k.toNat < s.params.frameLen)
    then none
    else some .range

/-- Step 6: the token is not the agent's, or the agent holds one already (R280 rows 4 and 5). -/
def ownFault (i : Instr) (s : State) : Option Cause :=
  match i with
  | .acqf _ _ => if s.pool.chold = none then none else some .hold
  | .takb _ _ => if s.pool.mhold = none then none else some .hold
  | i => if ∀ t, tokenOf i = some t → s.pool.heldBy i.agent = some t then none else some .own

/-- Step 7: a slot that would be read is `undef`, or START is refused (R280 rows 6 and 8). -/
def contentFault (i : Instr) (s : State) : Option Cause :=
  match i with
  | .fld _ t k => if slotAt s t k.toNat = none then some .undef else none
  | .fidle _ t | .mixf _ t => if ∀ k < s.params.frameLen, slotAt s t k ≠ none then none else some .undef
  | .start _ => if notStartable s then some .cfg else none
  | _ => none

/-- The FAULT bit of a cause is its place in the table of R280. -/
def faultNumber (c : Cause) : Nat :=
  [Cause.illop, .agent, .phase, .range, .own, .hold, .undef, .badlen, .cfg, .calfail].idxOf c

/-- The fault of the first failing check of R284 from step 3 on; none when every check passes. -/
def firstFault (i : Instr) (s : State) : Option Cause :=
  if ¬(carries s.now.origin i.agent s.phase ∧ i.agent ∈ issuers i) then some .agent
  else if s.phase ∉ legalPhases i then some .phase
  else (rangeFault i s).or ((ownFault i s).or (contentFault i s))

/-! ### Waiting (R14) and completion (R283) -/

/-- The wait mode of an operation that can wait. -/
def waitModeOf : Instr → Option WaitMode
  | .acqf _ wm | .pubb _ wm _ | .takb _ wm | .caprd _ wm _ | .rpop _ wm | .sinkw _ wm => some wm
  | .nop _ | .cfgr _ _ | .cfgw _ _ _ | .start _ | .relf _ _ | .fst _ _ _ _ | .fld _ _ _ => none
  | .conv _ _ | .scale _ _ | .lpf _ _ | .gate _ _ | .fidle _ _ | .oclr _ | .mixf _ _ | .old _ _ => none
  | .rpush _ _ _ | .sevt _ _ => none

/-- The ready condition of an operation at this instant (R121 to R123, R150, R191, R200); one that cannot wait is always
ready. -/
def ready (i : Instr) (s : State) : Bool :=
  match i with
  | .acqf _ _ => s.pool.freeq ≠ []
  | .pubb _ _ _ => s.pool.busyq.length < s.params.depth
  | .takb _ _ => s.pool.busyq ≠ []
  | .caprd _ _ _ => s.now.source ≠ .nothing
  | .rpop _ _ => s.play ≠ .playing ∨ 0 < s.ring.rfill
  | .sinkw _ _ => s.now.sink ≠ .busy
  | _ => true

/-- The statuses in which an operation can end without a fault (R283), with what it was issued as and at which instant. -/
def endsIn (i : Instr) (s : State) : List Status :=
  match waitModeOf i, ready i s with
  | some .poll, false => [.wouldblock]
  | some .bounded, false => [.timeout]
  | some .unbounded, false => []
  | _, _ =>
    match i with
    | .caprd _ _ _ => if s.now.source = .error then [.error] else [.ok]
    | .rpop _ _ => if s.play = .playing then [.ok] else [.skip]
    | .sinkw _ _ => if s.now.sink = .error then [.error] else [.ok]
    | .rpush _ len _ => if len.toNat > s.params.ringCap - s.ring.rfill then [.dropped] else [.ok]
    | _ => [.ok]

/-! ### Registers as numbers (R30 to R44) -/

/-- One bit as a number. -/
def bitNat (b : Bool) : Nat := if b then 1 else 0

/-- The value of the register of number `r`, field by field. -/
def registerNat (s : State) (r : Nat) : Nat :=
  match r with
  | 0x00 => s.params.frameLen + 2 ^ 16 * s.params.depth + 2 ^ 24 * bitNat (s.params.slotW == .w32)
  | 0x01 => s.params.ringCap
  | 0x02 => s.params.srate.toNat
  | 0x04 => s.cfg.convcfg.nbits.toNat + 2 ^ 8 * s.cfg.convcfg.shift.toNat + 2 ^ 16 * bitNat s.cfg.convcfg.sgn
  | 0x05 =>
    bitNat s.cfg.pathcfg.firEn + 2 * bitNat s.cfg.pathcfg.gateEn + 4 * bitNat s.cfg.pathcfg.sat +
      8 * bitNat s.cfg.pathcfg.calEn
  | 0x06 => s.cfg.thresh.toNat
  | 0x08 => s.cfg.coef0.toNat
  | 0x09 => s.cfg.coef1.toNat
  | 0x0A => s.cfg.coef2.toNat
  | 0x0B => s.cfg.coef3.toNat
  | 0x0C => s.cfg.idle.toNat
  | 0x0D => s.cfg.calmax.toNat
  | 0x10 =>
    (match s.phase with | .setup => 0 | .boot => 1 | .run => 2 | .fatal => 3) +
      2 ^ 2 * (match s.play with | .idle => 0 | .paused => 1 | .playing => 2) + 2 ^ 4 * bitNat s.caldone +
      (match s.pool.chold with | none => 0 | some t => 2 ^ 5 + 2 ^ 6 * t.toNat) +
      (match s.pool.mhold with | none => 0 | some t => 2 ^ 10 + 2 ^ 11 * t.toNat) +
      2 ^ 16 * (match s.seq.cstep with | .acq => 0 | .read => 1 | .pub => 2 | .rel => 3) +
      2 ^ 20 * (match s.seq.mstep with | .clr => 0 | .pop => 1 | .take => 2 | .mix => 3 | .rel => 4 | .sink => 5) +
      2 ^ 24 * (match s.seq.bstep with | .off => 0 | .acq => 1 | .read => 2 | .avg => 3 | .rel => 4 | .failrel => 5)
  | 0x11 => s.fault.toNat
  | 0x12 => bitNat s.evt.capfail + 2 * bitNat s.evt.sinkmiss
  | 0x13 => s.pool.freeq.length + 2 ^ 8 * s.pool.busyq.length
  | 0x14 => s.ring.rfill + 2 ^ 16 * s.ring.rrd
  | 0x15 => s.filter.fidx.val
  | 0x16 =>
    ((List.range s.params.depth).map fun t =>
      4 ^ t * (match ownerOf s.pool (BitVec.ofNat 4 t) with | .free => 0 | .cap => 1 | .busy => 2 | .mix => 3)).sum
  | 0x17 => s.seq.calcnt.toNat
  | 0x18 => (s.filter.dl.get 0).toNat
  | 0x19 => (s.filter.dl.get 1).toNat
  | 0x1A => (s.filter.dl.get 2).toNat
  | 0x1B => (s.filter.dl.get 3).toNat
  | 0x1C => (s.filter.dl.get 4).toNat
  | 0x1D => (s.filter.dl.get 5).toNat
  | 0x1E => (s.filter.dl.get 6).toNat
  | _ => 0

/-- The registers' fields fit their widths (R8, R24, R25, R27). -/
abbrev fieldsFit (s : State) : Prop :=
  s.params.legal ∧ s.pool.freeq.length ≤ s.params.depth ∧ s.pool.busyq.length ≤ s.params.depth ∧
    s.ring.rfill ≤ s.params.ringCap ∧ s.ring.rrd < s.params.ringCap

/-! ### The opcode table (R97) -/

/-- `match` and `mask` of the 23 rows. -/
def opcodeRows : List (Word × Word) :=
  [(0x00000000, 0xFC7FFFFF), (0x04000000, 0xFC7FFF00), (0x08000000, 0xFC7FFF00), (0x0C000000, 0xFC7FFFFF),
    (0x20000000, 0xFC1FFFFF), (0x24000000, 0xFC10FFFF), (0x28000000, 0xFC1FFFFF), (0x2C000000, 0xFC70FFFF),
    (0x30000000, 0xFC70F000), (0x34000000, 0xFC70F000), (0x38000000, 0xFC10FFFF), (0x40000000, 0xFC7FFFFF),
    (0x44000000, 0xFC7F0000), (0x48000000, 0xFC7F0000), (0x4C000000, 0xFC7F0000), (0x50000000, 0xFC70FFFF),
    (0x60000000, 0xFC7FFFFF), (0x64000000, 0xFC1FFFFF), (0x68000000, 0xFC70FFFF), (0x6C000000, 0xFC1FFFFF),
    (0x70000000, 0xFC7FF000), (0x80000000, 0xFC7F0000), (0x84000000, 0xFC7FFFFC)]

/-! ### Functions named in statements -/

/-- The mic samples of a frame's slots in order, the filter running through them (R195, R236). -/
def micSamples (c : Cfg) (f : Filter) : List Slot → List Pcm
  | [] => []
  | x :: xs => (micPath c f x).1 :: micSamples c (micPath c f x).2 xs

/-- The outputs of `lpf` over an input sequence (R227). -/
def lpfOutputs (c : Cfg) (f : Filter) : List Pcm → List Pcm
  | [] => []
  | x :: xs => lpfOut c f x :: lpfOutputs c (lpfNext f x) xs

/-- The filter after an input sequence (R227). -/
def lpfAfter (f : Filter) : List Pcm → Filter
  | [] => f
  | x :: xs => lpfAfter (lpfNext f x) xs

/-- The sample that entered the filter `k` calls before the last one, `k` from 0 on (R227, R228 b). -/
def inputBefore (f : Filter) (k : Fin 7) : Pcm := f.dl.get (tapIndex f.fidx (k + 1))

/-- Every slot of frame `t` is defined. -/
abbrev frameDefined (s : State) (t : Token) : Prop := (frameSlots s t).isSome = true

/-- The slots of frame `t` are the list `xs`, all defined. -/
abbrev frameIs (s : State) (t : Token) (xs : List Slot) : Prop :=
  xs.length = s.params.frameLen ∧ ∀ i < s.params.frameLen, slotAt s t i = xs[i]?

/-- Two states that differ in the ring alone, with the same valid content (R27), indices in range. -/
abbrev ringAlike (s u : State) : Prop :=
  u = { s with ring := u.ring } ∧ u.ring.rfill = s.ring.rfill ∧ ringQ u = ringQ s ∧ s.ring.rrd < s.params.ringCap ∧
    u.ring.rrd < s.params.ringCap ∧ s.ring.rfill ≤ s.params.ringCap

/-- The turn that comes next (log 2) moves `m` and brings these answers of the environment; `u` is the state with that turn
taken off and the answers in place, its commands coming from `o`. -/
abbrev comes (s u : State) (m : Move) (o : Origin) : Prop :=
  (nextTurn s).1.move = m ∧
    u = { (nextTurn s).2 with now :=
      { origin := o, source := (nextTurn s).1.source, sink := (nextTurn s).1.sink, expire := (nextTurn s).1.expire } }

/-- A direct-mode command of an agent that has an operation outstanding, which stays on the host port (R13; log 9). -/
abbrev heldBack (s : State) (p : CmdPort) (i : Instr) : Prop :=
  p = .hp ∧ s.phase = .setup ∧ (s.waiting.of i.agent).isSome = true

/-- Commands that are all held back, so that a turn that serves the port passes them over (R293). -/
abbrev passedOver (s : State) (p : CmdPort) (hs : List Instr) : Prop :=
  ∀ h ∈ hs, h.wellFormed = true ∧ heldBack s p h

/-! ### The mic path (R236) -/

/-- What one slot `x` gives, stage by stage, with the filter `f` before it: `y` is the mic sample and `g` the filter after
it. `v0` converts (R221), `v1` scales in unsigned mode only (R225), `v2` filters where FIR_EN is set (R227), and the gate
acts where GATE_EN is set (R231). -/
def MicStages (c : Cfg) (f : Filter) (x : Slot) (y : Pcm) (g : Filter) : Prop :=
  let n := c.convcfg.nbits.toNat
  let field := x.toNat / 2 ^ c.convcfg.shift.toNat % 2 ^ n
  let idle : Int := c.idle.toNat
  let h0 := c.coef0.toInt
  let h1 := c.coef1.toInt
  let h2 := c.coef2.toInt
  let h3 := c.coef3.toInt
  let past := fun k : Fin 7 => (inputBefore f k).toInt
  ∃ v0 v1 v2 : Int,
    (v0 = if c.convcfg.sgn = true ∧ 2 ^ (n - 1) ≤ field then (field : Int) - 2 ^ n else field) ∧
    (v1 =
      if c.convcfg.sgn = true then v0
      else if v0 = idle then 0
      else if v0 > idle then (v0 - idle) * 32767 / (2 ^ n - 1 - idle)
      else -((idle - v0) * 32768 / idle)) ∧
    (v2 =
      if c.pathcfg.firEn = true then
        ((h0 * v1 + h1 * past 0 + h2 * past 1 + h3 * past 2 + h2 * past 3 + h1 * past 4 + h0 * past 5) / 32768 + 32768) %
            65536 - 32768
      else v1) ∧
    (y.toInt = if c.pathcfg.gateEn = true ∧ |v2| < (c.thresh.toNat : Int) then 0 else v2) ∧
    if c.pathcfg.firEn = true then
      (inputBefore g 0).toInt = v1 ∧ (∀ k : Fin 6, inputBefore g k.succ = inputBefore f k.castSucc) ∧
        g.fidx.val = (f.fidx.val + 1) % 7
    else g = f

/-! ### Sequencers (R156, R207, R256) -/

/-- A sequencer's move carries out `i`: it is issued now, nothing being outstanding (`op`), or it is the outstanding
operation, which is looked at again in the state `u` with its checks still passing (R14, R284). -/
abbrev carriedOut (op : Option Instr) (i : Instr) (u : State) : Prop :=
  op = none ∨ (op = some i ∧ (waitModeOf i).isSome = true ∧ firstFault i u = none)

/-- The next step of the capture sequencer, and whether EVT.CAPFAIL is set (R156). -/
def captureRow : CStep → Status → Option (CStep × Bool)
  | .acq, .ok => some (.read, false)
  | .acq, .timeout => some (.acq, false)
  | .read, .ok => some (.pub, false)
  | .read, .timeout | .read, .error => some (.rel, true)
  | .pub, .ok => some (.acq, false)
  | .pub, .timeout => some (.rel, false)
  | .rel, .ok => some (.acq, false)
  | _, _ => none

/-- The next step of the mixer sequencer, and whether EVT.SINKMISS is set (R207). -/
def mixerRow : MStep → Status → Option (MStep × Bool)
  | .clr, .ok => some (.pop, false)
  | .pop, .ok | .pop, .skip | .pop, .timeout => some (.take, false)
  | .take, .ok => some (.mix, false)
  | .take, .timeout => some (.sink, false)
  | .mix, .ok | .mix, .fault => some (.rel, false)
  | .rel, .ok => some (.sink, false)
  | .sink, .ok => some (.clr, false)
  | .sink, .timeout | .sink, .error => some (.clr, true)
  | _, _ => none

/-! ### Invariants -/

/-- How often token `t` stands in a place (R26). -/
def placeCount (pl : Pool) (t : Token) : Owner → Nat
  | .free => pl.freeq.count t
  | .cap => if pl.chold = some t then 1 else 0
  | .busy => pl.busyq.count t
  | .mix => if pl.mhold = some t then 1 else 0

/-- The pool invariant (R26): every token of the pool is in exactly one place, the one OWN names, once; and nothing else
is in any place. -/
abbrev PoolOk (s : State) : Prop :=
  (∀ t : Token, t.toNat < s.params.depth →
    ∀ o ∈ [Owner.free, .cap, .busy, .mix], placeCount s.pool t o = if ownerOf s.pool t = o then 1 else 0) ∧
  (∀ t : Token, s.params.depth ≤ t.toNat → ∀ o ∈ [Owner.free, .cap, .busy, .mix], placeCount s.pool t o = 0)

/-- The ring's indices (R27), and every byte of the valid window is one that something has written (R321). -/
abbrev RingOk (s : State) : Prop :=
  s.ring.rrd < s.params.ringCap ∧ s.ring.rfill ≤ s.params.ringCap ∧ s.ring.rfill % 4 = 0 ∧
    ∀ j < s.ring.rfill, (Memory.read s.ring.rb ((s.ring.rrd + j) % s.params.ringCap)).isSome = true

/-- The configuration registers hold legal values (R31, R36). -/
abbrev CfgOk (s : State) : Prop := convcfgLegal s.params.slotW s.cfg.convcfg ∧ 1 ≤ s.cfg.calmax.toNat

/-- Agent C's outstanding operation is one that waits, of agent C, and passed its checks (R14, R284). -/
def waitingOkC (s : State) : Prop :=
  match s.waiting.opC with
  | none => True
  | some (.acqf .C _) => s.pool.chold = none
  | some (.pubb .C _ t) => s.pool.chold = some t
  | some (.caprd .C _ t) => s.pool.chold = some t
  | some _ => False

/-- The same for agent M. -/
def waitingOkM (s : State) : Prop :=
  match s.waiting.opM with
  | none => True
  | some (.takb .M _) => s.pool.mhold = none
  | some (.rpop .M _) => True
  | some (.sinkw .M _) => True
  | some _ => False

/-- The outstanding operations, if any, are the commands of the sequencers' steps outside SETUP (R156, R207, R256). -/
def waitingOkSeq (s : State) : Prop :=
  match s.phase with
  | .setup => True
  | .boot => s.waiting.opM = none ∧ (s.waiting.opC = none ∨ s.waiting.opC = bootCommand s)
  | .run => (s.waiting.opC = none ∨ s.waiting.opC = captureCommand s) ∧
      (s.waiting.opM = none ∨ s.waiting.opM = mixerCommand s)
  | .fatal => s.waiting.opC = none ∧ s.waiting.opM = none

/-- What the sequencers' steps say of the holds and of the frames on their way (R157, R208, R256, R257). -/
def StepsOk (s : State) : Prop :=
  match s.phase with
  | .setup => s.seq.bstep = .off ∧ s.seq.cstep = .acq ∧ s.seq.mstep = .clr
  | .boot =>
    s.seq.bstep ≠ .off ∧ s.seq.cstep = .acq ∧ s.seq.mstep = .clr ∧ s.pool.mhold = none ∧ s.pool.busyq = [] ∧
      (s.pool.chold = none ↔ s.seq.bstep = .acq) ∧
      (s.seq.bstep = .avg → ∃ t, s.pool.chold = some t ∧ frameDefined s t) ∧
      (s.seq.bstep = .failrel → s.seq.calcnt.toNat = s.cfg.calmax.toNat) ∧
      (s.seq.bstep ≠ .failrel → s.seq.calcnt.toNat < s.cfg.calmax.toNat)
  | .run =>
    s.seq.bstep = .off ∧ (s.pool.chold = none ↔ s.seq.cstep = .acq) ∧
      (s.pool.mhold ≠ none ↔ s.seq.mstep = .mix ∨ s.seq.mstep = .rel) ∧
      (∀ t ∈ s.pool.busyq, frameDefined s t) ∧
      (s.seq.cstep = .pub → ∃ t, s.pool.chold = some t ∧ frameDefined s t) ∧
      (s.seq.mstep = .mix → ∃ t, s.pool.mhold = some t ∧ frameDefined s t)
  | .fatal => s.seq.bstep = .off ∧ s.pool.chold = none ∧ s.pool.mhold = none ∧ s.pool.busyq = []

/-- No sequencer has stopped (R157, R208, R256). -/
abbrev RunningOk (s : State) : Prop :=
  s.seq.bstopped = false ∧ s.seq.cstopped = false ∧ s.seq.mstopped = false

/-- The unsigned path is calibrated once the sequencers run (R255, R323). -/
abbrev CalibratedOk (s : State) : Prop :=
  s.phase = .run → s.cfg.convcfg.sgn = false → s.caldone = true ∧ s.cfg.idle.toNat ≤ maxCode s.cfg.convcfg

/-- In BOOT calibration is enabled (R253); from B_REL on IDLE holds an average of codes (R233, R256). -/
abbrev BootOk (s : State) : Prop :=
  s.phase = .boot → s.seq.bstep = .rel →
    s.caldone = true ∧ (s.cfg.convcfg.sgn = false → s.cfg.idle.toNat ≤ maxCode s.cfg.convcfg)

/-- What holds of every state the block reaches. -/
structure Inv (s : State) : Prop where
  params : s.params.legal
  memory : Memory.wf s
  pool : PoolOk s
  ring : RingOk s
  cfg : CfgOk s
  waitC : waitingOkC s
  waitM : waitingOkM s
  waitSeq : waitingOkSeq s
  steps : StepsOk s
  running : RunningOk s
  calibrated : CalibratedOk s
  boot : BootOk s

end Sys2Proof.Safety
end

