-- ==== Sys2Proof/Certificates/Slice0/Obligations.lean ====
section
/-! DEFINITION. The statements about KAFP, from the numbered rules of spec/. `responds s t ag st v` says that `t` has one
response more than `s`; `keeps ps s t` that no part but `ps` differs; `mayIssue i s` that the checks of port, agent and
phase pass (R293, R294). -/

section

open Sys2Proof Sys2Proof.Machine Sys2Proof.Safety

/-! ### Encoding and the step -/

/-- R90, R91, R97: the words of a command, with any words after them, decode to the command. -/
def Obligations.EncodedCommandsDecodeToThemselves : Prop :=
  ∀ (i : Instr) (rest : List Word), i.wellFormed = true → fetch (encode i ++ rest) = .command i rest

/-- R91, R97, R98: a command taken from a port is well formed, and its words are exactly those its encoding has. -/
def Obligations.DecodedCommandsEncodeToTheirWords : Prop :=
  ∀ (ws : List Word) (i : Instr) (rest : List Word),
    fetch ws = .command i rest → i.wellFormed = true ∧ encode i ++ rest = ws

/-- R97, R98: a command word is legal exactly when it is an instance of one of the 23 rows, AG is no reserved code and WM
is not 3. -/
def Obligations.LegalWordsAreTheRowsOfTheTable : Prop :=
  ∀ (w : Word) (extra : List Word),
    (∃ i, decode w extra = .ok i) ↔
      (∃ row ∈ opcodeRows, w &&& row.2 = row.1) ∧ (w.extractLsb' 23 3).toNat < 5 ∧ w.extractLsb' 21 2 ≠ 3

/-- R101: the words of its table decode to the commands it writes beside them. -/
def Obligations.WordsOfTheExamplesDecode : Prop :=
  fetch [0x00000000] = .command (.nop .H) [] ∧
    fetch [0x04000010] = .command (.cfgr .H 0x10) [] ∧
    fetch [0x08000006, 0x000001F4] = .command (.cfgw .H 0x06 500) [] ∧
    fetch [0x20C00000] = .command (.acqf .C .unbounded) [] ∧
    fetch [0x30800005, 0x00000ABC] = .command (.fst .C 0 5 0x0ABC) [] ∧
    fetch [0x350300FF] = .command (.fld .M 3 255) [] ∧
    fetch [0x38A00000] = .command (.caprd .C .bounded 0) [] ∧
    fetch [0x4900FC18] = .command (.lpf .M (BitVec.ofInt 16 (-1000))) [] ∧
    fetch [0x69030000] = .command (.mixf .M 3) [] ∧
    fetch [0x81800008, 0x00020001, 0x00040003] = .command (.rpush .R 8 [0x00020001, 0x00040003]) [] ∧
    fetch [0x86000002] = .command (.sevt .S .playing) []

/-- R98, R99, R281: an illegal command is taken off its port with the words its opcode calls for, sets F_ILLOP, is
answered (FAULT, 1), and changes nothing else. The AG bits of the response are the model's choice (log 20), and so is that
the commands `hs` before it, whose agents have an operation outstanding, are passed over and stay (log 9). -/
def Obligations.IllegalCommandFaultsAndIsConsumed : Prop :=
  ∀ (s : State) (p : CmdPort) (hs : List Instr) (w : Word) (ws : List Word) (e : Illegal),
    (nextTurn s).1.move = .serve p → passedOver s p hs → s.ports.of p = hs.flatMap encode ++ w :: ws →
    commandLength w - 1 ≤ ws.length → decode w (ws.take (commandLength w - 1)) = .error e →
    ∃ t, step s = .next t ∧ t.fault = s.fault ||| 1 ∧
      t.log.responses = s.log.responses ++ [⟨.port p, w.extractLsb' 23 3, .fault, 1⟩] ∧
      t.ports = s.ports.set p (hs.flatMap encode ++ ws.drop (commandLength w - 1)) ∧ t.params = s.params ∧
      ∀ q, q ≠ .fault → agreeOn q s t

/-- R13, R90, R100, R293: when a port is served, the step is its first command that is not held back, carried out, with its
words taken, from that port, in the environment of this instant; a waiting operation of one agent does not hold back the
commands of another. That the held commands `hs` before it stay on the port is the model's choice (log 9). -/
def Obligations.ServedCommandIsExecuted : Prop :=
  ∀ (s u : State) (p : CmdPort) (hs : List Instr) (ws : List Word) (i : Instr) (rest : List Word),
    comes s u (.serve p) (.port p) → passedOver s p hs → s.ports.of p = hs.flatMap encode ++ ws →
    fetch ws = .command i rest → ¬heldBack s p i →
    step s = exec i { u with ports := s.ports.set p (hs.flatMap encode ++ rest) }

/-- R90: a turn that presents a word puts it last on its port and changes nothing else; a turn that serves a port changes
nothing while the words of a command are not all there. The commands `hs` before these words, whose agents have an
operation outstanding, stay on the port as the model's choice (log 9); that presenting and serving are turns of their own is
log 2. -/
def Obligations.WordsStayOnTheirPortUntilServed : Prop :=
  (∀ (s u : State) (p : CmdPort) (w : Word), comes s u (.present p w) s.now.origin →
    step s = .next { u with ports := s.ports.set p (s.ports.of p ++ [w]) }) ∧
  ∀ (s u : State) (p : CmdPort) (hs : List Instr) (ws : List Word), comes s u (.serve p) s.now.origin →
    passedOver s p hs → s.ports.of p = hs.flatMap encode ++ ws → fetch ws = .incomplete → step s = .next u

/-- R339: every command in every state has an outcome, and the outcome is a next state. -/
def Obligations.EveryCommandAnswersANextState : Prop :=
  ∀ (i : Instr) (s : State), i.wellFormed = true → ∃ t, exec i s = .next t

/-- R281, R286, R339: no step stops the machine. -/
def Obligations.EveryStepAnswersANextState : Prop :=
  ∀ s : State, ∃ t, step s = .next t

/-! ### Checks, faults, waiting -/

/-- R280, R284, R293, R294: a command some check of which fails raises the fault of the first failing check, sets its bit,
is answered with its mask, and changes nothing else. -/
def Obligations.FirstFailingCheckRaisesItsFault : Prop :=
  ∀ (i : Instr) (s : State) (c : Cause), i.wellFormed = true → firstFault i s = some c →
    ∃ t, exec i s = .next t ∧ t.fault = s.fault ||| BitVec.ofNat 10 (2 ^ faultNumber c) ∧
      responds s t i.agent .fault (BitVec.ofNat 32 (2 ^ faultNumber c)) ∧ keeps [.fault] s t

/-- R281: a command that is answered FAULT has set one bit of FAULT, named by the response, and has changed nothing
else. -/
def Obligations.FaultedCommandChangesOnlyItsBit : Prop :=
  ∀ (i : Instr) (s t : State) (v : Word), exec i s = .next t → responds s t i.agent .fault v →
    ∃ c, v = BitVec.ofNat 32 (2 ^ faultNumber c) ∧ t.fault = s.fault ||| BitVec.ofNat 10 (2 ^ faultNumber c) ∧
      keeps [.fault] s t

/-- R13, R14, R48, R96, R283: a command that passes every check sets no FAULT bit, and either gives exactly one response, in a
status that R283 lists for it, with nothing changed if it is not OK (CAPRD apart), or becomes outstanding and changes
nothing else, the outstanding operation of the other agent neither (R293). -/
def Obligations.PassedCommandAnswersOnceOrWaits : Prop :=
  ∀ (i : Instr) (s t : State), firstFault i s = none → exec i s = .next t →
    t.fault = s.fault ∧
      ((∃ st ∈ endsIn i s, ∃ v, responds s t i.agent st v ∧ t.waiting = s.waiting ∧
          (st ≠ .ok → v = 0 ∧ keeps (match i with | .caprd _ _ _ => [.fm] | _ => []) s t)) ∨
        (ready i s = false ∧ waitModeOf i ≠ some .poll ∧ (waitModeOf i = some .bounded → s.now.expire = false) ∧
          becomesOutstanding i s t))

/-- R13, R14, R48: an operation whose checks pass and that is not ready: TRY answers WOULDBLOCK; BOUNDED answers TIMEOUT at an
instant of expiry, a CAPRD marking its frame `undef`; else it stays outstanding, the outstanding operation of the
other agent as before (R293). -/
def Obligations.UnreadyOperationFollowsItsWaitMode : Prop :=
  ∀ (i : Instr) (s : State) (wm : WaitMode),
    firstFault i s = none → waitModeOf i = some wm → ready i s = false →
    ∃ t, exec i s = .next t ∧
      if wm = .poll then responds s t i.agent .wouldblock 0 ∧ keeps [] s t
      else if wm = .bounded ∧ s.now.expire = true then
        responds s t i.agent .timeout 0 ∧
          match i with
          | .caprd _ _ tok => keeps [.fm] s t ∧ (Memory.sorted s.fm → ∀ k < s.params.frameLen, slotAt t tok k = none) ∧
              ∀ a, (a < slotAddr s tok 0 ∨ slotAddr s tok s.params.frameLen ≤ a) →
                Memory.read t.fm a = Memory.read s.fm a
          | _ => keeps [] s t
      else becomesOutstanding i s t

/-- R14, R295, R338: a direct-mode operation of agent C or M that is outstanding does, at an instant at which it is looked at
again and would pass its checks, what the same operation does when it is issued at that instant. When it is looked at is
the model's turn (log 2, log 11). -/
def Obligations.OutstandingOperationCompletesAsIfIssued : Prop :=
  ∀ (s u : State) (i : Instr) (ag : Agent) (m : Move), (ag, m) ∈ [(Agent.C, Move.resumeC), (Agent.M, Move.resumeM)] →
    comes s u m (.port .hp) → s.phase = .setup → s.waiting.of ag = some i → (waitModeOf i).isSome = true →
    i.agent = ag → firstFault i (u.withWaiting ag none) = none → step s = exec i (u.withWaiting ag none)

/-- R71, R131, R281, R296: what a command may write. Every part of the state that `mayWrite` does not name for it, and the
parameters, are as before, whether it succeeds, faults, or waits. -/
def Obligations.CommandWritesOnlyItsParts : Prop :=
  ∀ (i : Instr) (s t : State), exec i s = .next t → keeps (mayWrite i) s t

/-! ### Host operations -/

/-- R250. -/
def Obligations.NopChangesNothing : Prop :=
  ∀ (ag : Agent) (s : State), mayIssue (.nop ag) s →
    ∃ t, exec (.nop ag) s = .next t ∧ responds s t ag .ok 0 ∧ keeps [] s t

/-- R30 to R45, R71, R251: CFGR of every register's number answers its fields, each at its place, and changes nothing. -/
def Obligations.CfgrReadsEveryRegister : Prop :=
  ∀ (ag : Agent) (r : BitVec 8) (s : State),
    mayIssue (.cfgr ag r) s → r.toNat ∈ registerNumbers → fieldsFit s →
    ∃ t v, exec (.cfgr ag r) s = .next t ∧ responds s t ag .ok v ∧ v.toNat = registerNat s r.toNat ∧ keeps [] s t

/-- R252: CFGW of a legal value makes the register read as that value and every other register but STATUS as before; a
write of IDLE sets CALDONE. -/
def Obligations.CfgwWritesOneRegister : Prop :=
  ∀ (ag : Agent) (r : BitVec 8) (v : Word) (s : State),
    mayIssue (.cfgw ag r v) s → legalWrite s.params.slotW r.toNat v.toNat →
    ∃ t, exec (.cfgw ag r v) s = .next t ∧ responds s t ag .ok 0 ∧ keeps [.cfg, .caldone] s t ∧
      registerNat t r.toNat = v.toNat ∧
      (∀ n, n ≠ r.toNat → n ≠ 0x10 → registerNat t n = registerNat s n) ∧
      t.caldone = (s.caldone || r == 0x0C)

/-- R254 (with R253's phases and response): what START re-initialises and what it does not touch. -/
def Obligations.StartSeedsThePool : Prop :=
  ∀ (ag : Agent) (s : State), mayIssue (.start ag) s → ¬ notStartable s →
    ∃ t, exec (.start ag) s = .next t ∧ t.phase = (if s.cfg.pathcfg.calEn then .boot else .run) ∧
      responds s t ag .ok (if s.cfg.pathcfg.calEn then 1 else 2) ∧
      keeps [.pool, .out, .filter, .seq, .phase] s t ∧
      (∀ k, ownerOf t.pool k = .free) ∧ t.pool.chold = none ∧ t.pool.mhold = none ∧ t.pool.busyq = [] ∧
      t.pool.freeq.length = s.params.depth ∧
      (∀ k < s.params.depth, t.pool.freeq[k]? = some (BitVec.ofNat 4 k)) ∧
      (∀ k, pairAt t.out k = ⟨0, 0⟩) ∧ (∀ k, t.filter.dl.get k = 0) ∧ t.filter.fidx = 0 ∧
      t.seq.bstep = (if s.cfg.pathcfg.calEn then .acq else .off) ∧ t.seq.cstep = .acq ∧ t.seq.mstep = .clr ∧
      t.seq.calcnt = 0

/-! ### Pool -/

/-- R121. -/
def Obligations.AcqfTakesTheHeadOfTheFreeQueue : Prop :=
  ∀ (ag : Agent) (wm : WaitMode) (s : State) (t : Token) (q : List Token),
    mayIssue (.acqf ag wm) s → Memory.sorted s.pool.own → s.pool.chold = none → s.pool.freeq = t :: q →
    ∃ u, exec (.acqf ag wm) s = .next u ∧ responds s u ag .ok (t.setWidth 32) ∧ keeps [.pool] s u ∧
      u.pool.freeq = q ∧ u.pool.chold = some t ∧ u.pool.mhold = s.pool.mhold ∧ u.pool.busyq = s.pool.busyq ∧
      ∀ k, ownerOf u.pool k = if k = t then .cap else ownerOf s.pool k

/-- R122. -/
def Obligations.PubbAppendsToTheBusyQueue : Prop :=
  ∀ (ag : Agent) (wm : WaitMode) (t : Token) (s : State),
    mayIssue (.pubb ag wm t) s → Memory.sorted s.pool.own → t.toNat < s.params.depth → s.pool.chold = some t →
    s.pool.busyq.length < s.params.depth →
    ∃ u, exec (.pubb ag wm t) s = .next u ∧ responds s u ag .ok 0 ∧ keeps [.pool] s u ∧
      u.pool.busyq = s.pool.busyq ++ [t] ∧ u.pool.chold = none ∧ u.pool.mhold = s.pool.mhold ∧
      u.pool.freeq = s.pool.freeq ∧ ∀ k, ownerOf u.pool k = if k = t then .busy else ownerOf s.pool k

/-- R123, R75: frames are taken in the order they were published. -/
def Obligations.TakbTakesTheOldestBusyFrame : Prop :=
  ∀ (ag : Agent) (wm : WaitMode) (s : State) (t : Token) (q : List Token),
    mayIssue (.takb ag wm) s → Memory.sorted s.pool.own → s.pool.mhold = none → s.pool.busyq = t :: q →
    ∃ u, exec (.takb ag wm) s = .next u ∧ responds s u ag .ok (t.setWidth 32) ∧ keeps [.pool] s u ∧
      u.pool.busyq = q ∧ u.pool.mhold = some t ∧ u.pool.chold = s.pool.chold ∧ u.pool.freeq = s.pool.freeq ∧
      ∀ k, ownerOf u.pool k = if k = t then .mix else ownerOf s.pool k

/-- R124: agent C gives up its hold, agent M its own, never the other's. -/
def Obligations.RelfReturnsTheFrame : Prop :=
  ∀ (ag : Agent) (t : Token) (s : State),
    mayIssue (.relf ag t) s → Memory.sorted s.pool.own → t.toNat < s.params.depth → s.pool.heldBy ag = some t →
    ∃ u, exec (.relf ag t) s = .next u ∧ responds s u ag .ok 0 ∧ keeps [.pool] s u ∧
      u.pool.freeq = s.pool.freeq ++ [t] ∧ u.pool.busyq = s.pool.busyq ∧
      u.pool.chold = (if ag = .C then none else s.pool.chold) ∧
      u.pool.mhold = (if ag = .C then s.pool.mhold else none) ∧
      ∀ k, ownerOf u.pool k = if k = t then .free else ownerOf s.pool k

/-- R94, R125: FST writes the low SLOT_W bits of its operand word to one slot; every other slot of every frame, and every
other address of frame memory, reads as before. -/
def Obligations.FstStoresOneSlot : Prop :=
  ∀ (ag : Agent) (t : Token) (i : BitVec 12) (v : Word) (s : State),
    mayIssue (.fst ag t i v) s → Memory.sorted s.fm → t.toNat < s.params.depth → i.toNat < s.params.frameLen →
    s.pool.heldBy ag = some t →
    ∃ u, exec (.fst ag t i v) s = .next u ∧ responds s u ag .ok 0 ∧ keeps [.fm] s u ∧
      slotAt u t i.toNat =
        some (BitVec.ofNat 32 (match s.params.slotW with | .w16 => v.toNat % 65536 | .w32 => v.toNat)) ∧
      (∀ k j, j < s.params.frameLen → (k, j) ≠ (t, i.toNat) → slotAt u k j = slotAt s k j) ∧
      ∀ a, a ≠ slotAddr s t i.toNat → Memory.read u.fm a = Memory.read s.fm a

/-- R71, R126. -/
def Obligations.FldReadsOneSlot : Prop :=
  ∀ (ag : Agent) (t : Token) (i : BitVec 12) (v : Slot) (s : State),
    mayIssue (.fld ag t i) s → t.toNat < s.params.depth → i.toNat < s.params.frameLen → s.pool.heldBy ag = some t →
    slotAt s t i.toNat = some v →
    ∃ u, exec (.fld ag t i) s = .next u ∧ responds s u ag .ok v ∧ keeps [] s u

/-! ### Capture -/

/-- R150, R300: a frame that the source presents fills the owned frame; no other frame changes. -/
def Obligations.CaprdFillsTheOwnedFrame : Prop :=
  ∀ (ag : Agent) (wm : WaitMode) (t : Token) (d : List Slot) (s : State),
    mayIssue (.caprd ag wm t) s → Memory.sorted s.fm → t.toNat < s.params.depth → s.pool.heldBy ag = some t →
    s.now.source = .frame d → d.length = s.params.frameLen → (∀ x ∈ d, x.toNat < 2 ^ slotBits s.params.slotW) →
    ∃ u, exec (.caprd ag wm t) s = .next u ∧ responds s u ag .ok (BitVec.ofNat 32 s.params.frameLen) ∧
      keeps [.fm] s u ∧ u.now.source = .nothing ∧ (∀ i < s.params.frameLen, slotAt u t i = d[i]?) ∧
      (∀ k j, j < s.params.frameLen → k ≠ t → slotAt u k j = slotAt s k j) ∧
      ∀ a, (a < slotAddr s t 0 ∨ slotAddr s t s.params.frameLen ≤ a) → Memory.read u.fm a = Memory.read s.fm a

/-- R150, R283: a read error leaves every slot of the owned frame `undef`; no other frame changes. -/
def Obligations.CaprdErrorLeavesTheFrameUndefined : Prop :=
  ∀ (ag : Agent) (wm : WaitMode) (t : Token) (s : State),
    mayIssue (.caprd ag wm t) s → Memory.sorted s.fm → t.toNat < s.params.depth → s.pool.heldBy ag = some t →
    s.now.source = .error →
    ∃ u, exec (.caprd ag wm t) s = .next u ∧ responds s u ag .error 0 ∧ keeps [.fm] s u ∧
      u.now.source = .nothing ∧ (∀ i < s.params.frameLen, slotAt u t i = none) ∧
      (∀ k j, j < s.params.frameLen → k ≠ t → slotAt u k j = slotAt s k j) ∧
      ∀ a, (a < slotAddr s t 0 ∨ slotAddr s t s.params.frameLen ≤ a) → Memory.read u.fm a = Memory.read s.fm a

/-! ### DSP -/

/-- R94, R220, R221: the field of NBITS bits at SHIFT, zero-extended when SGN is 0 and sign-extended when it is 1. -/
def Obligations.ConvExtractsTheSampleField : Prop :=
  ∀ (ag : Agent) (v : Word) (s : State), mayIssue (.conv ag v) s → CfgOk s →
    ∃ t y, exec (.conv ag v) s = .next t ∧ responds s t ag .ok y ∧ keeps [] s t ∧
      let n := s.cfg.convcfg.nbits.toNat
      let f := v.toNat % 2 ^ slotBits s.params.slotW / 2 ^ s.cfg.convcfg.shift.toNat % 2 ^ n
      y.toNat < 2 ^ 16 ∧
        if s.cfg.convcfg.sgn = true then
          (y.setWidth 16).toInt = if f < 2 ^ (n - 1) then (f : Int) else (f : Int) - 2 ^ n
        else y.toNat = f

/-- R225: the three cases, the anchor points, and that the result is always a PCM sample. -/
def Obligations.ScaleIsPiecewiseLinearAboutIdle : Prop :=
  ∀ (ag : Agent) (u : BitVec 16) (s : State),
    mayIssue (.scale ag u) s → u.toNat ≤ maxCode s.cfg.convcfg →
    ∃ t y, exec (.scale ag u) s = .next t ∧ responds s t ag .ok y ∧ keeps [] s t ∧
      let idle : Int := s.cfg.idle.toNat
      let code : Int := u.toNat
      let top : Int := maxCode s.cfg.convcfg
      y.toNat < 2 ^ 16 ∧
        ((y.setWidth 16).toInt =
          if code = idle then 0
          else if code > idle then (code - idle) * 32767 / (top - idle)
          else -((idle - code) * 32768 / idle)) ∧
        (code < idle → code = 0 → (y.setWidth 16).toInt = -32768) ∧
        (code > idle → code = top → (y.setWidth 16).toInt = 32767)

/-- R226, R227, R34: the output is the dot product of the taps with the last seven inputs, shifted right by 15 with the
floor and cut to 16 bits; the filter holds `x` as its newest input and the earlier ones one call older. -/
def Obligations.LpfIsTheDotProductOfTheLastInputs : Prop :=
  ∀ (ag : Agent) (x : Pcm) (s : State), mayIssue (.lpf ag x) s →
    ∃ t, exec (.lpf ag x) s = .next t ∧ keeps [.filter] s t ∧
      (let h0 := s.cfg.coef0.toInt
       let h1 := s.cfg.coef1.toInt
       let h2 := s.cfg.coef2.toInt
       let h3 := s.cfg.coef3.toInt
       let past := fun k : Fin 7 => (inputBefore s.filter k).toInt
       responds s t ag .ok
        ((BitVec.ofInt 16
          ((h0 * x.toInt + h1 * past 0 + h2 * past 1 + h3 * past 2 + h2 * past 3 + h1 * past 4 + h0 * past 5) /
            32768)).setWidth 32)) ∧
      inputBefore t.filter 0 = x ∧
      (∀ k : Fin 6, inputBefore t.filter k.succ = inputBefore s.filter k.castSucc) ∧
      t.filter.fidx.val = (s.filter.fidx.val + 1) % 7 ∧ t.filter.dl.get s.filter.fidx = x ∧
      ∀ k, k ≠ s.filter.fidx → t.filter.dl.get k = s.filter.dl.get k

/-- R231: the gate, strict at the threshold. -/
def Obligations.GateZeroesSmallSamples : Prop :=
  ∀ (ag : Agent) (x : Pcm) (s : State), mayIssue (.gate ag x) s →
    ∃ t y, exec (.gate ag x) s = .next t ∧ responds s t ag .ok y ∧ keeps [] s t ∧ y.toNat < 2 ^ 16 ∧
      ((y.setWidth 16).toInt = if |x.toInt| < (s.cfg.thresh.toNat : Int) then 0 else x.toInt) ∧
      (s.cfg.thresh = 0 → y.setWidth 16 = x) ∧ (32768 < s.cfg.thresh.toNat → y = 0) ∧
      (x = BitVec.ofInt 16 (-32768) → s.cfg.thresh.toNat ≤ 32768 → y.setWidth 16 = x)

/-- R232, R233, R35: IDLE takes the average of the frame's converted samples, truncated toward zero, and CALDONE is
set. -/
def Obligations.FidleStoresTheFrameAverage : Prop :=
  ∀ (ag : Agent) (t : Token) (xs : List Slot) (s : State),
    mayIssue (.fidle ag t) s → t.toNat < s.params.depth → s.pool.heldBy ag = some t → frameIs s t xs →
    ∃ u, exec (.fidle ag t) s = .next u ∧ keeps [.cfg, .caldone] s u ∧ u.caldone = true ∧
      (let a := ((xs.map (convSlot s.cfg.convcfg)).sum).tdiv s.params.frameLen
       u.cfg = { s.cfg with idle := BitVec.ofInt 16 a } ∧
        responds s u ag .ok ((BitVec.ofInt 16 a).setWidth 32))

/-- R233, R224, R225: the round trip of the source. A frame every slot of which converts to the code `v` calibrates IDLE to
`v`, and SCALE of `v` then answers 0. -/
def Obligations.CalibratedCodeScalesToZero : Prop :=
  ∀ (ag ag' : Agent) (t : Token) (xs : List Slot) (v : BitVec 16) (s : State),
    mayIssue (.fidle ag t) s → t.toNat < s.params.depth → s.pool.heldBy ag = some t → frameIs s t xs →
    1 ≤ s.params.frameLen → s.cfg.convcfg.sgn = false → v.toNat ≤ maxCode s.cfg.convcfg →
    (∀ x ∈ xs, convSlot s.cfg.convcfg x = v.toNat) → mayIssue (.scale ag' v) s →
    ∃ u w, exec (.fidle ag t) s = .next u ∧ u.cfg.idle = v ∧ exec (.scale ag' v) u = .next w ∧ responds u w ag' .ok 0

/-- R228 (e): the seventh output of a constant input is the sum of the taps times it, and that input itself when the sum is
32768. -/
def Obligations.ConstantInputSettles : Prop :=
  ∀ (c : Cfg) (f : Machine.Filter) (x : Pcm),
    let sum := 2 * c.coef0.toInt + 2 * c.coef1.toInt + 2 * c.coef2.toInt + c.coef3.toInt
    lpfOut c (lpfAfter f (List.replicate 6 x)) x = BitVec.ofInt 16 (sum * x.toInt / 32768) ∧
      (sum = 32768 → lpfOut c (lpfAfter f (List.replicate 6 x)) x = x)

/-- R228 (b): two filter states that hold the same last seven inputs, at whatever rotation, give the same outputs for
ever. -/
def Obligations.FilterRotationIsInvisible : Prop :=
  ∀ (c : Cfg) (f g : Machine.Filter) (xs : List Pcm),
    (∀ k : Fin 7, inputBefore f k = inputBefore g k) → lpfOutputs c f xs = lpfOutputs c g xs

/-- R228 (f): with non-negative taps whose sum is at most 32768 the output is not wrapped. -/
def Obligations.NonNegativeTapsNeverWrap : Prop :=
  ∀ (c : Cfg) (f : Machine.Filter) (x : Pcm),
    0 ≤ c.coef0.toInt → 0 ≤ c.coef1.toInt → 0 ≤ c.coef2.toInt → 0 ≤ c.coef3.toInt →
    2 * c.coef0.toInt + 2 * c.coef1.toInt + 2 * c.coef2.toInt + c.coef3.toInt ≤ 32768 →
    (lpfOut c f x).toInt = firAcc (taps c) (f.pushed x) f.fidx / 32768

/-! ### Mixer -/

/-- R190, R28. -/
def Obligations.OclrClearsTheOutputFrame : Prop :=
  ∀ (ag : Agent) (s : State), mayIssue (.oclr ag) s →
    ∃ t, exec (.oclr ag) s = .next t ∧ responds s t ag .ok 0 ∧ keeps [.out] s t ∧ ∀ i, pairAt t.out i = ⟨0, 0⟩

/-- R62, R63, R191: the oldest `min(RFILL, OFB)` bytes leave the ring and become the first pairs of the Output Frame, left
sample first, low byte first; the other pairs stay; RRD moves on by as many, wrapping. -/
def Obligations.RpopDecodesTheOldestBytes : Prop :=
  ∀ (ag : Agent) (wm : WaitMode) (s : State),
    mayIssue (.rpop ag wm) s → Memory.sorted s.out → s.play = .playing → 0 < s.ring.rfill → s.ring.rfill % 4 = 0 →
    ∃ t, exec (.rpop ag wm) s = .next t ∧
      let k := min s.ring.rfill (4 * s.params.frameLen)
      responds s t ag .ok (BitVec.ofNat 32 k) ∧ keeps [.out, .ring] s t ∧ ringQ t = (ringQ s).drop k ∧
        t.ring.rfill = s.ring.rfill - k ∧ t.ring.rrd = (s.ring.rrd + k) % s.params.ringCap ∧ t.ring.rb = s.ring.rb ∧
        (∀ j b0 b1 b2 b3, j < k / 4 → (ringQ s)[4 * j]? = some b0 → (ringQ s)[4 * j + 1]? = some b1 →
          (ringQ s)[4 * j + 2]? = some b2 → (ringQ s)[4 * j + 3]? = some b3 →
          (pairAt t.out j).left.toNat = b0.toNat + 256 * b1.toNat ∧
            (pairAt t.out j).right.toNat = b2.toNat + 256 * b3.toNat) ∧
        ∀ j, k / 4 ≤ j → pairAt t.out j = pairAt s.out j

/-- R195, R236: slot `i` of the frame, run through the mic path in index order, is added to both channels of pair `i`; the
filter ends where the last sample left it. The mic path is convert, scale, filter, gate, each stage where SGN, FIR_EN and
GATE_EN have it (`MicStages`). -/
def Obligations.MixfAddsTheMicPathToBothChannels : Prop :=
  (∀ (c : Cfg) (f : Machine.Filter) (x : Slot), 1 ≤ c.convcfg.nbits.toNat → c.convcfg.nbits.toNat ≤ 16 →
    MicStages c f x (micPath c f x).1 (micPath c f x).2) ∧
  ∀ (ag : Agent) (t : Token) (xs : List Slot) (s : State),
    mayIssue (.mixf ag t) s → Memory.sorted s.out → t.toNat < s.params.depth → s.pool.heldBy ag = some t →
    frameIs s t xs →
    ∃ u, exec (.mixf ag t) s = .next u ∧ responds s u ag .ok 0 ∧ keeps [.out, .filter] s u ∧
      (∀ i m, (micSamples s.cfg s.filter xs)[i]? = some m →
        pairAt u.out i =
          ⟨mixAdd s.cfg.pathcfg.sat (pairAt s.out i).left m, mixAdd s.cfg.pathcfg.sat (pairAt s.out i).right m⟩) ∧
      (∀ i, s.params.frameLen ≤ i → pairAt u.out i = pairAt s.out i) ∧
      u.filter = xs.foldl (fun f x => (micPath s.cfg f x).2) s.filter ∧
      (s.cfg.pathcfg.firEn = false → u.filter = s.filter)

/-- R198: the exact sum, wrapped or saturated, with the worked values. -/
def Obligations.MixAddWrapsOrSaturates : Prop :=
  (∀ a m : Pcm, (mixAdd false a m).toInt = (a.toInt + m.toInt + 32768) % 65536 - 32768) ∧
    (∀ a m : Pcm, (mixAdd true a m).toInt = max (-32768) (min 32767 (a.toInt + m.toInt))) ∧
    (mixAdd false 32767 1).toInt = -32768 ∧ (mixAdd true 32767 1).toInt = 32767 ∧
    (mixAdd false (BitVec.ofInt 16 (-32768)) (BitVec.ofInt 16 (-1))).toInt = 32767 ∧
    (mixAdd true (BitVec.ofInt 16 (-32768)) (BitVec.ofInt 16 (-1))).toInt = -32768 ∧
    (mixAdd false 20000 20000).toInt = -25536 ∧ (mixAdd true 20000 20000).toInt = 32767

/-- R209, R237: a frame every slot of which converts to the idle value leaves the Output Frame as it is, the filter being
disabled or all zero, and an all-zero delay line stays all zero. -/
def Obligations.SilentFrameLeavesTheOutputFrame : Prop :=
  ∀ (ag : Agent) (t : Token) (xs : List Slot) (s : State),
    mayIssue (.mixf ag t) s → Memory.sorted s.out → t.toNat < s.params.depth → s.pool.heldBy ag = some t →
    frameIs s t xs → s.cfg.convcfg.sgn = false → (∀ x ∈ xs, convSlot s.cfg.convcfg x = s.cfg.idle.toNat) →
    (s.cfg.pathcfg.firEn = false ∨ ∀ k, s.filter.dl.get k = 0) →
    ∃ u, exec (.mixf ag t) s = .next u ∧ (∀ i, pairAt u.out i = pairAt s.out i) ∧ u.filter.dl = s.filter.dl

/-- R66, R200, R301: an accepting sink takes the pairs of the Output Frame in order, left sample first; a sink that
presents an error takes nothing. -/
def Obligations.SinkwSendsTheOutputFrame : Prop :=
  ∀ (ag : Agent) (wm : WaitMode) (s : State), mayIssue (.sinkw ag wm) s →
    (s.now.sink = .accepting →
      ∃ t fr, exec (.sinkw ag wm) s = .next t ∧ responds s t ag .ok (BitVec.ofNat 32 (4 * s.params.frameLen)) ∧
        keeps [.sinkLog] s t ∧ t.log.sink = s.log.sink ++ [fr] ∧ fr.length = 2 * s.params.frameLen ∧
        ∀ i < s.params.frameLen,
          fr[2 * i]? = some (pairAt s.out i).left ∧ fr[2 * i + 1]? = some (pairAt s.out i).right) ∧
    (s.now.sink = .error →
      ∃ t, exec (.sinkw ag wm) s = .next t ∧ responds s t ag .error 0 ∧ keeps [] s t)

/-- R71, R202. -/
def Obligations.OldReadsOnePair : Prop :=
  ∀ (ag : Agent) (i : BitVec 12) (s : State), mayIssue (.old ag i) s → i.toNat < s.params.frameLen →
    ∃ t v, exec (.old ag i) s = .next t ∧ responds s t ag .ok v ∧ keeps [] s t ∧
      v.toNat = (pairAt s.out i.toNat).left.toNat + 65536 * (pairAt s.out i.toNat).right.toNat

/-! ### Radio -/

/-- R64, R170: a chunk that fits is appended to the ring's content byte for byte; no byte outside the room it takes
changes. -/
def Obligations.RpushAppendsTheChunk : Prop :=
  ∀ (ag : Agent) (len : BitVec 16) (payload : List Word) (s : State),
    mayIssue (.rpush ag len payload) s → payload.length = payloadWords len → len.toNat ≠ 0 → len.toNat % 4 = 0 →
    Memory.sorted s.ring.rb → s.ring.rfill ≤ s.params.ringCap → len.toNat ≤ s.params.ringCap - s.ring.rfill →
    ∃ t chunk, exec (.rpush ag len payload) s = .next t ∧ responds s t ag .ok (len.setWidth 32) ∧ keeps [.ring] s t ∧
      chunk.length = len.toNat ∧
      (∀ j < len.toNat, chunk[j]? = (payload[j / 4]?).map fun w => w.extractLsb' (8 * (j % 4)) 8) ∧
      ringQ t = ringQ s ++ chunk ∧ t.ring.rfill = s.ring.rfill + len.toNat ∧ t.ring.rrd = s.ring.rrd ∧
      ∀ a, (∀ j < len.toNat, a ≠ (s.ring.rrd + s.ring.rfill + j) % s.params.ringCap) →
        Memory.read t.ring.rb a = Memory.read s.ring.rb a

/-- R171: a chunk that does not fit is dropped whole, at once, and changes nothing. -/
def Obligations.RpushDropsWhatDoesNotFit : Prop :=
  ∀ (ag : Agent) (len : BitVec 16) (payload : List Word) (s : State),
    mayIssue (.rpush ag len payload) s → payload.length = payloadWords len → len.toNat ≠ 0 → len.toNat % 4 = 0 →
    s.params.ringCap - s.ring.rfill < len.toNat →
    ∃ t, exec (.rpush ag len payload) s = .next t ∧ responds s t ag .dropped 0 ∧ keeps [] s t

/-- R173 to R175: the Playing flag after each event, and the ring emptied by a connection alone. -/
def Obligations.SevtMovesThePlayingFlag : Prop :=
  ∀ (ag : Agent) (ev : SessionEvent) (s : State), mayIssue (.sevt ag ev) s →
    ∃ t, exec (.sevt ag ev) s = .next t ∧ keeps [.play, .ring] s t ∧
      (match ev with
        | .connected => t.play = .paused ∧ ringQ t = [] ∧ t.ring = { s.ring with rrd := 0, rfill := 0 }
        | .disconnected => t.play = .idle ∧ t.ring = s.ring
        | .playing => t.play = (if s.play = .idle then .idle else .playing) ∧ t.ring = s.ring
        | .paused => t.play = (if s.play = .idle then .idle else .paused) ∧ t.ring = s.ring) ∧
      responds s t ag .ok (match t.play with | .idle => 0 | .paused => 1 | .playing => 2)

/-- R27, R321: a command's outcome depends on the ring only through its valid content (CFGR of RINGST apart, which shows
RRD): of two states that differ in the ring's storage alone, it makes two that differ in the ring's storage alone. -/
def Obligations.RingStorageIsInvisible : Prop :=
  ∀ (i : Instr) (s u s' : State), (∀ ag r, i = .cfgr ag r → r.toNat ≠ 0x14) → Memory.sorted s.ring.rb →
    Memory.sorted u.ring.rb → ringAlike s u → exec i s = .next s' →
    ∃ u', exec i u = .next u' ∧ ringAlike s' u'

/-! ### The sequencers -/

/-- R156: the capture sequencer issues the command of its step, or looks at it again while it is outstanding; the response,
at once or after a wait, decides the next step. That the answer and its row are one step is the model's reading (log 21), and
so is when an outstanding operation is looked at (log 2, log 11). -/
def Obligations.CaptureSequencerFollowsItsTable : Prop :=
  ∀ (s u v : State) (i : Instr),
    comes s u .capture .capture → s.phase = .run → s.seq.cstopped = false →
    (match s.seq.cstep with
      | .acq => i = .acqf .C .bounded
      | .read => ∃ t, s.pool.chold = some t ∧ i = .caprd .C .bounded t
      | .pub => ∃ t, s.pool.chold = some t ∧ i = .pubb .C .bounded t
      | .rel => ∃ t, s.pool.chold = some t ∧ i = .relf .C t) →
    carriedOut s.waiting.opC i (u.withWaiting .C none) → exec i (u.withWaiting .C none) = .next v →
    (v.waiting.opC ≠ none → step s = .next v) ∧
      ∀ st x c miss, v.waiting.opC = none → responds u v .C st x → captureRow s.seq.cstep st = some (c, miss) →
        step s =
          .next { v with seq := { v.seq with cstep := c }, evt := { v.evt with capfail := v.evt.capfail || miss } }

/-- R207: the mixer sequencer issues the command of its step, or looks at it again while it is outstanding; the response, at
once or after a wait, decides the next step. That the answer and its row are one step is the model's reading (log 21), and so
is when an outstanding operation is looked at (log 2, log 11). -/
def Obligations.MixerSequencerFollowsItsTable : Prop :=
  ∀ (s u v : State) (i : Instr),
    comes s u .mixer .mixer → s.phase = .run → s.seq.mstopped = false →
    (match s.seq.mstep with
      | .clr => i = .oclr .M
      | .pop => i = .rpop .M .bounded
      | .take => i = .takb .M .bounded
      | .mix => ∃ t, s.pool.mhold = some t ∧ i = .mixf .M t
      | .rel => ∃ t, s.pool.mhold = some t ∧ i = .relf .M t
      | .sink => i = .sinkw .M .bounded) →
    carriedOut s.waiting.opM i (u.withWaiting .M none) → exec i (u.withWaiting .M none) = .next v →
    (v.waiting.opM ≠ none → step s = .next v) ∧
      ∀ st x m miss, v.waiting.opM = none → responds u v .M st x → mixerRow s.seq.mstep st = some (m, miss) →
        step s =
          .next { v with seq := { v.seq with mstep := m }, evt := { v.evt with sinkmiss := v.evt.sinkmiss || miss } }

/-- R256, R285: the boot sequencer issues the command of its step, or looks at it again while it is outstanding; once it is
answered: the retries counted up to CALMAX, then F_CALFAIL and FATAL; the average stored, then RUN. That the answer and its
row are one step is R285's word for B_FAILREL and the model's reading for the other rows (log 21); when an outstanding
operation is looked at is log 2 and log 11. -/
def Obligations.BootSequencerFollowsItsTable : Prop :=
  ∀ (s u v : State) (i : Instr),
    comes s u .boot .boot → s.phase = .boot → s.seq.bstopped = false →
    (match s.seq.bstep with
      | .off => False
      | .acq => i = .acqf .C .bounded
      | .read => ∃ t, s.pool.chold = some t ∧ i = .caprd .C .bounded t
      | .avg => ∃ t, s.pool.chold = some t ∧ i = .fidle .C t
      | .rel => ∃ t, s.pool.chold = some t ∧ i = .relf .C t
      | .failrel => ∃ t, s.pool.chold = some t ∧ i = .relf .C t) →
    carriedOut s.waiting.opC i (u.withWaiting .C none) → exec i (u.withWaiting .C none) = .next v →
    (v.waiting.opC ≠ none → step s = .next v) ∧
    ∀ st x, v.waiting.opC = none → responds u v .C st x → ∃ w, step s = .next w ∧
      match s.seq.bstep, st with
      | .acq, .ok => w = { v with seq := { v.seq with bstep := .read } }
      | .acq, .timeout => w = v
      | .read, .ok => w = { v with seq := { v.seq with bstep := .avg } }
      | .read, .timeout | .read, .error =>
        s.seq.calcnt.toNat < 255 →
          w.seq.calcnt.toNat = s.seq.calcnt.toNat + 1 ∧
            w = { v with seq := { v.seq with
              calcnt := w.seq.calcnt
              bstep := if s.cfg.calmax.toNat ≤ w.seq.calcnt.toNat then .failrel else .read } }
      | .avg, .ok => w = { v with seq := { v.seq with bstep := .rel } }
      | .rel, .ok => w = { v with seq := { v.seq with bstep := .off }, phase := .run }
      | .failrel, .ok =>
        w = { v with seq := { v.seq with bstep := .off }, phase := .fatal, fault := v.fault ||| 0x200 }
      | _, _ => True

/-- R157, R208, R256: from a state that meets the invariant no sequencer raises a fault, but for F_CALFAIL at B_FAILREL. -/
def Obligations.SequencersRaiseNoFault : Prop :=
  ∀ (s t : State), Inv s → (nextTurn s).1.move ∈ [Move.boot, .capture, .mixer] → step s = .next t →
    t.fault = s.fault ∨
      (s.phase = .boot ∧ s.seq.bstep = .failrel ∧ t.phase = .fatal ∧ t.fault = s.fault ||| 0x200)

/-! ### The machine as a whole -/

/-- R50, R320: reset, in every state, gives every state element its reset value; the parameters stay. That the observation
stays is the model's choice (log 7), and so is that a whole command not yet carried out is discarded with the partly
presented ones of R320 (log 8). -/
def Obligations.ResetGivesTheResetValues : Prop :=
  ∀ s : State, (nextTurn s).1.move = .reset →
    ∃ t, step s = .next t ∧ t.params = s.params ∧ t.log = s.log ∧ t.phase = .setup ∧ t.play = .idle ∧
      (∀ a, Memory.read t.fm a = none) ∧ (∀ k, ownerOf t.pool k = .free) ∧ t.pool.chold = none ∧
      t.pool.mhold = none ∧ t.pool.busyq = [] ∧ t.pool.freeq = (List.range s.params.depth).map (BitVec.ofNat 4) ∧
      t.ring.rrd = 0 ∧ t.ring.rfill = 0 ∧ (∀ i, pairAt t.out i = ⟨0, 0⟩) ∧ (∀ k, t.filter.dl.get k = 0) ∧
      t.filter.fidx = 0 ∧ registerNat t 0x04 = 0x00010010 ∧ registerNat t 0x05 = 0 ∧ registerNat t 0x06 = 500 ∧
      registerNat t 0x08 = 0 ∧ registerNat t 0x09 = 0 ∧ registerNat t 0x0A = 0 ∧ registerNat t 0x0B = 0 ∧
      registerNat t 0x0C = 0 ∧ registerNat t 0x0D = 8 ∧ t.caldone = false ∧ registerNat t 0x10 = 0 ∧ t.fault = 0 ∧
      registerNat t 0x12 = 0 ∧ t.seq.calcnt = 0 ∧ t.waiting = { opC := none, opM := none } ∧
      t.ports = { hp := [], rp := [], sp := [] }

/-- The state after reset of every legal instance, and of the one that `State.reset` stands for, meets the invariant. -/
def Obligations.ResetStateMeetsTheInvariant : Prop :=
  Inv State.reset ∧ ∀ p : Params, p.legal → Inv (State.resetFor p)

/-- R26, R27, R131, R157, R208, R256, R323: every step from a state that meets the invariant leaves one that meets it,
whatever the turn brings. -/
def Obligations.EveryStepKeepsTheInvariant : Prop :=
  ∀ s t : State, Inv s → step s = .next t → Inv t

/-- R132: the tokens in the two queues and the two holds are N in number; so a held token leaves room in both queues. -/
def Obligations.TokensAreConserved : Prop :=
  ∀ s : State, Inv s →
    s.pool.freeq.length + s.pool.busyq.length + (if s.pool.chold = none then 0 else 1) +
        (if s.pool.mhold = none then 0 else 1) = s.params.depth ∧
      (s.pool.chold ≠ none → s.pool.busyq.length ≤ s.params.depth - 1) ∧
      (s.pool.chold ≠ none ∨ s.pool.mhold ≠ none → s.pool.freeq.length ≤ s.params.depth - 1)

/-- R12, R253, R256: phases only move forward; only reset returns to SETUP. -/
def Obligations.PhasesOnlyMoveForward : Prop :=
  ∀ s t : State, step s = .next t →
    t.phase = s.phase ∨ ((nextTurn s).1.move = .reset ∧ t.phase = .setup) ∨
      (s.phase = .setup ∧ (t.phase = .boot ∨ t.phase = .run)) ∨ (s.phase = .boot ∧ (t.phase = .run ∨ t.phase = .fatal))

/-- R38, R39, R286: a FAULT or EVT bit once set stays set until reset. -/
def Obligations.FaultAndEventBitsAreSticky : Prop :=
  ∀ s t : State, step s = .next t → (nextTurn s).1.move ≠ .reset →
    s.fault &&& t.fault = s.fault ∧ (s.evt.capfail = true → t.evt.capfail = true) ∧
      (s.evt.sinkmiss = true → t.evt.sinkmiss = true)

/-- R79, R252, R330: outside SETUP no register of the configuration changes, but for IDLE in BOOT. -/
def Obligations.ConfigurationIsFrozenAfterStart : Prop :=
  ∀ s t : State, step s = .next t → (nextTurn s).1.move ≠ .reset → s.phase ≠ .setup →
    t.params = s.params ∧ { t.cfg with idle := s.cfg.idle } = s.cfg ∧
      (s.phase ≠ .boot → t.cfg = s.cfg ∧ t.caldone = s.caldone)

/-- R47, R174, R296: the Playing flag has one writer, the session event. -/
def Obligations.OnlySessionEventsMoveThePlayingFlag : Prop :=
  ∀ s t : State, step s = .next t → t.play ≠ s.play →
    ((nextTurn s).1.move = .reset ∧ t.play = .idle) ∨
      ∃ ev rest, (nextTurn s).1.move = .serve .sp ∧ fetch (s.ports.of .sp) = .command (.sevt .S ev) rest

/-- R49, R200, R301: SINKLOG grows by one Output Frame at a time, and only when the sink accepts it. That a reset keeps it is
the model's choice (log 7; R320 allows either). -/
def Obligations.SinkLogHoldsAcceptedFrames : Prop :=
  ∀ s t : State, step s = .next t →
    t.log.sink = s.log.sink ∨ ((nextTurn s).1.sink = .accepting ∧ t.log.sink = s.log.sink ++ [outSamples s])

end
end

