-- ==== Sys2Proof/Laws/Codec.lean ====
section
/-! SUPPORT. Fields of a packed command word, and what the checks of the decoder let through (spec/30_encoding.md R91,
R98). -/

namespace Sys2Proof.Laws

/-! ### Fields of a packed word -/

section

variable (opc : BitVec 6) (ag : Agent) (wm : WaitMode) (t : Token) (imm : BitVec 16)

/-- The bits of a packed word, field by field. -/
theorem packHead_getLsbD (i : Nat) :
    (packHead opc ag wm t imm).getLsbD i =
      if i < 16 then imm.getLsbD i
      else if i < 20 then t.getLsbD (i - 16)
      else if i < 21 then false
      else if i < 23 then (waitModeCode wm).getLsbD (i - 21)
      else if i < 26 then (agentCode ag).getLsbD (i - 23)
      else opc.getLsbD (i - 26) := by
  have h : (packHead opc ag wm t imm).getLsbD i =
      (opc ++ (agentCode ag ++ (waitModeCode wm ++ ((0 : BitVec 1) ++ (t ++ imm))))).getLsbD i := rfl
  rw [h]
  simp only [BitVec.getLsbD_append]
  by_cases h1 : i < 16
  · simp [h1, show i < 26 by omega, show i < 23 by omega, show i < 21 by omega, show i < 20 by omega]
  · by_cases h2 : i < 20
    · simp [h1, h2, show i < 26 by omega, show i < 23 by omega, show i < 21 by omega]
    · by_cases h3 : i < 21
      · simp [h1, h2, h3, show i < 26 by omega, show i < 23 by omega]
      · by_cases h4 : i < 23
        · simp [h1, h2, h3, h4, show i < 26 by omega]
        · by_cases h5 : i < 26
          · simp [h1, h2, h3, h4, h5]
          · simp [h1, h2, h3, h4, h5]

@[simp] theorem opcOf_packHead : opcOf (packHead opc ag wm t imm) = opc := by
  ext i hi
  simp [opcOf, packHead_getLsbD, show ¬ 26 + i < 16 by omega, show ¬ 26 + i < 20 by omega, show ¬ 26 + i < 21 by omega,
    show ¬ 26 + i < 23 by omega, BitVec.getLsbD_eq_getElem hi]

@[simp] theorem agOf_packHead : agOf (packHead opc ag wm t imm) = agentCode ag := by
  ext i hi
  simp [agOf, packHead_getLsbD, show ¬ 23 + i < 16 by omega, show ¬ 23 + i < 20 by omega, show ¬ 23 + i < 21 by omega,
    show 23 + i < 26 by omega, BitVec.getLsbD_eq_getElem hi]

@[simp] theorem wmOf_packHead : wmOf (packHead opc ag wm t imm) = waitModeCode wm := by
  ext i hi
  simp [wmOf, packHead_getLsbD, show ¬ 21 + i < 16 by omega, show ¬ 21 + i < 20 by omega,
    show 21 + i < 23 by omega, BitVec.getLsbD_eq_getElem hi]

@[simp] theorem rsvOf_packHead : rsvOf (packHead opc ag wm t imm) = 0 := by
  ext i hi
  simp [rsvOf, packHead_getLsbD, show ¬ 20 + i < 16 by omega, show 20 + i < 21 by omega]

@[simp] theorem tokOf_packHead : tokOf (packHead opc ag wm t imm) = t := by
  ext i hi
  simp [tokOf, packHead_getLsbD, show 16 + i < 20 by omega, BitVec.getLsbD_eq_getElem hi]

@[simp] theorem immOf_packHead : immOf (packHead opc ag wm t imm) = imm := by
  ext i hi
  simp [immOf, packHead_getLsbD, hi]

end

/-- A word whose RSV bit is 0 is packed from its fields. -/
theorem packHead_fields {w : Word} {ag : Agent} {wm : WaitMode} (ha : agentCode ag = agOf w)
    (hw : waitModeCode wm = wmOf w) (hr : rsvOf w = 0) : packHead (opcOf w) ag wm (tokOf w) (immOf w) = w := by
  have h20 : w.getLsbD 20 = false := by
    have := congrArg (fun b => b.getLsbD 0) hr
    simpa [rsvOf] using this
  refine BitVec.eq_of_getLsbD_eq fun i hi => ?_
  rw [packHead_getLsbD, ha, hw]
  simp only [opcOf, agOf, wmOf, tokOf, immOf, BitVec.getLsbD_extractLsb']
  split
  · next h => simp [h]
  · split
    · next h1 h2 => simp [show i - 16 < 4 by omega, show 16 + (i - 16) = i by omega]
    · split
      · rw [show i = 20 by omega, h20]
      · split
        · simp [show i - 21 < 2 by omega, show 21 + (i - 21) = i by omega]
        · split
          · simp [show i - 23 < 3 by omega, show 23 + (i - 23) = i by omega]
          · simp [show i - 26 < 6 by omega, show 26 + (i - 26) = i by omega]

/-! ### Codes -/

@[simp] theorem agentOfCode_agentCode (ag : Agent) : agentOfCode (agentCode ag) = some ag := by cases ag <;> rfl

@[simp] theorem waitModeOfCode_waitModeCode (wm : WaitMode) : waitModeOfCode (waitModeCode wm) = some wm := by
  cases wm <;> rfl

@[simp] theorem eventOfCode_eventCode (ev : SessionEvent) : eventOfCode (eventCode ev) = ev := by cases ev <;> rfl

theorem agentOfCode_eq_some {c : BitVec 3} {ag : Agent} : agentOfCode c = some ag ↔ c = agentCode ag := by
  revert c; cases ag <;> decide

theorem waitModeOfCode_eq_some {c : BitVec 2} {wm : WaitMode} : waitModeOfCode c = some wm ↔ c = waitModeCode wm := by
  revert c; cases wm <;> decide

@[simp] theorem eventCode_eventOfCode (c : BitVec 2) : eventCode (eventOfCode c) = c := by revert c; decide

/-! ### The checks of R98 -/

/-- What passing the checks says of a word. -/
theorem checkFields_eq_ok {w : Word} {waits hasToken : Bool} {n : Nat} {f : Fields} :
    checkFields w waits hasToken n = .ok f ↔
      agOf w = agentCode f.ag ∧ wmOf w = waitModeCode f.wm ∧ rsvOf w = 0 ∧ (waits = true ∨ f.wm = .poll) ∧
        (hasToken = true ∨ tokOf w = 0) ∧ (immOf w).toNat < 2 ^ n ∧ f.tok = tokOf w ∧ f.imm = immOf w := by
  obtain ⟨ag, wm, tok, imm⟩ := f
  rw [checkFields, ← agentOfCode_eq_some, ← waitModeOfCode_eq_some]
  cases agentOfCode (agOf w) with
  | none => simp
  | some a =>
    cases waitModeOfCode (wmOf w) with
    | none => simp
    | some m =>
      simp only [Option.some.injEq]
      split
      · next h =>
        simp only [reduceCtorEq, false_iff]
        exact fun hc => h hc.2.2.1
      · next h =>
        split
        · next h1 => simp; rintro rfl rfl - h2; simp_all
        · next h1 =>
          split
          · next h2 => simp_all
          · next h2 =>
            split
            · next h3 => simp; intros; omega
            · next h3 =>
              simp only [Except.ok.injEq, Fields.mk.injEq, not_not] at *
              constructor
              · rintro ⟨rfl, rfl, rfl, rfl⟩
                refine ⟨rfl, rfl, h, ?_, ?_, by omega, rfl, rfl⟩
                · cases waits <;> simp_all
                · cases hasToken <;> simp_all
              · rintro ⟨rfl, rfl, -, -, -, -, rfl, rfl⟩
                exact ⟨rfl, rfl, rfl, rfl⟩

/-- The checks pass on a packed word whose fields are those of its format. -/
theorem checkFields_packHead (opc : BitVec 6) (ag : Agent) (wm : WaitMode) (t : Token) (imm : BitVec 16)
    (waits hasToken : Bool) (n : Nat) (hw : waits = true ∨ wm = .poll) (ht : hasToken = true ∨ t = 0)
    (hi : imm.toNat < 2 ^ n) :
    checkFields (packHead opc ag wm t imm) waits hasToken n = .ok { ag := ag, wm := wm, tok := t, imm := imm } := by
  rw [checkFields_eq_ok]
  exact ⟨agOf_packHead .., wmOf_packHead .., rsvOf_packHead .., hw, by rwa [tokOf_packHead], by rwa [immOf_packHead],
    (tokOf_packHead ..).symm, (immOf_packHead ..).symm⟩

end Sys2Proof.Laws
end

