-- ==== Sys2Proof/Laws/Memory.lean ====
section
/-! SUPPORT. What a storage space does: a read after a write, the canonical form kept by every write, whole ranges, and
the ring's window. -/

namespace Sys2Proof.Laws

open Sys2Proof.Machine

variable {α : Type}

/-! ### One address -/

@[simp] theorem Memory.read_nil (a : Nat) : Memory.read ([] : Memory α) a = none := rfl

@[simp] theorem Memory.read_cons (b : Nat) (x : α) (m : Memory α) (a : Nat) :
    Memory.read ((b, x) :: m) a = if a = b then some x else Memory.read m a := rfl

/-- A listed value stands in an entry. -/
theorem Memory.mem_of_read {m : Memory α} {a : Nat} {x : α} (h : Memory.read m a = some x) : (a, x) ∈ m := by
  induction m with
  | nil => simp at h
  | cons c m ih =>
    obtain ⟨b, y⟩ := c
    rw [Memory.read_cons] at h
    split at h
    · next hab => cases h; simp [hab]
    · exact List.mem_cons_of_mem _ (ih h)

/-- Below every listed address nothing is listed. -/
theorem Memory.read_eq_none_of_lt {m : Memory α} {a : Nat} (h : ∀ c ∈ m, a < c.1) : Memory.read m a = none := by
  induction m with
  | nil => rfl
  | cons c m ih =>
    obtain ⟨b, y⟩ := c
    have hb : a < b := h (b, y) (by simp)
    rw [Memory.read_cons, if_neg (by omega)]
    exact ih fun c hc => h c (List.mem_cons_of_mem _ hc)

/-- In canonical form an entry is what its address reads as. -/
theorem Memory.read_of_mem {m : Memory α} (hs : Memory.sorted m) {a : Nat} {x : α} (h : (a, x) ∈ m) :
    Memory.read m a = some x := by
  induction m with
  | nil => cases h
  | cons c m ih =>
    obtain ⟨b, y⟩ := c
    rw [Memory.sorted, List.pairwise_cons] at hs
    rcases List.mem_cons.1 h with heq | hm
    · cases heq; simp
    · have : b < a := hs.1 (a, x) hm
      rw [Memory.read_cons, if_neg (by omega)]
      exact ih hs.2 hm

/-- The entry of a value at its own address. -/
theorem Memory.mem_entry {a : Nat} {o : Option α} {c : Nat × α} (h : c ∈ Memory.entry a o) : c.1 = a ∧ o = some c.2 := by
  cases o with
  | none => cases h
  | some v =>
    rw [Memory.entry, List.mem_singleton] at h
    subst h
    exact ⟨rfl, rfl⟩

theorem Memory.read_entry_append (a : Nat) (o : Option α) (m : Memory α) (x : Nat) :
    Memory.read (Memory.entry a o ++ m) x = if x = a then o.or (Memory.read m x) else Memory.read m x := by
  cases o with
  | none => simp [Memory.entry]
  | some v => simp [Memory.entry]

@[simp] theorem Memory.put_nil (a : Nat) (o : Option α) : Memory.put [] a o = Memory.entry a o := rfl

theorem Memory.put_cons (b : Nat) (y : α) (m : Memory α) (a : Nat) (o : Option α) :
    Memory.put ((b, y) :: m) a o =
      if a < b then Memory.entry a o ++ (b, y) :: m
      else if a = b then Memory.entry a o ++ m else (b, y) :: Memory.put m a o := rfl

/-- Every entry after a write was there before, or is the one written. -/
theorem Memory.mem_put {m : Memory α} {a : Nat} {o : Option α} {c : Nat × α} (h : c ∈ Memory.put m a o) :
    c ∈ m ∨ (c.1 = a ∧ o = some c.2) := by
  induction m with
  | nil => exact Or.inr (Memory.mem_entry h)
  | cons d m ih =>
    obtain ⟨b, y⟩ := d
    rw [Memory.put_cons] at h
    split at h
    · rcases List.mem_append.1 h with h | h
      · exact Or.inr (Memory.mem_entry h)
      · exact Or.inl h
    · split at h
      · rcases List.mem_append.1 h with h | h
        · exact Or.inr (Memory.mem_entry h)
        · exact Or.inl (List.mem_cons_of_mem _ h)
      · rcases List.mem_cons.1 h with rfl | h
        · exact Or.inl List.mem_cons_self
        · exact (ih h).imp_left (List.mem_cons_of_mem _)

/-- An entry put before a canonical space that lies above it is canonical. -/
theorem Memory.sorted_entry_append {m : Memory α} (h : Memory.sorted m) {a : Nat} (o : Option α)
    (hb : ∀ c ∈ m, a < c.1) : Memory.sorted (Memory.entry a o ++ m) := by
  cases o with
  | none => exact h
  | some v => exact List.pairwise_cons.2 ⟨hb, h⟩

/-- A write keeps the canonical form. -/
theorem Memory.sorted_put {m : Memory α} (h : Memory.sorted m) (a : Nat) (o : Option α) :
    Memory.sorted (Memory.put m a o) := by
  induction m with
  | nil => simpa using Memory.sorted_entry_append (m := []) List.Pairwise.nil o (by simp)
  | cons c m ih =>
    obtain ⟨b, y⟩ := c
    have hc := List.pairwise_cons.1 h
    rw [Memory.put_cons]
    split
    · next hlt =>
      refine Memory.sorted_entry_append h o fun d hd => ?_
      rcases List.mem_cons.1 hd with rfl | hd
      · exact hlt
      · exact Nat.lt_trans hlt (hc.1 d hd)
    · split
      · next heq =>
        subst heq
        exact Memory.sorted_entry_append hc.2 o hc.1
      · next hlt hne =>
        refine List.pairwise_cons.2 ⟨fun d hd => ?_, ih hc.2⟩
        rcases Memory.mem_put hd with hd | hd
        · exact hc.1 d hd
        · simp only; omega

/-- A write leaves every other address alone, whatever the form of the space. -/
theorem Memory.read_put_other (m : Memory α) {a x : Nat} (o : Option α) (hne : x ≠ a) :
    Memory.read (Memory.put m a o) x = Memory.read m x := by
  induction m with
  | nil => simpa [hne] using Memory.read_entry_append a o [] x
  | cons c m ih =>
    obtain ⟨b, y⟩ := c
    rw [Memory.put_cons]
    split
    · rw [Memory.read_entry_append, if_neg hne]
    · split
      · next heq => subst heq; rw [Memory.read_entry_append, if_neg hne, Memory.read_cons, if_neg hne]
      · rw [Memory.read_cons, Memory.read_cons, ih]

/-- The address written reads as what was written. -/
theorem Memory.read_put_same {m : Memory α} (h : Memory.sorted m) (a : Nat) (o : Option α) :
    Memory.read (Memory.put m a o) a = o := by
  induction m with
  | nil => simpa using Memory.read_entry_append a o [] a
  | cons c m ih =>
    obtain ⟨b, y⟩ := c
    have hc := List.pairwise_cons.1 h
    have hbelow : a ≤ b → Memory.read m a = none := fun hz =>
      Memory.read_eq_none_of_lt fun d hd => Nat.lt_of_le_of_lt hz (hc.1 d hd)
    rw [Memory.put_cons]
    split
    · next hlt =>
      rw [Memory.read_entry_append, if_pos rfl, Memory.read_cons, if_neg (by omega), hbelow (by omega), Option.or_none]
    · split
      · next heq => rw [Memory.read_entry_append, if_pos rfl, hbelow (by omega), Option.or_none]
      · next hne => rw [Memory.read_cons, if_neg hne, ih hc.2]

/-- A read after a write: the value written at its address, elsewhere what was there. -/
theorem Memory.read_put {m : Memory α} (h : Memory.sorted m) (a : Nat) (o : Option α) (x : Nat) :
    Memory.read (Memory.put m a o) x = if x = a then o else Memory.read m x := by
  by_cases hx : x = a
  · subst hx; rw [if_pos rfl, Memory.read_put_same h]
  · rw [if_neg hx, Memory.read_put_other m o hx]

/-! ### Ranges -/

@[simp] theorem Memory.putAll_nil (m : Memory α) (a : Nat) : Memory.putAll m a [] = m := rfl

@[simp] theorem Memory.putAll_cons (m : Memory α) (a : Nat) (o : Option α) (os : List (Option α)) :
    Memory.putAll m a (o :: os) = Memory.putAll (Memory.put m a o) (a + 1) os := rfl

/-- Writing a range keeps the canonical form. -/
theorem Memory.sorted_putAll {m : Memory α} (h : Memory.sorted m) (a : Nat) (os : List (Option α)) :
    Memory.sorted (Memory.putAll m a os) := by
  induction os generalizing m a with
  | nil => exact h
  | cons o os ih => exact ih (Memory.sorted_put h a o) (a + 1)

/-- Every entry after writing a range was there before, or is one of those written. -/
theorem Memory.mem_putAll {m : Memory α} {a : Nat} {os : List (Option α)} {c : Nat × α}
    (h : c ∈ Memory.putAll m a os) : c ∈ m ∨ (a ≤ c.1 ∧ c.1 < a + os.length ∧ some c.2 ∈ os) := by
  induction os generalizing m a with
  | nil => exact Or.inl h
  | cons o os ih =>
    rcases ih h with h | ⟨h1, h2, h3⟩
    · rcases Memory.mem_put h with h | ⟨h1, h2⟩
      · exact Or.inl h
      · exact Or.inr ⟨by omega, by simp only [List.length_cons]; omega, by simp [h2]⟩
    · exact Or.inr ⟨by omega, by simp only [List.length_cons]; omega, List.mem_cons_of_mem _ h3⟩

/-- A read after writing a range. -/
theorem Memory.read_putAll {m : Memory α} (h : Memory.sorted m) (a : Nat) (os : List (Option α)) (x : Nat) :
    Memory.read (Memory.putAll m a os) x =
      if a ≤ x ∧ x < a + os.length then (os[x - a]?).join else Memory.read m x := by
  induction os generalizing m a with
  | nil =>
    rw [Memory.putAll_nil, if_neg (by simp only [List.length_nil]; omega)]
  | cons o os ih =>
    rw [Memory.putAll_cons, ih (Memory.sorted_put h a o), Memory.read_put h, List.length_cons]
    by_cases hx : x = a
    · subst hx
      rw [if_neg (by omega), if_pos rfl, if_pos (by omega)]
      simp
    · rw [if_neg hx]
      by_cases hr : a + 1 ≤ x ∧ x < a + 1 + os.length
      · have e : x - a = (x - (a + 1)) + 1 := by omega
        rw [if_pos hr, if_pos (by omega), e, List.getElem?_cons_succ]
      · rw [if_neg hr, if_neg (by omega)]

/-- What reading a whole range answers: every value, in order. -/
theorem Memory.readAll_eq_some {m : Memory α} {a n : Nat} {xs : List α} :
    Memory.readAll m a n = some xs ↔ xs.length = n ∧ ∀ i < n, Memory.read m (a + i) = xs[i]? := by
  induction n generalizing a xs with
  | zero =>
    rw [Memory.readAll]
    constructor
    · intro h; cases h; simp
    · rintro ⟨h, -⟩; rw [List.length_eq_zero_iff.1 h]
  | succ n ih =>
    rw [Memory.readAll]
    constructor
    · intro h
      split at h
      · next x ys hx hys =>
        cases h
        obtain ⟨hl, hr⟩ := ih.1 hys
        refine ⟨by simp [hl], fun i hi => ?_⟩
        cases i with
        | zero => simpa using hx
        | succ i =>
          have := hr i (by omega)
          rw [List.getElem?_cons_succ, ← this]
          congr 1
          omega
      · cases h
    · rintro ⟨hl, hr⟩
      cases xs with
      | nil => simp at hl
      | cons x ys =>
        have h0 : Memory.read m a = some x := by simpa using hr 0 (by omega)
        have hs : Memory.readAll m (a + 1) n = some ys := by
          refine ih.2 ⟨by simpa using hl, fun i hi => ?_⟩
          have := hr (i + 1) (by omega)
          rw [List.getElem?_cons_succ] at this
          rw [← this]
          congr 1
          omega
        rw [h0, hs]

/-- Reading a whole range answers exactly when every address lists a value. -/
theorem Memory.readAll_isSome {m : Memory α} {a n : Nat} :
    (Memory.readAll m a n).isSome = true ↔ ∀ i < n, (Memory.read m (a + i)).isSome = true := by
  induction n generalizing a with
  | zero => simp [Memory.readAll]
  | succ n ih =>
    rw [Memory.readAll]
    constructor
    · intro h i hi
      split at h
      · next x ys hx hys =>
        cases i with
        | zero => simp [hx]
        | succ i =>
          have := ih.1 (by rw [hys]; rfl) i (by omega)
          rw [← this]
          congr 2
          omega
      · cases h
    · intro h
      have h0 := h 0 (by omega)
      have hs : (Memory.readAll m (a + 1) n).isSome = true := ih.2 fun i hi => by
        rw [← h (i + 1) (by omega)]
        congr 2
        omega
      obtain ⟨x, hx⟩ := Option.isSome_iff_exists.1 h0
      obtain ⟨ys, hys⟩ := Option.isSome_iff_exists.1 hs
      rw [Nat.add_zero] at hx
      simp [hx, hys]

/-! ### Output Frame and ownership map -/

/-- A pair written reads back, and every other pair is as before. -/
theorem pairAt_putPair {out : Memory Pair} (h : Memory.sorted out) (i : Nat) (p : Pair) (j : Nat) :
    pairAt (putPair out i p) j = if j = i then p else pairAt out j := by
  unfold pairAt putPair
  rw [Memory.read_put h]
  by_cases hj : j = i
  · rw [if_pos hj, if_pos hj]
    by_cases hp : p = ⟨0, 0⟩
    · rw [if_pos hp, hp]; rfl
    · rw [if_neg hp]; rfl
  · rw [if_neg hj, if_neg hj]

theorem sorted_putPair {out : Memory Pair} (h : Memory.sorted out) (i : Nat) (p : Pair) :
    Memory.sorted (putPair out i p) := Memory.sorted_put h _ _

theorem sorted_putPairs {out : Memory Pair} (h : Memory.sorted out) (i : Nat) (ps : List Pair) :
    Memory.sorted (putPairs out i ps) := by
  induction ps generalizing out i with
  | nil => exact h
  | cons p ps ih => exact ih (sorted_putPair h i p) (i + 1)

/-- Pairs written from an index on read back in order, and every other pair is as before. -/
theorem pairAt_putPairs {out : Memory Pair} (h : Memory.sorted out) (i : Nat) (ps : List Pair) (j : Nat) :
    pairAt (putPairs out i ps) j =
      if i ≤ j ∧ j < i + ps.length then (ps[j - i]?).getD ⟨0, 0⟩ else pairAt out j := by
  induction ps generalizing out i with
  | nil => rw [putPairs, if_neg (by simp only [List.length_nil]; omega)]
  | cons p ps ih =>
    rw [putPairs, ih (sorted_putPair h i p), pairAt_putPair h, List.length_cons]
    by_cases hj : j = i
    · subst hj
      rw [if_neg (by omega), if_pos rfl, if_pos (by omega)]
      simp
    · rw [if_neg hj]
      by_cases hr : i + 1 ≤ j ∧ j < i + 1 + ps.length
      · have e : j - i = (j - (i + 1)) + 1 := by omega
        rw [if_pos hr, if_pos (by omega), e, List.getElem?_cons_succ]
      · rw [if_neg hr, if_neg (by omega)]

/-- A token's owner written reads back, and every other token's is as before. -/
theorem read_putOwner {own : Memory Owner} (h : Memory.sorted own) (t u : Token) (o : Owner) :
    (Memory.read (putOwner own t o) u.toNat).getD .free = if u = t then o else (Memory.read own u.toNat).getD .free := by
  unfold putOwner
  rw [Memory.read_put h]
  by_cases hu : u = t
  · subst hu
    rw [if_pos rfl, if_pos rfl]
    by_cases ho : o = .free <;> simp [ho]
  · rw [if_neg (fun e => hu (BitVec.eq_of_toNat_eq e)), if_neg hu]

/-! ### Ring -/

@[simp] theorem ringBytes_length (rb : Memory Byte) (cap pos n : Nat) : (ringBytes rb cap pos n).length = n := by
  induction n generalizing pos with
  | zero => rfl
  | succ n ih => simp [ringBytes, ih]

/-- Byte `j` of a run of ring bytes. -/
theorem ringBytes_getElem? (rb : Memory Byte) (cap pos n j : Nat) (hj : j < n) :
    (ringBytes rb cap pos n)[j]? = some (ringByteAt rb ((pos + j) % cap)) := by
  induction n generalizing pos j with
  | zero => omega
  | succ n ih =>
    cases j with
    | zero => simp [ringBytes]
    | succ j =>
      rw [ringBytes, List.getElem?_cons_succ, ih (pos + 1) j (by omega)]
      congr 3
      omega

/-- A run of ring bytes is a shorter run and the rest. -/
theorem ringBytes_add (rb : Memory Byte) (cap pos m n : Nat) :
    ringBytes rb cap pos (m + n) = ringBytes rb cap pos m ++ ringBytes rb cap (pos + m) n := by
  induction m generalizing pos with
  | zero => simp [ringBytes]
  | succ m ih =>
    rw [Nat.add_right_comm, ringBytes, ih (pos + 1), ringBytes, List.cons_append]
    congr 3
    omega

theorem sorted_ringStore {rb : Memory Byte} (h : Memory.sorted rb) (cap pos : Nat) (bs : List Byte) :
    Memory.sorted (ringStore rb cap pos bs) := by
  induction bs generalizing rb pos with
  | nil => exact h
  | cons b bs ih => exact ih (Memory.sorted_put h _ _) (pos + 1)

/-- Storing a chunk touches no address but those of its positions. -/
theorem read_ringStore_other (rb : Memory Byte) (cap pos : Nat) (bs : List Byte) (x : Nat)
    (h : ∀ j < bs.length, x ≠ (pos + j) % cap) : Memory.read (ringStore rb cap pos bs) x = Memory.read rb x := by
  induction bs generalizing rb pos with
  | nil => rfl
  | cons b bs ih =>
    have h0 : x ≠ pos % cap := by simpa using h 0 (by simp)
    rw [ringStore, ih, Memory.read_put_other rb _ h0]
    intro j hj
    have := h (j + 1) (by simpa using hj)
    rw [show pos + 1 + j = pos + (j + 1) by omega]
    exact this

/-- Two positions less than a capacity apart have different indices. -/
theorem mod_ne_of_lt {cap p q : Nat} (hpq : p < q) (hlt : q < p + cap) : p % cap ≠ q % cap := by
  intro h
  have h1 : (q - p) % cap = 0 := Nat.sub_mod_eq_zero_of_mod_eq h.symm
  rw [Nat.mod_eq_of_lt (by omega)] at h1
  omega

/-- A chunk no longer than the ring reads back where it was stored. -/
theorem read_ringStore {rb : Memory Byte} (hs : Memory.sorted rb) (cap pos : Nat) (bs : List Byte)
    (hlen : bs.length ≤ cap) (j : Nat) (hj : j < bs.length) :
    Memory.read (ringStore rb cap pos bs) ((pos + j) % cap) = bs[j]? := by
  induction bs generalizing rb pos j with
  | nil => simp at hj
  | cons b bs ih =>
    simp only [List.length_cons] at hlen hj
    cases j with
    | zero =>
      rw [ringStore, read_ringStore_other, Nat.add_zero, Memory.read_put hs, if_pos rfl]
      · rfl
      · intro k hk
        rw [Nat.add_zero]
        exact mod_ne_of_lt (by omega) (by omega)
    | succ j =>
      rw [ringStore, List.getElem?_cons_succ, show pos + (j + 1) = pos + 1 + j by omega]
      exact ih (Memory.sorted_put hs _ _) (pos + 1) (by omega) j (by omega)

end Sys2Proof.Laws
end

