-- ==== Sys2Proof/Laws/Ops.lean ====
section
/-! SUPPORT. What each shared operation can do, said once (spec/60_exceptions.md R281, R284; spec/00_scope.md R14):
if it answers a next state, one of these cases holds. -/

namespace Sys2Proof.Laws

open Sys2Proof.Machine Sys2Proof.Safety

/-! ### Answers -/

@[simp] theorem respond_eq_next {s s' : State} {ag : Agent} {st : Status} {v : Word} :
    respond s ag st v = .next s' ↔ s' = s.answered ag st v := by
  rw [respond, Host.Outcome.next.injEq, eq_comm]

theorem next_eq_next {s t : State} : (Host.Outcome.next s : Result) = .next t ↔ t = s := by
  rw [Host.Outcome.next.injEq, eq_comm]

@[simp] theorem raiseFault_eq_next {s s' : State} {ag : Agent} {c : Cause} :
    raiseFault s ag c = .next s' ↔ s' = s.faulted ag c := by
  rw [raiseFault, Host.Outcome.next.injEq, eq_comm]

/-! ### Checks -/

/-- The port check is the table of R293. -/
theorem portCarries_iff {o : Origin} {ag : Agent} {ph : Phase} : portCarries o ag ph = true ↔ carries o ag ph := by
  cases o with
  | port p => cases p <;> cases ag <;> simp [portCarries, carries]
  | boot => cases ag <;> simp [portCarries, carries]
  | capture => cases ag <;> simp [portCarries, carries]
  | mixer => cases ag <;> simp [portCarries, carries]

/-- A checked operation raises F_AGENT, or F_PHASE, or does what its own rule says. -/
theorem checked_cases (s : State) (ag : Agent) (is : List Agent) (ps : List Phase) (body : Result) :
    (¬(carries s.now.origin ag s.phase ∧ ag ∈ is) ∧ checked s ag is ps body = raiseFault s ag .agent) ∨
    ((carries s.now.origin ag s.phase ∧ ag ∈ is) ∧ s.phase ∉ ps ∧ checked s ag is ps body = raiseFault s ag .phase) ∨
    ((carries s.now.origin ag s.phase ∧ ag ∈ is) ∧ s.phase ∈ ps ∧ checked s ag is ps body = body) := by
  unfold checked
  simp only [portCarries_iff]
  by_cases h1 : carries s.now.origin ag s.phase ∧ ag ∈ is
  · by_cases h2 : s.phase ∈ ps
    · exact Or.inr (Or.inr ⟨h1, h2, by rw [if_neg (not_not_intro h1), if_neg (not_not_intro h2)]⟩)
    · exact Or.inr (Or.inl ⟨h1, h2, by rw [if_neg (not_not_intro h1), if_pos h2]⟩)
  · exact Or.inl ⟨h1, by rw [if_pos h1]⟩

/-- Both checks passed: the operation's own rule. -/
theorem checked_pass {s : State} {ag : Agent} {is : List Agent} {ps : List Phase} (body : Result)
    (h1 : carries s.now.origin ag s.phase) (h2 : ag ∈ is) (h3 : s.phase ∈ ps) : checked s ag is ps body = body := by
  rcases checked_cases s ag is ps body with ⟨h, -⟩ | ⟨-, h, -⟩ | ⟨-, -, h⟩
  · exact absurd ⟨h1, h2⟩ h
  · exact absurd h3 h
  · exact h

/-- An operation on a token raises F_RANGE, or F_OWN, or goes on with a token in range that the agent holds. -/
theorem owned_cases (s : State) (ag : Agent) (t : Token) (body : Result) :
    (¬ tokenInRange s t ∧ owned s ag t body = raiseFault s ag .range) ∨
    (tokenInRange s t ∧ s.pool.heldBy ag ≠ some t ∧ owned s ag t body = raiseFault s ag .own) ∨
    (tokenInRange s t ∧ s.pool.heldBy ag = some t ∧ owned s ag t body = body) := by
  unfold owned
  by_cases h1 : tokenInRange s t
  · by_cases h2 : s.pool.heldBy ag = some t
    · exact Or.inr (Or.inr ⟨h1, h2, by rw [if_neg (not_not_intro h1), if_neg (not_not_intro h2)]⟩)
    · exact Or.inr (Or.inl ⟨h1, h2, by rw [if_neg (not_not_intro h1), if_pos h2]⟩)
  · exact Or.inl ⟨h1, by rw [if_pos h1]⟩

/-- A token in range that the agent holds: the operation goes on. -/
theorem owned_pass {s : State} {ag : Agent} {t : Token} (body : Result) (h1 : tokenInRange s t)
    (h2 : s.pool.heldBy ag = some t) : owned s ag t body = body := by
  rcases owned_cases s ag t body with ⟨h, -⟩ | ⟨-, h, -⟩ | ⟨-, -, h⟩
  · exact absurd h1 h
  · exact absurd h2 h
  · exact h

/-! ### Waiting -/

/-- An operation that is not ready answers WOULDBLOCK (TRY), answers TIMEOUT (BOUNDED, at an instant of expiry), or stays
outstanding. -/
theorem notReady_cases (s late : State) (i : Instr) (wm : WaitMode) :
    (wm = .poll ∧ notReady s late i wm = respond s i.agent .wouldblock 0) ∨
    (wm = .bounded ∧ s.now.expire = true ∧ notReady s late i wm = respond late i.agent .timeout 0) ∨
    ((wm = .unbounded ∨ (wm = .bounded ∧ s.now.expire = false)) ∧
      notReady s late i wm = .next (s.withWaiting i.agent (some i))) := by
  cases wm with
  | poll => exact Or.inl ⟨rfl, rfl⟩
  | bounded =>
    cases h : s.now.expire
    · exact Or.inr (Or.inr ⟨Or.inr ⟨rfl, rfl⟩, by simp [notReady, h]⟩)
    · exact Or.inr (Or.inl ⟨rfl, rfl, by simp [notReady, h]⟩)
  | unbounded => exact Or.inr (Or.inr ⟨Or.inl rfl, rfl⟩)

/-- What going on from a next state can answer. -/
theorem andThen_eq_next {r : Result} {f : State → Result} {s' : State} :
    r.andThen f = .next s' ↔ ∃ s1, r = .next s1 ∧ f s1 = .next s' := by
  cases r with
  | next s => simp [Result.andThen]
  | fault e => simp [Result.andThen]
  | refused e => simp [Result.andThen]

/-- An operation of agent C or M put down as outstanding: the other agent's is as before. -/
theorem withWaiting_becomesOutstanding {i : Instr} {s : State} (h : i.agent = .C ∨ i.agent = .M) :
    becomesOutstanding i s (s.withWaiting i.agent (some i)) := by
  rcases h with h | h <;> rw [becomesOutstanding, h] <;>
    refine ⟨rfl, fun ag hag => ?_, rfl, rfl, rfl, rfl, rfl, fun p hp => ?_⟩
  all_goals first
    | (cases ag <;> first | rfl | exact absurd rfl hag)
    | (cases p <;> first | rfl | simp at hp)

/-! ### When an operation answers a given next state -/

theorem checked_eq_next {s t : State} {ag : Agent} {is : List Agent} {ps : List Phase} {body : Result} :
    checked s ag is ps body = .next t ↔
      (¬(carries s.now.origin ag s.phase ∧ ag ∈ is) ∧ t = s.faulted ag .agent) ∨
      ((carries s.now.origin ag s.phase ∧ ag ∈ is) ∧ s.phase ∉ ps ∧ t = s.faulted ag .phase) ∨
      ((carries s.now.origin ag s.phase ∧ ag ∈ is) ∧ s.phase ∈ ps ∧ body = .next t) := by
  rcases checked_cases s ag is ps body with ⟨h, e⟩ | ⟨h1, h2, e⟩ | ⟨h1, h2, e⟩
  · rw [e, raiseFault_eq_next]
    exact ⟨fun ht => Or.inl ⟨h, ht⟩, fun ht => ht.elim And.right (·.elim (fun x => absurd x.1 h) fun x => absurd x.1 h)⟩
  · rw [e, raiseFault_eq_next]
    exact ⟨fun ht => Or.inr (Or.inl ⟨h1, h2, ht⟩),
      fun ht => ht.elim (fun x => absurd h1 x.1) (·.elim (·.2.2) fun x => absurd x.2.1 h2)⟩
  · rw [e]
    exact ⟨fun ht => Or.inr (Or.inr ⟨h1, h2, ht⟩),
      fun ht => ht.elim (fun x => absurd h1 x.1) (·.elim (fun x => absurd h2 x.2.1) (·.2.2))⟩

theorem owned_eq_next {s t : State} {ag : Agent} {k : Token} {body : Result} :
    owned s ag k body = .next t ↔
      (¬ tokenInRange s k ∧ t = s.faulted ag .range) ∨
      (tokenInRange s k ∧ s.pool.heldBy ag ≠ some k ∧ t = s.faulted ag .own) ∨
      (tokenInRange s k ∧ s.pool.heldBy ag = some k ∧ body = .next t) := by
  rcases owned_cases s ag k body with ⟨h, e⟩ | ⟨h1, h2, e⟩ | ⟨h1, h2, e⟩
  · rw [e, raiseFault_eq_next]
    exact ⟨fun ht => Or.inl ⟨h, ht⟩, fun ht => ht.elim And.right (·.elim (fun x => absurd x.1 h) fun x => absurd x.1 h)⟩
  · rw [e, raiseFault_eq_next]
    exact ⟨fun ht => Or.inr (Or.inl ⟨h1, h2, ht⟩),
      fun ht => ht.elim (fun x => absurd h1 x.1) (·.elim (·.2.2) fun x => absurd x.2.1 h2)⟩
  · rw [e]
    exact ⟨fun ht => Or.inr (Or.inr ⟨h1, h2, ht⟩),
      fun ht => ht.elim (fun x => absurd h1 x.1) (·.elim (fun x => absurd h2 x.2.1) (·.2.2))⟩

theorem notReady_eq_next {s late t : State} {i : Instr} {wm : WaitMode} :
    notReady s late i wm = .next t ↔
      (wm = .poll ∧ t = s.answered i.agent .wouldblock 0) ∨
      (wm = .bounded ∧ s.now.expire = true ∧ t = late.answered i.agent .timeout 0) ∨
      ((wm = .unbounded ∨ (wm = .bounded ∧ s.now.expire = false)) ∧ t = s.withWaiting i.agent (some i)) := by
  cases wm <;> cases h : s.now.expire <;> simp [notReady, h, -Host.Outcome.next.injEq, next_eq_next]

theorem acqfReady_eq_next {s t : State} {ag : Agent} {wm : WaitMode} :
    acqfReady ag wm s = .next t ↔
      (s.pool.freeq = [] ∧ notReady s s (.acqf ag wm) wm = .next t) ∨
      ∃ k q, s.pool.freeq = k :: q ∧ t = { s with pool := s.pool.acquire k q }.answered ag .ok (k.setWidth 32) := by
  unfold acqfReady
  cases h : s.pool.freeq <;> simp

theorem pubbReady_eq_next {s t : State} {ag : Agent} {wm : WaitMode} {k : Token} :
    pubbReady ag wm k s = .next t ↔
      (s.params.depth ≤ s.pool.busyq.length ∧ notReady s s (.pubb ag wm k) wm = .next t) ∨
      (s.pool.busyq.length < s.params.depth ∧ t = { s with pool := s.pool.publish k }.answered ag .ok 0) := by
  unfold pubbReady
  split
  · next h => simp [h, Nat.not_lt.2 h]
  · next h => simp [Nat.not_le.1 h, Nat.not_le.2 (Nat.not_le.1 h)]

theorem takbReady_eq_next {s t : State} {ag : Agent} {wm : WaitMode} :
    takbReady ag wm s = .next t ↔
      (s.pool.busyq = [] ∧ notReady s s (.takb ag wm) wm = .next t) ∨
      ∃ k q, s.pool.busyq = k :: q ∧ t = { s with pool := s.pool.take k q }.answered ag .ok (k.setWidth 32) := by
  unfold takbReady
  cases h : s.pool.busyq <;> simp

theorem caprdReady_eq_next {s t : State} {ag : Agent} {wm : WaitMode} {k : Token} :
    caprdReady ag wm k s = .next t ↔
      (s.now.source = .nothing ∧ notReady s (s.withUndefFrame k) (.caprd ag wm k) wm = .next t) ∨
      (s.now.source = .error ∧ t = (s.withUndefFrame k).sourceConsumed.answered ag .error 0) ∨
      ∃ d, s.now.source = .frame d ∧
        t = (s.withFrame k (drawnFrame s.params d)).sourceConsumed.answered ag .ok (BitVec.ofNat 32 s.params.frameLen) := by
  unfold caprdReady
  cases h : s.now.source <;> simp

theorem rpopReady_eq_next {s t : State} {ag : Agent} {wm : WaitMode} :
    rpopReady ag wm s = .next t ↔
      (s.play ≠ .playing ∧ t = s.answered ag .skip 0) ∨
      (s.play = .playing ∧ s.ring.rfill = 0 ∧ notReady s s (.rpop ag wm) wm = .next t) ∨
      (s.play = .playing ∧ s.ring.rfill ≠ 0 ∧ t = s.popped.answered ag .ok (BitVec.ofNat 32 (popCount s))) := by
  unfold rpopReady
  split
  · next h => simp [h]
  · next h =>
    split
    · next h1 => simp [not_not.1 h, h1]
    · next h1 => simp [not_not.1 h, h1]

theorem sinkwReady_eq_next {s t : State} {ag : Agent} {wm : WaitMode} :
    sinkwReady ag wm s = .next t ↔
      (s.now.sink = .busy ∧ notReady s s (.sinkw ag wm) wm = .next t) ∨
      (s.now.sink = .error ∧ t = s.answered ag .error 0) ∨
      (s.now.sink = .accepting ∧ t = s.sunk.answered ag .ok (BitVec.ofNat 32 (outputFrameBytes s.params))) := by
  unfold sinkwReady
  cases h : s.now.sink <;> simp

/-- An operation that can wait, its checks passing, does from its ready condition on what it does when it is issued. -/
theorem completeOp_eq_exec {i : Instr} {s : State} (hw : (waitModeOf i).isSome = true) (hf : firstFault i s = none) :
    completeOp i s = exec i s := by
  have hc : carries s.now.origin i.agent s.phase ∧ i.agent ∈ issuers i := by
    by_contra h
    simp [firstFault, h] at hf
  have hp : s.phase ∈ legalPhases i := by
    by_contra h
    simp [firstFault, hc, h] at hf
  have hr : (rangeFault i s).or ((ownFault i s).or (contentFault i s)) = none := by simpa [firstFault, hc, hp] using hf
  cases i with
  | acqf ag wm =>
    have h : s.pool.chold = none := by simpa [rangeFault, ownFault, contentFault, tokenOf, indexOf] using hr
    exact (checked_pass _ hc.1 hc.2 hp).trans (by simp [h, completeOp]) |>.symm
  | pubb ag wm t =>
    have h : t.toNat < s.params.depth ∧ s.pool.heldBy ag = some t := by
      simpa [rangeFault, ownFault, contentFault, tokenOf, indexOf, Instr.agent] using hr
    exact (checked_pass _ hc.1 hc.2 hp).trans (by simp [owned, h, completeOp]) |>.symm
  | takb ag wm =>
    have h : s.pool.mhold = none := by simpa [rangeFault, ownFault, contentFault, tokenOf, indexOf] using hr
    exact (checked_pass _ hc.1 hc.2 hp).trans (by simp [h, completeOp]) |>.symm
  | caprd ag wm t =>
    have h : t.toNat < s.params.depth ∧ s.pool.heldBy ag = some t := by
      simpa [rangeFault, ownFault, contentFault, tokenOf, indexOf, Instr.agent] using hr
    exact (checked_pass _ hc.1 hc.2 hp).trans (by simp [owned, h, completeOp]) |>.symm
  | rpop ag wm => exact (checked_pass _ hc.1 hc.2 hp).symm
  | sinkw ag wm => exact (checked_pass _ hc.1 hc.2 hp).symm
  | _ => simp [waitModeOf] at hw

/-! ### Turns -/

/-- With no held command first, the first command of the words is the one to serve. -/
theorem firstServable_of_free {holds : Instr → Bool} {ws : List Word}
    (h : ∀ i rest, fetch ws = .command i rest → holds i = false) :
    firstServable holds ws.length ws = ([], fetch ws) := by
  cases ws with
  | nil => rfl
  | cons w ws =>
    simp only [List.length_cons, firstServable]
    cases hf : fetch (w :: ws) with
    | incomplete => rfl
    | illegal e v rest => rfl
    | command i rest => simp [h i rest hf]

/-- A command that is served is not held. -/
theorem firstServable_command {holds : Instr → Bool} {i : Instr} {rest : List Word} :
    ∀ {n : Nat} {ws kept : List Word}, firstServable holds n ws = (kept, .command i rest) → holds i = false := by
  intro n
  induction n with
  | zero => intro ws kept h; simp [firstServable] at h
  | succ n ih =>
    intro ws kept h
    simp only [firstServable] at h
    cases hf : fetch ws with
    | incomplete => simp [hf] at h
    | illegal e w r => simp [hf] at h
    | command j r =>
      cases hj : holds j
      · simp only [hf, hj, Prod.mk.injEq, Fetched.command.injEq, Bool.false_eq_true, if_false] at h
        exact h.2.1 ▸ hj
      · simp only [hf, hj, if_true, Prod.mk.injEq] at h
        exact ih (Prod.ext rfl h.2 : firstServable holds n r = ((firstServable holds n r).1, .command i rest))

/-- On the radio and session ports, and outside SETUP, no command is held. -/
theorem held_eq_false {s : State} {p : CmdPort} {i : Instr} (h : p ≠ .hp ∨ s.phase ≠ .setup) : held s p i = false := by
  rcases h with h | h <;> simp [held, h]

/-- The words behind the held ones are not a whole command, or an illegal one, or one that is carried out. -/
theorem servePort_cases (p : CmdPort) (s : State) :
    ∃ kept f, firstServable (held s p) (s.ports.of p).length (s.ports.of p) = (kept, f) ∧
      ((f = .incomplete ∧ servePort p s = .next s) ∨
        (∃ e w rest, f = .illegal e w rest ∧
          servePort p s = .next ((s.servingPort p (kept ++ rest)).illegalFaulted (agOf w))) ∨
        (∃ i rest, f = .command i rest ∧ held s p i = false ∧
          servePort p s = exec i (s.servingPort p (kept ++ rest)))) := by
  rcases hk : firstServable (held s p) (s.ports.of p).length (s.ports.of p) with ⟨kept, f⟩
  refine ⟨kept, f, rfl, ?_⟩
  cases f with
  | incomplete => exact Or.inl ⟨rfl, by simp [servePort, hk]⟩
  | illegal e w rest => exact Or.inr (Or.inl ⟨e, w, rest, rfl, by simp [servePort, hk]⟩)
  | command i rest => exact Or.inr (Or.inr ⟨i, rest, rfl, firstServable_command hk, by simp [servePort, hk]⟩)

/-- What a sequencer's move can do: stop, wait, or apply its table to the state after the response. -/
theorem sequencerMove_eq_next {o : Origin} {ag : Agent} {command : Option Instr} {table stop : State → State}
    {s s' : State} (h : sequencerMove o ag command table stop s = .next s') :
    (s.waiting.of ag = none ∧ command = none ∧ s' = stop s) ∨
    (∃ s1, ((s.waiting.of ag).isSome = true ∧
          resumeAgent ag { s with now := { s.now with origin := o } } = .next s1 ∨
        s.waiting.of ag = none ∧ ∃ i, command = some i ∧ exec i { s with now := { s.now with origin := o } } = .next s1) ∧
      ((s1.waiting.of ag).isSome = true ∧ s' = s1 ∨ s1.waiting.of ag = none ∧ s' = table s1)) := by
  unfold sequencerMove at h
  cases hw : s.waiting.of ag with
  | none =>
    rw [hw] at h
    cases command with
    | none =>
      left
      simp at h
      exact ⟨rfl, rfl, h.symm⟩
    | some i =>
      right
      simp [andThen_eq_next] at h
      obtain ⟨s1, h1, h2⟩ := h
      refine ⟨s1, Or.inr ⟨rfl, i, rfl, h1⟩, ?_⟩
      split at h2
      · next hs => cases h2; exact Or.inl ⟨hs, rfl⟩
      · next hs => cases h2; exact Or.inr ⟨by simpa using hs, rfl⟩
  | some j =>
    right
    rw [hw] at h
    simp [andThen_eq_next] at h
    obtain ⟨s1, h1, h2⟩ := h
    refine ⟨s1, Or.inl ⟨rfl, h1⟩, ?_⟩
    split at h2
    · next hs => cases h2; exact Or.inl ⟨hs, rfl⟩
    · next hs => cases h2; exact Or.inr ⟨by simpa using hs, rfl⟩

end Sys2Proof.Laws
end

