-- ==== Sys2Proof/Laws/PerInstr.lean ====
section
/-! SUPPORT. What holds of every operation as syntax, one lemma per constructor. -/

namespace Sys2Proof.Laws.HeadWord

/-- The words of a command are as many as its command word says (spec/30_encoding.md R90, R99), and the command word
names the command's agent (R91). -/
def Statement (i : Instr) : Prop :=
  i.wellFormed = true →
    (encode i).length = commandLength ((encode i).headD 0) ∧ agOf ((encode i).headD 0) = agentCode i.agent

theorem nop (ag : Agent) : Statement (.nop ag) := by
  simp [Statement, encode, commandLength, Instr.agent]

theorem cfgr (ag : Agent) (r : BitVec 8) : Statement (.cfgr ag r) := by
  simp [Statement, encode, commandLength, Instr.agent]

theorem cfgw (ag : Agent) (r : BitVec 8) (v : Word) : Statement (.cfgw ag r v) := by
  simp [Statement, encode, commandLength, Instr.agent]

theorem start (ag : Agent) : Statement (.start ag) := by
  simp [Statement, encode, commandLength, Instr.agent]

theorem acqf (ag : Agent) (wm : WaitMode) : Statement (.acqf ag wm) := by
  simp [Statement, encode, commandLength, Instr.agent]

theorem pubb (ag : Agent) (wm : WaitMode) (t : Token) : Statement (.pubb ag wm t) := by
  simp [Statement, encode, commandLength, Instr.agent]

theorem takb (ag : Agent) (wm : WaitMode) : Statement (.takb ag wm) := by
  simp [Statement, encode, commandLength, Instr.agent]

theorem relf (ag : Agent) (t : Token) : Statement (.relf ag t) := by
  simp [Statement, encode, commandLength, Instr.agent]

theorem fst (ag : Agent) (t : Token) (i : BitVec 12) (v : Word) : Statement (.fst ag t i v) := by
  simp [Statement, encode, commandLength, Instr.agent]

theorem fld (ag : Agent) (t : Token) (i : BitVec 12) : Statement (.fld ag t i) := by
  simp [Statement, encode, commandLength, Instr.agent]

theorem caprd (ag : Agent) (wm : WaitMode) (t : Token) : Statement (.caprd ag wm t) := by
  simp [Statement, encode, commandLength, Instr.agent]

theorem conv (ag : Agent) (v : Word) : Statement (.conv ag v) := by
  simp [Statement, encode, commandLength, Instr.agent]

theorem scale (ag : Agent) (u : BitVec 16) : Statement (.scale ag u) := by
  simp [Statement, encode, commandLength, Instr.agent]

theorem lpf (ag : Agent) (x : Pcm) : Statement (.lpf ag x) := by
  simp [Statement, encode, commandLength, Instr.agent]

theorem gate (ag : Agent) (x : Pcm) : Statement (.gate ag x) := by
  simp [Statement, encode, commandLength, Instr.agent]

theorem fidle (ag : Agent) (t : Token) : Statement (.fidle ag t) := by
  simp [Statement, encode, commandLength, Instr.agent]

theorem oclr (ag : Agent) : Statement (.oclr ag) := by
  simp [Statement, encode, commandLength, Instr.agent]

theorem rpop (ag : Agent) (wm : WaitMode) : Statement (.rpop ag wm) := by
  simp [Statement, encode, commandLength, Instr.agent]

theorem mixf (ag : Agent) (t : Token) : Statement (.mixf ag t) := by
  simp [Statement, encode, commandLength, Instr.agent]

theorem sinkw (ag : Agent) (wm : WaitMode) : Statement (.sinkw ag wm) := by
  simp [Statement, encode, commandLength, Instr.agent]

theorem old (ag : Agent) (i : BitVec 12) : Statement (.old ag i) := by
  simp [Statement, encode, commandLength, Instr.agent]

theorem rpush (ag : Agent) (len : BitVec 16) (payload : List Word) : Statement (.rpush ag len payload) := by
  intro h
  have h : payload.length = payloadWords len := by simpa [Instr.wellFormed] using h
  simp [encode, commandLength, Instr.agent, h, Nat.add_comm]

theorem sevt (ag : Agent) (ev : SessionEvent) : Statement (.sevt ag ev) := by
  simp [Statement, encode, commandLength, Instr.agent]

end Sys2Proof.Laws.HeadWord
end

