-- ==== Sys2Proof/Laws/State.lean ====
section
/-! SUPPORT. What each named update of the state leaves in each field: one lemma per field per update, so that no proof
unfolds a record update. -/

namespace Sys2Proof.Laws

open Sys2Proof.Machine

variable (s : State)


/-! ### `withFaultBit` -/

@[simp] theorem State.withFaultBit_params (c : Cause) : (s.withFaultBit c).params = s.params := rfl
@[simp] theorem State.withFaultBit_fm (c : Cause) : (s.withFaultBit c).fm = s.fm := rfl
@[simp] theorem State.withFaultBit_pool (c : Cause) : (s.withFaultBit c).pool = s.pool := rfl
@[simp] theorem State.withFaultBit_ring (c : Cause) : (s.withFaultBit c).ring = s.ring := rfl
@[simp] theorem State.withFaultBit_play (c : Cause) : (s.withFaultBit c).play = s.play := rfl
@[simp] theorem State.withFaultBit_out (c : Cause) : (s.withFaultBit c).out = s.out := rfl
@[simp] theorem State.withFaultBit_filter (c : Cause) : (s.withFaultBit c).filter = s.filter := rfl
@[simp] theorem State.withFaultBit_cfg (c : Cause) : (s.withFaultBit c).cfg = s.cfg := rfl
@[simp] theorem State.withFaultBit_caldone (c : Cause) : (s.withFaultBit c).caldone = s.caldone := rfl
@[simp] theorem State.withFaultBit_phase (c : Cause) : (s.withFaultBit c).phase = s.phase := rfl
@[simp] theorem State.withFaultBit_evt (c : Cause) : (s.withFaultBit c).evt = s.evt := rfl
@[simp] theorem State.withFaultBit_fault (c : Cause) : (s.withFaultBit c).fault = s.fault ||| causeMask c := rfl
@[simp] theorem State.withFaultBit_seq (c : Cause) : (s.withFaultBit c).seq = s.seq := rfl
@[simp] theorem State.withFaultBit_waiting (c : Cause) : (s.withFaultBit c).waiting = s.waiting := rfl
@[simp] theorem State.withFaultBit_ports (c : Cause) : (s.withFaultBit c).ports = s.ports := rfl
@[simp] theorem State.withFaultBit_log (c : Cause) : (s.withFaultBit c).log = s.log := rfl
@[simp] theorem State.withFaultBit_now (c : Cause) : (s.withFaultBit c).now = s.now := rfl
@[simp] theorem State.withFaultBit_agenda (c : Cause) : (s.withFaultBit c).agenda = s.agenda := rfl
@[simp] theorem State.withFaultBit_tick (c : Cause) : (s.withFaultBit c).tick = s.tick := rfl

/-! ### `withCapfail` -/

@[simp] theorem State.withCapfail_params : (s.withCapfail).params = s.params := rfl
@[simp] theorem State.withCapfail_fm : (s.withCapfail).fm = s.fm := rfl
@[simp] theorem State.withCapfail_pool : (s.withCapfail).pool = s.pool := rfl
@[simp] theorem State.withCapfail_ring : (s.withCapfail).ring = s.ring := rfl
@[simp] theorem State.withCapfail_play : (s.withCapfail).play = s.play := rfl
@[simp] theorem State.withCapfail_out : (s.withCapfail).out = s.out := rfl
@[simp] theorem State.withCapfail_filter : (s.withCapfail).filter = s.filter := rfl
@[simp] theorem State.withCapfail_cfg : (s.withCapfail).cfg = s.cfg := rfl
@[simp] theorem State.withCapfail_caldone : (s.withCapfail).caldone = s.caldone := rfl
@[simp] theorem State.withCapfail_phase : (s.withCapfail).phase = s.phase := rfl
@[simp] theorem State.withCapfail_evt : (s.withCapfail).evt = { s.evt with capfail := true } := rfl
@[simp] theorem State.withCapfail_fault : (s.withCapfail).fault = s.fault := rfl
@[simp] theorem State.withCapfail_seq : (s.withCapfail).seq = s.seq := rfl
@[simp] theorem State.withCapfail_waiting : (s.withCapfail).waiting = s.waiting := rfl
@[simp] theorem State.withCapfail_ports : (s.withCapfail).ports = s.ports := rfl
@[simp] theorem State.withCapfail_log : (s.withCapfail).log = s.log := rfl
@[simp] theorem State.withCapfail_now : (s.withCapfail).now = s.now := rfl
@[simp] theorem State.withCapfail_agenda : (s.withCapfail).agenda = s.agenda := rfl
@[simp] theorem State.withCapfail_tick : (s.withCapfail).tick = s.tick := rfl

/-! ### `withSinkmiss` -/

@[simp] theorem State.withSinkmiss_params : (s.withSinkmiss).params = s.params := rfl
@[simp] theorem State.withSinkmiss_fm : (s.withSinkmiss).fm = s.fm := rfl
@[simp] theorem State.withSinkmiss_pool : (s.withSinkmiss).pool = s.pool := rfl
@[simp] theorem State.withSinkmiss_ring : (s.withSinkmiss).ring = s.ring := rfl
@[simp] theorem State.withSinkmiss_play : (s.withSinkmiss).play = s.play := rfl
@[simp] theorem State.withSinkmiss_out : (s.withSinkmiss).out = s.out := rfl
@[simp] theorem State.withSinkmiss_filter : (s.withSinkmiss).filter = s.filter := rfl
@[simp] theorem State.withSinkmiss_cfg : (s.withSinkmiss).cfg = s.cfg := rfl
@[simp] theorem State.withSinkmiss_caldone : (s.withSinkmiss).caldone = s.caldone := rfl
@[simp] theorem State.withSinkmiss_phase : (s.withSinkmiss).phase = s.phase := rfl
@[simp] theorem State.withSinkmiss_evt : (s.withSinkmiss).evt = { s.evt with sinkmiss := true } := rfl
@[simp] theorem State.withSinkmiss_fault : (s.withSinkmiss).fault = s.fault := rfl
@[simp] theorem State.withSinkmiss_seq : (s.withSinkmiss).seq = s.seq := rfl
@[simp] theorem State.withSinkmiss_waiting : (s.withSinkmiss).waiting = s.waiting := rfl
@[simp] theorem State.withSinkmiss_ports : (s.withSinkmiss).ports = s.ports := rfl
@[simp] theorem State.withSinkmiss_log : (s.withSinkmiss).log = s.log := rfl
@[simp] theorem State.withSinkmiss_now : (s.withSinkmiss).now = s.now := rfl
@[simp] theorem State.withSinkmiss_agenda : (s.withSinkmiss).agenda = s.agenda := rfl
@[simp] theorem State.withSinkmiss_tick : (s.withSinkmiss).tick = s.tick := rfl

/-! ### `withIdle` -/

@[simp] theorem State.withIdle_params (v : BitVec 16) : (s.withIdle v).params = s.params := rfl
@[simp] theorem State.withIdle_fm (v : BitVec 16) : (s.withIdle v).fm = s.fm := rfl
@[simp] theorem State.withIdle_pool (v : BitVec 16) : (s.withIdle v).pool = s.pool := rfl
@[simp] theorem State.withIdle_ring (v : BitVec 16) : (s.withIdle v).ring = s.ring := rfl
@[simp] theorem State.withIdle_play (v : BitVec 16) : (s.withIdle v).play = s.play := rfl
@[simp] theorem State.withIdle_out (v : BitVec 16) : (s.withIdle v).out = s.out := rfl
@[simp] theorem State.withIdle_filter (v : BitVec 16) : (s.withIdle v).filter = s.filter := rfl
@[simp] theorem State.withIdle_cfg (v : BitVec 16) : (s.withIdle v).cfg = { s.cfg with idle := v } := rfl
@[simp] theorem State.withIdle_caldone (v : BitVec 16) : (s.withIdle v).caldone = true := rfl
@[simp] theorem State.withIdle_phase (v : BitVec 16) : (s.withIdle v).phase = s.phase := rfl
@[simp] theorem State.withIdle_evt (v : BitVec 16) : (s.withIdle v).evt = s.evt := rfl
@[simp] theorem State.withIdle_fault (v : BitVec 16) : (s.withIdle v).fault = s.fault := rfl
@[simp] theorem State.withIdle_seq (v : BitVec 16) : (s.withIdle v).seq = s.seq := rfl
@[simp] theorem State.withIdle_waiting (v : BitVec 16) : (s.withIdle v).waiting = s.waiting := rfl
@[simp] theorem State.withIdle_ports (v : BitVec 16) : (s.withIdle v).ports = s.ports := rfl
@[simp] theorem State.withIdle_log (v : BitVec 16) : (s.withIdle v).log = s.log := rfl
@[simp] theorem State.withIdle_now (v : BitVec 16) : (s.withIdle v).now = s.now := rfl
@[simp] theorem State.withIdle_agenda (v : BitVec 16) : (s.withIdle v).agenda = s.agenda := rfl
@[simp] theorem State.withIdle_tick (v : BitVec 16) : (s.withIdle v).tick = s.tick := rfl

/-! ### `withSlot` -/

@[simp] theorem State.withSlot_params (t : Token) (i : Nat) (v : Slot) : (s.withSlot t i v).params = s.params := rfl
@[simp] theorem State.withSlot_fm (t : Token) (i : Nat) (v : Slot) :
    (s.withSlot t i v).fm =
      Memory.put s.fm (slotAddr s t i) (some v) := rfl
@[simp] theorem State.withSlot_pool (t : Token) (i : Nat) (v : Slot) : (s.withSlot t i v).pool = s.pool := rfl
@[simp] theorem State.withSlot_ring (t : Token) (i : Nat) (v : Slot) : (s.withSlot t i v).ring = s.ring := rfl
@[simp] theorem State.withSlot_play (t : Token) (i : Nat) (v : Slot) : (s.withSlot t i v).play = s.play := rfl
@[simp] theorem State.withSlot_out (t : Token) (i : Nat) (v : Slot) : (s.withSlot t i v).out = s.out := rfl
@[simp] theorem State.withSlot_filter (t : Token) (i : Nat) (v : Slot) : (s.withSlot t i v).filter = s.filter := rfl
@[simp] theorem State.withSlot_cfg (t : Token) (i : Nat) (v : Slot) : (s.withSlot t i v).cfg = s.cfg := rfl
@[simp] theorem State.withSlot_caldone (t : Token) (i : Nat) (v : Slot) : (s.withSlot t i v).caldone = s.caldone := rfl
@[simp] theorem State.withSlot_phase (t : Token) (i : Nat) (v : Slot) : (s.withSlot t i v).phase = s.phase := rfl
@[simp] theorem State.withSlot_evt (t : Token) (i : Nat) (v : Slot) : (s.withSlot t i v).evt = s.evt := rfl
@[simp] theorem State.withSlot_fault (t : Token) (i : Nat) (v : Slot) : (s.withSlot t i v).fault = s.fault := rfl
@[simp] theorem State.withSlot_seq (t : Token) (i : Nat) (v : Slot) : (s.withSlot t i v).seq = s.seq := rfl
@[simp] theorem State.withSlot_waiting (t : Token) (i : Nat) (v : Slot) : (s.withSlot t i v).waiting = s.waiting := rfl
@[simp] theorem State.withSlot_ports (t : Token) (i : Nat) (v : Slot) : (s.withSlot t i v).ports = s.ports := rfl
@[simp] theorem State.withSlot_log (t : Token) (i : Nat) (v : Slot) : (s.withSlot t i v).log = s.log := rfl
@[simp] theorem State.withSlot_now (t : Token) (i : Nat) (v : Slot) : (s.withSlot t i v).now = s.now := rfl
@[simp] theorem State.withSlot_agenda (t : Token) (i : Nat) (v : Slot) : (s.withSlot t i v).agenda = s.agenda := rfl
@[simp] theorem State.withSlot_tick (t : Token) (i : Nat) (v : Slot) : (s.withSlot t i v).tick = s.tick := rfl

/-! ### `withFrame` -/

@[simp] theorem State.withFrame_params (t : Token) (d : List (Option Slot)) : (s.withFrame t d).params = s.params := rfl
@[simp] theorem State.withFrame_fm (t : Token) (d : List (Option Slot)) :
    (s.withFrame t d).fm =
      Memory.putAll s.fm (slotAddr s t 0) d := rfl
@[simp] theorem State.withFrame_pool (t : Token) (d : List (Option Slot)) : (s.withFrame t d).pool = s.pool := rfl
@[simp] theorem State.withFrame_ring (t : Token) (d : List (Option Slot)) : (s.withFrame t d).ring = s.ring := rfl
@[simp] theorem State.withFrame_play (t : Token) (d : List (Option Slot)) : (s.withFrame t d).play = s.play := rfl
@[simp] theorem State.withFrame_out (t : Token) (d : List (Option Slot)) : (s.withFrame t d).out = s.out := rfl
@[simp] theorem State.withFrame_filter (t : Token) (d : List (Option Slot)) : (s.withFrame t d).filter = s.filter := rfl
@[simp] theorem State.withFrame_cfg (t : Token) (d : List (Option Slot)) : (s.withFrame t d).cfg = s.cfg := rfl
@[simp] theorem State.withFrame_caldone (t : Token) (d : List (Option Slot)) :
    (s.withFrame t d).caldone =
      s.caldone := rfl
@[simp] theorem State.withFrame_phase (t : Token) (d : List (Option Slot)) : (s.withFrame t d).phase = s.phase := rfl
@[simp] theorem State.withFrame_evt (t : Token) (d : List (Option Slot)) : (s.withFrame t d).evt = s.evt := rfl
@[simp] theorem State.withFrame_fault (t : Token) (d : List (Option Slot)) : (s.withFrame t d).fault = s.fault := rfl
@[simp] theorem State.withFrame_seq (t : Token) (d : List (Option Slot)) : (s.withFrame t d).seq = s.seq := rfl
@[simp] theorem State.withFrame_waiting (t : Token) (d : List (Option Slot)) :
    (s.withFrame t d).waiting =
      s.waiting := rfl
@[simp] theorem State.withFrame_ports (t : Token) (d : List (Option Slot)) : (s.withFrame t d).ports = s.ports := rfl
@[simp] theorem State.withFrame_log (t : Token) (d : List (Option Slot)) : (s.withFrame t d).log = s.log := rfl
@[simp] theorem State.withFrame_now (t : Token) (d : List (Option Slot)) : (s.withFrame t d).now = s.now := rfl
@[simp] theorem State.withFrame_agenda (t : Token) (d : List (Option Slot)) : (s.withFrame t d).agenda = s.agenda := rfl
@[simp] theorem State.withFrame_tick (t : Token) (d : List (Option Slot)) : (s.withFrame t d).tick = s.tick := rfl

/-! ### `withUndefFrame` -/

@[simp] theorem State.withUndefFrame_params (t : Token) : (s.withUndefFrame t).params = s.params := rfl
@[simp] theorem State.withUndefFrame_fm (t : Token) :
    (s.withUndefFrame t).fm =
      Memory.putAll s.fm (slotAddr s t 0) (List.replicate s.params.frameLen none) := rfl
@[simp] theorem State.withUndefFrame_pool (t : Token) : (s.withUndefFrame t).pool = s.pool := rfl
@[simp] theorem State.withUndefFrame_ring (t : Token) : (s.withUndefFrame t).ring = s.ring := rfl
@[simp] theorem State.withUndefFrame_play (t : Token) : (s.withUndefFrame t).play = s.play := rfl
@[simp] theorem State.withUndefFrame_out (t : Token) : (s.withUndefFrame t).out = s.out := rfl
@[simp] theorem State.withUndefFrame_filter (t : Token) : (s.withUndefFrame t).filter = s.filter := rfl
@[simp] theorem State.withUndefFrame_cfg (t : Token) : (s.withUndefFrame t).cfg = s.cfg := rfl
@[simp] theorem State.withUndefFrame_caldone (t : Token) : (s.withUndefFrame t).caldone = s.caldone := rfl
@[simp] theorem State.withUndefFrame_phase (t : Token) : (s.withUndefFrame t).phase = s.phase := rfl
@[simp] theorem State.withUndefFrame_evt (t : Token) : (s.withUndefFrame t).evt = s.evt := rfl
@[simp] theorem State.withUndefFrame_fault (t : Token) : (s.withUndefFrame t).fault = s.fault := rfl
@[simp] theorem State.withUndefFrame_seq (t : Token) : (s.withUndefFrame t).seq = s.seq := rfl
@[simp] theorem State.withUndefFrame_waiting (t : Token) : (s.withUndefFrame t).waiting = s.waiting := rfl
@[simp] theorem State.withUndefFrame_ports (t : Token) : (s.withUndefFrame t).ports = s.ports := rfl
@[simp] theorem State.withUndefFrame_log (t : Token) : (s.withUndefFrame t).log = s.log := rfl
@[simp] theorem State.withUndefFrame_now (t : Token) : (s.withUndefFrame t).now = s.now := rfl
@[simp] theorem State.withUndefFrame_agenda (t : Token) : (s.withUndefFrame t).agenda = s.agenda := rfl
@[simp] theorem State.withUndefFrame_tick (t : Token) : (s.withUndefFrame t).tick = s.tick := rfl

/-! ### `withWaiting` -/

@[simp] theorem State.withWaiting_params (ag : Agent) (o : Option Instr) :
    (s.withWaiting ag o).params =
      s.params := by cases ag <;> rfl
@[simp] theorem State.withWaiting_fm (ag : Agent) (o : Option Instr) :
    (s.withWaiting ag o).fm =
      s.fm := by cases ag <;> rfl
@[simp] theorem State.withWaiting_pool (ag : Agent) (o : Option Instr) :
    (s.withWaiting ag o).pool =
      s.pool := by cases ag <;> rfl
@[simp] theorem State.withWaiting_ring (ag : Agent) (o : Option Instr) :
    (s.withWaiting ag o).ring =
      s.ring := by cases ag <;> rfl
@[simp] theorem State.withWaiting_play (ag : Agent) (o : Option Instr) :
    (s.withWaiting ag o).play =
      s.play := by cases ag <;> rfl
@[simp] theorem State.withWaiting_out (ag : Agent) (o : Option Instr) :
    (s.withWaiting ag o).out =
      s.out := by cases ag <;> rfl
@[simp] theorem State.withWaiting_filter (ag : Agent) (o : Option Instr) :
    (s.withWaiting ag o).filter =
      s.filter := by cases ag <;> rfl
@[simp] theorem State.withWaiting_cfg (ag : Agent) (o : Option Instr) :
    (s.withWaiting ag o).cfg =
      s.cfg := by cases ag <;> rfl
@[simp] theorem State.withWaiting_caldone (ag : Agent) (o : Option Instr) :
    (s.withWaiting ag o).caldone =
      s.caldone := by cases ag <;> rfl
@[simp] theorem State.withWaiting_phase (ag : Agent) (o : Option Instr) :
    (s.withWaiting ag o).phase =
      s.phase := by cases ag <;> rfl
@[simp] theorem State.withWaiting_evt (ag : Agent) (o : Option Instr) :
    (s.withWaiting ag o).evt =
      s.evt := by cases ag <;> rfl
@[simp] theorem State.withWaiting_fault (ag : Agent) (o : Option Instr) :
    (s.withWaiting ag o).fault =
      s.fault := by cases ag <;> rfl
@[simp] theorem State.withWaiting_seq (ag : Agent) (o : Option Instr) :
    (s.withWaiting ag o).seq =
      s.seq := by cases ag <;> rfl
@[simp] theorem State.withWaiting_ports (ag : Agent) (o : Option Instr) :
    (s.withWaiting ag o).ports =
      s.ports := by cases ag <;> rfl
@[simp] theorem State.withWaiting_log (ag : Agent) (o : Option Instr) :
    (s.withWaiting ag o).log =
      s.log := by cases ag <;> rfl
@[simp] theorem State.withWaiting_now (ag : Agent) (o : Option Instr) :
    (s.withWaiting ag o).now =
      s.now := by cases ag <;> rfl
@[simp] theorem State.withWaiting_agenda (ag : Agent) (o : Option Instr) :
    (s.withWaiting ag o).agenda =
      s.agenda := by cases ag <;> rfl
@[simp] theorem State.withWaiting_tick (ag : Agent) (o : Option Instr) :
    (s.withWaiting ag o).tick =
      s.tick := by cases ag <;> rfl
@[simp] theorem State.withWaiting_waiting_C (o : Option Instr) :
    (s.withWaiting .C o).waiting = { s.waiting with opC := o } := rfl
@[simp] theorem State.withWaiting_waiting_M (o : Option Instr) :
    (s.withWaiting .M o).waiting = { s.waiting with opM := o } := rfl

/-! ### `answered` -/

@[simp] theorem State.answered_params (ag : Agent) (st : Status) (v : Word) :
    (s.answered ag st v).params =
      s.params := rfl
@[simp] theorem State.answered_fm (ag : Agent) (st : Status) (v : Word) : (s.answered ag st v).fm = s.fm := rfl
@[simp] theorem State.answered_pool (ag : Agent) (st : Status) (v : Word) : (s.answered ag st v).pool = s.pool := rfl
@[simp] theorem State.answered_ring (ag : Agent) (st : Status) (v : Word) : (s.answered ag st v).ring = s.ring := rfl
@[simp] theorem State.answered_play (ag : Agent) (st : Status) (v : Word) : (s.answered ag st v).play = s.play := rfl
@[simp] theorem State.answered_out (ag : Agent) (st : Status) (v : Word) : (s.answered ag st v).out = s.out := rfl
@[simp] theorem State.answered_filter (ag : Agent) (st : Status) (v : Word) :
    (s.answered ag st v).filter =
      s.filter := rfl
@[simp] theorem State.answered_cfg (ag : Agent) (st : Status) (v : Word) : (s.answered ag st v).cfg = s.cfg := rfl
@[simp] theorem State.answered_caldone (ag : Agent) (st : Status) (v : Word) :
    (s.answered ag st v).caldone =
      s.caldone := rfl
@[simp] theorem State.answered_phase (ag : Agent) (st : Status) (v : Word) : (s.answered ag st v).phase = s.phase := rfl
@[simp] theorem State.answered_evt (ag : Agent) (st : Status) (v : Word) : (s.answered ag st v).evt = s.evt := rfl
@[simp] theorem State.answered_fault (ag : Agent) (st : Status) (v : Word) : (s.answered ag st v).fault = s.fault := rfl
@[simp] theorem State.answered_seq (ag : Agent) (st : Status) (v : Word) : (s.answered ag st v).seq = s.seq := rfl
@[simp] theorem State.answered_waiting (ag : Agent) (st : Status) (v : Word) :
    (s.answered ag st v).waiting =
      s.waiting := rfl
@[simp] theorem State.answered_ports (ag : Agent) (st : Status) (v : Word) : (s.answered ag st v).ports = s.ports := rfl
@[simp] theorem State.answered_log (ag : Agent) (st : Status) (v : Word) :
    (s.answered ag st v).log =
      { s.log with responses := s.log.responses ++ [⟨s.now.origin, agentCode ag, st, v⟩] } := rfl
@[simp] theorem State.answered_now (ag : Agent) (st : Status) (v : Word) : (s.answered ag st v).now = s.now := rfl
@[simp] theorem State.answered_agenda (ag : Agent) (st : Status) (v : Word) :
    (s.answered ag st v).agenda =
      s.agenda := rfl
@[simp] theorem State.answered_tick (ag : Agent) (st : Status) (v : Word) : (s.answered ag st v).tick = s.tick := rfl

/-! ### `faulted` -/

@[simp] theorem State.faulted_params (ag : Agent) (c : Cause) : (s.faulted ag c).params = s.params := rfl
@[simp] theorem State.faulted_fm (ag : Agent) (c : Cause) : (s.faulted ag c).fm = s.fm := rfl
@[simp] theorem State.faulted_pool (ag : Agent) (c : Cause) : (s.faulted ag c).pool = s.pool := rfl
@[simp] theorem State.faulted_ring (ag : Agent) (c : Cause) : (s.faulted ag c).ring = s.ring := rfl
@[simp] theorem State.faulted_play (ag : Agent) (c : Cause) : (s.faulted ag c).play = s.play := rfl
@[simp] theorem State.faulted_out (ag : Agent) (c : Cause) : (s.faulted ag c).out = s.out := rfl
@[simp] theorem State.faulted_filter (ag : Agent) (c : Cause) : (s.faulted ag c).filter = s.filter := rfl
@[simp] theorem State.faulted_cfg (ag : Agent) (c : Cause) : (s.faulted ag c).cfg = s.cfg := rfl
@[simp] theorem State.faulted_caldone (ag : Agent) (c : Cause) : (s.faulted ag c).caldone = s.caldone := rfl
@[simp] theorem State.faulted_phase (ag : Agent) (c : Cause) : (s.faulted ag c).phase = s.phase := rfl
@[simp] theorem State.faulted_evt (ag : Agent) (c : Cause) : (s.faulted ag c).evt = s.evt := rfl
@[simp] theorem State.faulted_fault (ag : Agent) (c : Cause) : (s.faulted ag c).fault = s.fault ||| causeMask c := rfl
@[simp] theorem State.faulted_seq (ag : Agent) (c : Cause) : (s.faulted ag c).seq = s.seq := rfl
@[simp] theorem State.faulted_waiting (ag : Agent) (c : Cause) : (s.faulted ag c).waiting = s.waiting := rfl
@[simp] theorem State.faulted_ports (ag : Agent) (c : Cause) : (s.faulted ag c).ports = s.ports := rfl
@[simp] theorem State.faulted_log (ag : Agent) (c : Cause) :
    (s.faulted ag c).log =
      { s.log with responses := s.log.responses ++ [⟨s.now.origin, agentCode ag, .fault, (causeMask c).setWidth 32⟩] } := rfl
@[simp] theorem State.faulted_now (ag : Agent) (c : Cause) : (s.faulted ag c).now = s.now := rfl
@[simp] theorem State.faulted_agenda (ag : Agent) (c : Cause) : (s.faulted ag c).agenda = s.agenda := rfl
@[simp] theorem State.faulted_tick (ag : Agent) (c : Cause) : (s.faulted ag c).tick = s.tick := rfl

/-! ### `illegalFaulted` -/

@[simp] theorem State.illegalFaulted_params (ag : BitVec 3) : (s.illegalFaulted ag).params = s.params := rfl
@[simp] theorem State.illegalFaulted_fm (ag : BitVec 3) : (s.illegalFaulted ag).fm = s.fm := rfl
@[simp] theorem State.illegalFaulted_pool (ag : BitVec 3) : (s.illegalFaulted ag).pool = s.pool := rfl
@[simp] theorem State.illegalFaulted_ring (ag : BitVec 3) : (s.illegalFaulted ag).ring = s.ring := rfl
@[simp] theorem State.illegalFaulted_play (ag : BitVec 3) : (s.illegalFaulted ag).play = s.play := rfl
@[simp] theorem State.illegalFaulted_out (ag : BitVec 3) : (s.illegalFaulted ag).out = s.out := rfl
@[simp] theorem State.illegalFaulted_filter (ag : BitVec 3) : (s.illegalFaulted ag).filter = s.filter := rfl
@[simp] theorem State.illegalFaulted_cfg (ag : BitVec 3) : (s.illegalFaulted ag).cfg = s.cfg := rfl
@[simp] theorem State.illegalFaulted_caldone (ag : BitVec 3) : (s.illegalFaulted ag).caldone = s.caldone := rfl
@[simp] theorem State.illegalFaulted_phase (ag : BitVec 3) : (s.illegalFaulted ag).phase = s.phase := rfl
@[simp] theorem State.illegalFaulted_evt (ag : BitVec 3) : (s.illegalFaulted ag).evt = s.evt := rfl
@[simp] theorem State.illegalFaulted_fault (ag : BitVec 3) :
    (s.illegalFaulted ag).fault =
      s.fault ||| causeMask .illop := rfl
@[simp] theorem State.illegalFaulted_seq (ag : BitVec 3) : (s.illegalFaulted ag).seq = s.seq := rfl
@[simp] theorem State.illegalFaulted_waiting (ag : BitVec 3) : (s.illegalFaulted ag).waiting = s.waiting := rfl
@[simp] theorem State.illegalFaulted_ports (ag : BitVec 3) : (s.illegalFaulted ag).ports = s.ports := rfl
@[simp] theorem State.illegalFaulted_log (ag : BitVec 3) :
    (s.illegalFaulted ag).log =
      { s.log with responses := s.log.responses ++ [⟨s.now.origin, ag, .fault, (causeMask .illop).setWidth 32⟩] } := rfl
@[simp] theorem State.illegalFaulted_now (ag : BitVec 3) : (s.illegalFaulted ag).now = s.now := rfl
@[simp] theorem State.illegalFaulted_agenda (ag : BitVec 3) : (s.illegalFaulted ag).agenda = s.agenda := rfl
@[simp] theorem State.illegalFaulted_tick (ag : BitVec 3) : (s.illegalFaulted ag).tick = s.tick := rfl

/-! ### `reinitialised` -/

@[simp] theorem State.reinitialised_params : (s.reinitialised).params = s.params := rfl
@[simp] theorem State.reinitialised_fm : (s.reinitialised).fm = s.fm := rfl
@[simp] theorem State.reinitialised_pool : (s.reinitialised).pool = Pool.seeded s.params.depth := rfl
@[simp] theorem State.reinitialised_ring : (s.reinitialised).ring = s.ring := rfl
@[simp] theorem State.reinitialised_play : (s.reinitialised).play = s.play := rfl
@[simp] theorem State.reinitialised_out : (s.reinitialised).out = [] := rfl
@[simp] theorem State.reinitialised_filter : (s.reinitialised).filter = Filter.zero := rfl
@[simp] theorem State.reinitialised_cfg : (s.reinitialised).cfg = s.cfg := rfl
@[simp] theorem State.reinitialised_caldone : (s.reinitialised).caldone = s.caldone := rfl
@[simp] theorem State.reinitialised_phase : (s.reinitialised).phase = s.phase := rfl
@[simp] theorem State.reinitialised_evt : (s.reinitialised).evt = s.evt := rfl
@[simp] theorem State.reinitialised_fault : (s.reinitialised).fault = s.fault := rfl
@[simp] theorem State.reinitialised_seq : (s.reinitialised).seq = Seq.reset := rfl
@[simp] theorem State.reinitialised_waiting : (s.reinitialised).waiting = s.waiting := rfl
@[simp] theorem State.reinitialised_ports : (s.reinitialised).ports = s.ports := rfl
@[simp] theorem State.reinitialised_log : (s.reinitialised).log = s.log := rfl
@[simp] theorem State.reinitialised_now : (s.reinitialised).now = s.now := rfl
@[simp] theorem State.reinitialised_agenda : (s.reinitialised).agenda = s.agenda := rfl
@[simp] theorem State.reinitialised_tick : (s.reinitialised).tick = s.tick := rfl

/-! ### `started` -/

@[simp] theorem State.started_params :
    (s.started).params =
      s.params := by unfold State.started; cases s.cfg.pathcfg.calEn <;> rfl
@[simp] theorem State.started_fm : (s.started).fm = s.fm := by unfold State.started; cases s.cfg.pathcfg.calEn <;> rfl
@[simp] theorem State.started_pool :
    (s.started).pool =
      Pool.seeded s.params.depth := by unfold State.started; cases s.cfg.pathcfg.calEn <;> rfl
@[simp] theorem State.started_ring :
    (s.started).ring =
      s.ring := by unfold State.started; cases s.cfg.pathcfg.calEn <;> rfl
@[simp] theorem State.started_play :
    (s.started).play =
      s.play := by unfold State.started; cases s.cfg.pathcfg.calEn <;> rfl
@[simp] theorem State.started_out : (s.started).out = [] := by unfold State.started; cases s.cfg.pathcfg.calEn <;> rfl
@[simp] theorem State.started_filter :
    (s.started).filter =
      Filter.zero := by unfold State.started; cases s.cfg.pathcfg.calEn <;> rfl
@[simp] theorem State.started_cfg :
    (s.started).cfg =
      s.cfg := by unfold State.started; cases s.cfg.pathcfg.calEn <;> rfl
@[simp] theorem State.started_caldone :
    (s.started).caldone =
      s.caldone := by unfold State.started; cases s.cfg.pathcfg.calEn <;> rfl
@[simp] theorem State.started_phase :
    (s.started).phase =
      if s.cfg.pathcfg.calEn then .boot else .run := by unfold State.started; cases s.cfg.pathcfg.calEn <;> rfl
@[simp] theorem State.started_evt :
    (s.started).evt =
      s.evt := by unfold State.started; cases s.cfg.pathcfg.calEn <;> rfl
@[simp] theorem State.started_fault :
    (s.started).fault =
      s.fault := by unfold State.started; cases s.cfg.pathcfg.calEn <;> rfl
@[simp] theorem State.started_seq :
    (s.started).seq =
      { Seq.reset with bstep := if s.cfg.pathcfg.calEn then .acq else .off } := by unfold State.started; cases s.cfg.pathcfg.calEn <;> rfl
@[simp] theorem State.started_waiting :
    (s.started).waiting =
      s.waiting := by unfold State.started; cases s.cfg.pathcfg.calEn <;> rfl
@[simp] theorem State.started_ports :
    (s.started).ports =
      s.ports := by unfold State.started; cases s.cfg.pathcfg.calEn <;> rfl
@[simp] theorem State.started_log :
    (s.started).log =
      s.log := by unfold State.started; cases s.cfg.pathcfg.calEn <;> rfl
@[simp] theorem State.started_now :
    (s.started).now =
      s.now := by unfold State.started; cases s.cfg.pathcfg.calEn <;> rfl
@[simp] theorem State.started_agenda :
    (s.started).agenda =
      s.agenda := by unfold State.started; cases s.cfg.pathcfg.calEn <;> rfl
@[simp] theorem State.started_tick :
    (s.started).tick =
      s.tick := by unfold State.started; cases s.cfg.pathcfg.calEn <;> rfl

/-! ### `sourceConsumed` -/

@[simp] theorem State.sourceConsumed_params : (s.sourceConsumed).params = s.params := rfl
@[simp] theorem State.sourceConsumed_fm : (s.sourceConsumed).fm = s.fm := rfl
@[simp] theorem State.sourceConsumed_pool : (s.sourceConsumed).pool = s.pool := rfl
@[simp] theorem State.sourceConsumed_ring : (s.sourceConsumed).ring = s.ring := rfl
@[simp] theorem State.sourceConsumed_play : (s.sourceConsumed).play = s.play := rfl
@[simp] theorem State.sourceConsumed_out : (s.sourceConsumed).out = s.out := rfl
@[simp] theorem State.sourceConsumed_filter : (s.sourceConsumed).filter = s.filter := rfl
@[simp] theorem State.sourceConsumed_cfg : (s.sourceConsumed).cfg = s.cfg := rfl
@[simp] theorem State.sourceConsumed_caldone : (s.sourceConsumed).caldone = s.caldone := rfl
@[simp] theorem State.sourceConsumed_phase : (s.sourceConsumed).phase = s.phase := rfl
@[simp] theorem State.sourceConsumed_evt : (s.sourceConsumed).evt = s.evt := rfl
@[simp] theorem State.sourceConsumed_fault : (s.sourceConsumed).fault = s.fault := rfl
@[simp] theorem State.sourceConsumed_seq : (s.sourceConsumed).seq = s.seq := rfl
@[simp] theorem State.sourceConsumed_waiting : (s.sourceConsumed).waiting = s.waiting := rfl
@[simp] theorem State.sourceConsumed_ports : (s.sourceConsumed).ports = s.ports := rfl
@[simp] theorem State.sourceConsumed_log : (s.sourceConsumed).log = s.log := rfl
@[simp] theorem State.sourceConsumed_now : (s.sourceConsumed).now = { s.now with source := .nothing } := rfl
@[simp] theorem State.sourceConsumed_agenda : (s.sourceConsumed).agenda = s.agenda := rfl
@[simp] theorem State.sourceConsumed_tick : (s.sourceConsumed).tick = s.tick := rfl

/-! ### `popped` -/

@[simp] theorem State.popped_params : (s.popped).params = s.params := rfl
@[simp] theorem State.popped_fm : (s.popped).fm = s.fm := rfl
@[simp] theorem State.popped_pool : (s.popped).pool = s.pool := rfl
@[simp] theorem State.popped_ring :
    (s.popped).ring =
      { s.ring with rrd := (s.ring.rrd + popCount s) % s.params.ringCap, rfill := s.ring.rfill - popCount s } := rfl
@[simp] theorem State.popped_play : (s.popped).play = s.play := rfl
@[simp] theorem State.popped_out :
    (s.popped).out =
      putPairs s.out 0 (pairsOfBytes (ringBytes s.ring.rb s.params.ringCap s.ring.rrd (popCount s))) := rfl
@[simp] theorem State.popped_filter : (s.popped).filter = s.filter := rfl
@[simp] theorem State.popped_cfg : (s.popped).cfg = s.cfg := rfl
@[simp] theorem State.popped_caldone : (s.popped).caldone = s.caldone := rfl
@[simp] theorem State.popped_phase : (s.popped).phase = s.phase := rfl
@[simp] theorem State.popped_evt : (s.popped).evt = s.evt := rfl
@[simp] theorem State.popped_fault : (s.popped).fault = s.fault := rfl
@[simp] theorem State.popped_seq : (s.popped).seq = s.seq := rfl
@[simp] theorem State.popped_waiting : (s.popped).waiting = s.waiting := rfl
@[simp] theorem State.popped_ports : (s.popped).ports = s.ports := rfl
@[simp] theorem State.popped_log : (s.popped).log = s.log := rfl
@[simp] theorem State.popped_now : (s.popped).now = s.now := rfl
@[simp] theorem State.popped_agenda : (s.popped).agenda = s.agenda := rfl
@[simp] theorem State.popped_tick : (s.popped).tick = s.tick := rfl

/-! ### `mixed` -/

@[simp] theorem State.mixed_params (xs : List Slot) : (s.mixed xs).params = s.params := rfl
@[simp] theorem State.mixed_fm (xs : List Slot) : (s.mixed xs).fm = s.fm := rfl
@[simp] theorem State.mixed_pool (xs : List Slot) : (s.mixed xs).pool = s.pool := rfl
@[simp] theorem State.mixed_ring (xs : List Slot) : (s.mixed xs).ring = s.ring := rfl
@[simp] theorem State.mixed_play (xs : List Slot) : (s.mixed xs).play = s.play := rfl
@[simp] theorem State.mixed_out (xs : List Slot) : (s.mixed xs).out = (mixSlots s.cfg s.out s.filter 0 xs).1 := rfl
@[simp] theorem State.mixed_filter (xs : List Slot) :
    (s.mixed xs).filter =
      (mixSlots s.cfg s.out s.filter 0 xs).2 := rfl
@[simp] theorem State.mixed_cfg (xs : List Slot) : (s.mixed xs).cfg = s.cfg := rfl
@[simp] theorem State.mixed_caldone (xs : List Slot) : (s.mixed xs).caldone = s.caldone := rfl
@[simp] theorem State.mixed_phase (xs : List Slot) : (s.mixed xs).phase = s.phase := rfl
@[simp] theorem State.mixed_evt (xs : List Slot) : (s.mixed xs).evt = s.evt := rfl
@[simp] theorem State.mixed_fault (xs : List Slot) : (s.mixed xs).fault = s.fault := rfl
@[simp] theorem State.mixed_seq (xs : List Slot) : (s.mixed xs).seq = s.seq := rfl
@[simp] theorem State.mixed_waiting (xs : List Slot) : (s.mixed xs).waiting = s.waiting := rfl
@[simp] theorem State.mixed_ports (xs : List Slot) : (s.mixed xs).ports = s.ports := rfl
@[simp] theorem State.mixed_log (xs : List Slot) : (s.mixed xs).log = s.log := rfl
@[simp] theorem State.mixed_now (xs : List Slot) : (s.mixed xs).now = s.now := rfl
@[simp] theorem State.mixed_agenda (xs : List Slot) : (s.mixed xs).agenda = s.agenda := rfl
@[simp] theorem State.mixed_tick (xs : List Slot) : (s.mixed xs).tick = s.tick := rfl

/-! ### `sunk` -/

@[simp] theorem State.sunk_params : (s.sunk).params = s.params := rfl
@[simp] theorem State.sunk_fm : (s.sunk).fm = s.fm := rfl
@[simp] theorem State.sunk_pool : (s.sunk).pool = s.pool := rfl
@[simp] theorem State.sunk_ring : (s.sunk).ring = s.ring := rfl
@[simp] theorem State.sunk_play : (s.sunk).play = s.play := rfl
@[simp] theorem State.sunk_out : (s.sunk).out = s.out := rfl
@[simp] theorem State.sunk_filter : (s.sunk).filter = s.filter := rfl
@[simp] theorem State.sunk_cfg : (s.sunk).cfg = s.cfg := rfl
@[simp] theorem State.sunk_caldone : (s.sunk).caldone = s.caldone := rfl
@[simp] theorem State.sunk_phase : (s.sunk).phase = s.phase := rfl
@[simp] theorem State.sunk_evt : (s.sunk).evt = s.evt := rfl
@[simp] theorem State.sunk_fault : (s.sunk).fault = s.fault := rfl
@[simp] theorem State.sunk_seq : (s.sunk).seq = s.seq := rfl
@[simp] theorem State.sunk_waiting : (s.sunk).waiting = s.waiting := rfl
@[simp] theorem State.sunk_ports : (s.sunk).ports = s.ports := rfl
@[simp] theorem State.sunk_log : (s.sunk).log = { s.log with sink := s.log.sink ++ [outSamples s] } := rfl
@[simp] theorem State.sunk_now : (s.sunk).now = s.now := rfl
@[simp] theorem State.sunk_agenda : (s.sunk).agenda = s.agenda := rfl
@[simp] theorem State.sunk_tick : (s.sunk).tick = s.tick := rfl

/-! ### `pushed` -/

@[simp] theorem State.pushed_params (c : List Byte) : (s.pushed c).params = s.params := rfl
@[simp] theorem State.pushed_fm (c : List Byte) : (s.pushed c).fm = s.fm := rfl
@[simp] theorem State.pushed_pool (c : List Byte) : (s.pushed c).pool = s.pool := rfl
@[simp] theorem State.pushed_ring (c : List Byte) :
    (s.pushed c).ring =
      { s.ring with
        rb := ringStore s.ring.rb s.params.ringCap (s.ring.rrd + s.ring.rfill) c, rfill := s.ring.rfill + c.length } := rfl
@[simp] theorem State.pushed_play (c : List Byte) : (s.pushed c).play = s.play := rfl
@[simp] theorem State.pushed_out (c : List Byte) : (s.pushed c).out = s.out := rfl
@[simp] theorem State.pushed_filter (c : List Byte) : (s.pushed c).filter = s.filter := rfl
@[simp] theorem State.pushed_cfg (c : List Byte) : (s.pushed c).cfg = s.cfg := rfl
@[simp] theorem State.pushed_caldone (c : List Byte) : (s.pushed c).caldone = s.caldone := rfl
@[simp] theorem State.pushed_phase (c : List Byte) : (s.pushed c).phase = s.phase := rfl
@[simp] theorem State.pushed_evt (c : List Byte) : (s.pushed c).evt = s.evt := rfl
@[simp] theorem State.pushed_fault (c : List Byte) : (s.pushed c).fault = s.fault := rfl
@[simp] theorem State.pushed_seq (c : List Byte) : (s.pushed c).seq = s.seq := rfl
@[simp] theorem State.pushed_waiting (c : List Byte) : (s.pushed c).waiting = s.waiting := rfl
@[simp] theorem State.pushed_ports (c : List Byte) : (s.pushed c).ports = s.ports := rfl
@[simp] theorem State.pushed_log (c : List Byte) : (s.pushed c).log = s.log := rfl
@[simp] theorem State.pushed_now (c : List Byte) : (s.pushed c).now = s.now := rfl
@[simp] theorem State.pushed_agenda (c : List Byte) : (s.pushed c).agenda = s.agenda := rfl
@[simp] theorem State.pushed_tick (c : List Byte) : (s.pushed c).tick = s.tick := rfl

/-! ### `afterEvent` -/

@[simp] theorem State.afterEvent_params (ev : SessionEvent) : (s.afterEvent ev).params = s.params := by cases ev <;> rfl
@[simp] theorem State.afterEvent_fm (ev : SessionEvent) : (s.afterEvent ev).fm = s.fm := by cases ev <;> rfl
@[simp] theorem State.afterEvent_pool (ev : SessionEvent) : (s.afterEvent ev).pool = s.pool := by cases ev <;> rfl
@[simp] theorem State.afterEvent_play (ev : SessionEvent) :
    (s.afterEvent ev).play =
      playAfter s.play ev := by cases ev <;> rfl
@[simp] theorem State.afterEvent_out (ev : SessionEvent) : (s.afterEvent ev).out = s.out := by cases ev <;> rfl
@[simp] theorem State.afterEvent_filter (ev : SessionEvent) : (s.afterEvent ev).filter = s.filter := by cases ev <;> rfl
@[simp] theorem State.afterEvent_cfg (ev : SessionEvent) : (s.afterEvent ev).cfg = s.cfg := by cases ev <;> rfl
@[simp] theorem State.afterEvent_caldone (ev : SessionEvent) :
    (s.afterEvent ev).caldone =
      s.caldone := by cases ev <;> rfl
@[simp] theorem State.afterEvent_phase (ev : SessionEvent) : (s.afterEvent ev).phase = s.phase := by cases ev <;> rfl
@[simp] theorem State.afterEvent_evt (ev : SessionEvent) : (s.afterEvent ev).evt = s.evt := by cases ev <;> rfl
@[simp] theorem State.afterEvent_fault (ev : SessionEvent) : (s.afterEvent ev).fault = s.fault := by cases ev <;> rfl
@[simp] theorem State.afterEvent_seq (ev : SessionEvent) : (s.afterEvent ev).seq = s.seq := by cases ev <;> rfl
@[simp] theorem State.afterEvent_waiting (ev : SessionEvent) :
    (s.afterEvent ev).waiting =
      s.waiting := by cases ev <;> rfl
@[simp] theorem State.afterEvent_ports (ev : SessionEvent) : (s.afterEvent ev).ports = s.ports := by cases ev <;> rfl
@[simp] theorem State.afterEvent_log (ev : SessionEvent) : (s.afterEvent ev).log = s.log := by cases ev <;> rfl
@[simp] theorem State.afterEvent_now (ev : SessionEvent) : (s.afterEvent ev).now = s.now := by cases ev <;> rfl
@[simp] theorem State.afterEvent_agenda (ev : SessionEvent) : (s.afterEvent ev).agenda = s.agenda := by cases ev <;> rfl
@[simp] theorem State.afterEvent_tick (ev : SessionEvent) : (s.afterEvent ev).tick = s.tick := by cases ev <;> rfl
@[simp] theorem State.afterEvent_ring (ev : SessionEvent) :
    (s.afterEvent ev).ring = if ev = .connected then { s.ring with rrd := 0, rfill := 0 } else s.ring := by
  cases ev <;> rfl

/-! ### `captureStopped` -/

@[simp] theorem State.captureStopped_params : (s.captureStopped).params = s.params := rfl
@[simp] theorem State.captureStopped_fm : (s.captureStopped).fm = s.fm := rfl
@[simp] theorem State.captureStopped_pool : (s.captureStopped).pool = s.pool := rfl
@[simp] theorem State.captureStopped_ring : (s.captureStopped).ring = s.ring := rfl
@[simp] theorem State.captureStopped_play : (s.captureStopped).play = s.play := rfl
@[simp] theorem State.captureStopped_out : (s.captureStopped).out = s.out := rfl
@[simp] theorem State.captureStopped_filter : (s.captureStopped).filter = s.filter := rfl
@[simp] theorem State.captureStopped_cfg : (s.captureStopped).cfg = s.cfg := rfl
@[simp] theorem State.captureStopped_caldone : (s.captureStopped).caldone = s.caldone := rfl
@[simp] theorem State.captureStopped_phase : (s.captureStopped).phase = s.phase := rfl
@[simp] theorem State.captureStopped_evt : (s.captureStopped).evt = s.evt := rfl
@[simp] theorem State.captureStopped_fault : (s.captureStopped).fault = s.fault := rfl
@[simp] theorem State.captureStopped_seq : (s.captureStopped).seq = { s.seq with cstopped := true } := rfl
@[simp] theorem State.captureStopped_waiting : (s.captureStopped).waiting = s.waiting := rfl
@[simp] theorem State.captureStopped_ports : (s.captureStopped).ports = s.ports := rfl
@[simp] theorem State.captureStopped_log : (s.captureStopped).log = s.log := rfl
@[simp] theorem State.captureStopped_now : (s.captureStopped).now = s.now := rfl
@[simp] theorem State.captureStopped_agenda : (s.captureStopped).agenda = s.agenda := rfl
@[simp] theorem State.captureStopped_tick : (s.captureStopped).tick = s.tick := rfl

/-! ### `mixerStopped` -/

@[simp] theorem State.mixerStopped_params : (s.mixerStopped).params = s.params := rfl
@[simp] theorem State.mixerStopped_fm : (s.mixerStopped).fm = s.fm := rfl
@[simp] theorem State.mixerStopped_pool : (s.mixerStopped).pool = s.pool := rfl
@[simp] theorem State.mixerStopped_ring : (s.mixerStopped).ring = s.ring := rfl
@[simp] theorem State.mixerStopped_play : (s.mixerStopped).play = s.play := rfl
@[simp] theorem State.mixerStopped_out : (s.mixerStopped).out = s.out := rfl
@[simp] theorem State.mixerStopped_filter : (s.mixerStopped).filter = s.filter := rfl
@[simp] theorem State.mixerStopped_cfg : (s.mixerStopped).cfg = s.cfg := rfl
@[simp] theorem State.mixerStopped_caldone : (s.mixerStopped).caldone = s.caldone := rfl
@[simp] theorem State.mixerStopped_phase : (s.mixerStopped).phase = s.phase := rfl
@[simp] theorem State.mixerStopped_evt : (s.mixerStopped).evt = s.evt := rfl
@[simp] theorem State.mixerStopped_fault : (s.mixerStopped).fault = s.fault := rfl
@[simp] theorem State.mixerStopped_seq : (s.mixerStopped).seq = { s.seq with mstopped := true } := rfl
@[simp] theorem State.mixerStopped_waiting : (s.mixerStopped).waiting = s.waiting := rfl
@[simp] theorem State.mixerStopped_ports : (s.mixerStopped).ports = s.ports := rfl
@[simp] theorem State.mixerStopped_log : (s.mixerStopped).log = s.log := rfl
@[simp] theorem State.mixerStopped_now : (s.mixerStopped).now = s.now := rfl
@[simp] theorem State.mixerStopped_agenda : (s.mixerStopped).agenda = s.agenda := rfl
@[simp] theorem State.mixerStopped_tick : (s.mixerStopped).tick = s.tick := rfl

/-! ### `bootStopped` -/

@[simp] theorem State.bootStopped_params : (s.bootStopped).params = s.params := rfl
@[simp] theorem State.bootStopped_fm : (s.bootStopped).fm = s.fm := rfl
@[simp] theorem State.bootStopped_pool : (s.bootStopped).pool = s.pool := rfl
@[simp] theorem State.bootStopped_ring : (s.bootStopped).ring = s.ring := rfl
@[simp] theorem State.bootStopped_play : (s.bootStopped).play = s.play := rfl
@[simp] theorem State.bootStopped_out : (s.bootStopped).out = s.out := rfl
@[simp] theorem State.bootStopped_filter : (s.bootStopped).filter = s.filter := rfl
@[simp] theorem State.bootStopped_cfg : (s.bootStopped).cfg = s.cfg := rfl
@[simp] theorem State.bootStopped_caldone : (s.bootStopped).caldone = s.caldone := rfl
@[simp] theorem State.bootStopped_phase : (s.bootStopped).phase = s.phase := rfl
@[simp] theorem State.bootStopped_evt : (s.bootStopped).evt = s.evt := rfl
@[simp] theorem State.bootStopped_fault : (s.bootStopped).fault = s.fault := rfl
@[simp] theorem State.bootStopped_seq : (s.bootStopped).seq = { s.seq with bstopped := true } := rfl
@[simp] theorem State.bootStopped_waiting : (s.bootStopped).waiting = s.waiting := rfl
@[simp] theorem State.bootStopped_ports : (s.bootStopped).ports = s.ports := rfl
@[simp] theorem State.bootStopped_log : (s.bootStopped).log = s.log := rfl
@[simp] theorem State.bootStopped_now : (s.bootStopped).now = s.now := rfl
@[simp] theorem State.bootStopped_agenda : (s.bootStopped).agenda = s.agenda := rfl
@[simp] theorem State.bootStopped_tick : (s.bootStopped).tick = s.tick := rfl

/-! ### `atCStep` -/

@[simp] theorem State.atCStep_params (c : CStep) : (s.atCStep c).params = s.params := rfl
@[simp] theorem State.atCStep_fm (c : CStep) : (s.atCStep c).fm = s.fm := rfl
@[simp] theorem State.atCStep_pool (c : CStep) : (s.atCStep c).pool = s.pool := rfl
@[simp] theorem State.atCStep_ring (c : CStep) : (s.atCStep c).ring = s.ring := rfl
@[simp] theorem State.atCStep_play (c : CStep) : (s.atCStep c).play = s.play := rfl
@[simp] theorem State.atCStep_out (c : CStep) : (s.atCStep c).out = s.out := rfl
@[simp] theorem State.atCStep_filter (c : CStep) : (s.atCStep c).filter = s.filter := rfl
@[simp] theorem State.atCStep_cfg (c : CStep) : (s.atCStep c).cfg = s.cfg := rfl
@[simp] theorem State.atCStep_caldone (c : CStep) : (s.atCStep c).caldone = s.caldone := rfl
@[simp] theorem State.atCStep_phase (c : CStep) : (s.atCStep c).phase = s.phase := rfl
@[simp] theorem State.atCStep_evt (c : CStep) : (s.atCStep c).evt = s.evt := rfl
@[simp] theorem State.atCStep_fault (c : CStep) : (s.atCStep c).fault = s.fault := rfl
@[simp] theorem State.atCStep_seq (c : CStep) : (s.atCStep c).seq = { s.seq with cstep := c } := rfl
@[simp] theorem State.atCStep_waiting (c : CStep) : (s.atCStep c).waiting = s.waiting := rfl
@[simp] theorem State.atCStep_ports (c : CStep) : (s.atCStep c).ports = s.ports := rfl
@[simp] theorem State.atCStep_log (c : CStep) : (s.atCStep c).log = s.log := rfl
@[simp] theorem State.atCStep_now (c : CStep) : (s.atCStep c).now = s.now := rfl
@[simp] theorem State.atCStep_agenda (c : CStep) : (s.atCStep c).agenda = s.agenda := rfl
@[simp] theorem State.atCStep_tick (c : CStep) : (s.atCStep c).tick = s.tick := rfl

/-! ### `atMStep` -/

@[simp] theorem State.atMStep_params (m : MStep) : (s.atMStep m).params = s.params := rfl
@[simp] theorem State.atMStep_fm (m : MStep) : (s.atMStep m).fm = s.fm := rfl
@[simp] theorem State.atMStep_pool (m : MStep) : (s.atMStep m).pool = s.pool := rfl
@[simp] theorem State.atMStep_ring (m : MStep) : (s.atMStep m).ring = s.ring := rfl
@[simp] theorem State.atMStep_play (m : MStep) : (s.atMStep m).play = s.play := rfl
@[simp] theorem State.atMStep_out (m : MStep) : (s.atMStep m).out = s.out := rfl
@[simp] theorem State.atMStep_filter (m : MStep) : (s.atMStep m).filter = s.filter := rfl
@[simp] theorem State.atMStep_cfg (m : MStep) : (s.atMStep m).cfg = s.cfg := rfl
@[simp] theorem State.atMStep_caldone (m : MStep) : (s.atMStep m).caldone = s.caldone := rfl
@[simp] theorem State.atMStep_phase (m : MStep) : (s.atMStep m).phase = s.phase := rfl
@[simp] theorem State.atMStep_evt (m : MStep) : (s.atMStep m).evt = s.evt := rfl
@[simp] theorem State.atMStep_fault (m : MStep) : (s.atMStep m).fault = s.fault := rfl
@[simp] theorem State.atMStep_seq (m : MStep) : (s.atMStep m).seq = { s.seq with mstep := m } := rfl
@[simp] theorem State.atMStep_waiting (m : MStep) : (s.atMStep m).waiting = s.waiting := rfl
@[simp] theorem State.atMStep_ports (m : MStep) : (s.atMStep m).ports = s.ports := rfl
@[simp] theorem State.atMStep_log (m : MStep) : (s.atMStep m).log = s.log := rfl
@[simp] theorem State.atMStep_now (m : MStep) : (s.atMStep m).now = s.now := rfl
@[simp] theorem State.atMStep_agenda (m : MStep) : (s.atMStep m).agenda = s.agenda := rfl
@[simp] theorem State.atMStep_tick (m : MStep) : (s.atMStep m).tick = s.tick := rfl

/-! ### `atBStep` -/

@[simp] theorem State.atBStep_params (b : BStep) : (s.atBStep b).params = s.params := rfl
@[simp] theorem State.atBStep_fm (b : BStep) : (s.atBStep b).fm = s.fm := rfl
@[simp] theorem State.atBStep_pool (b : BStep) : (s.atBStep b).pool = s.pool := rfl
@[simp] theorem State.atBStep_ring (b : BStep) : (s.atBStep b).ring = s.ring := rfl
@[simp] theorem State.atBStep_play (b : BStep) : (s.atBStep b).play = s.play := rfl
@[simp] theorem State.atBStep_out (b : BStep) : (s.atBStep b).out = s.out := rfl
@[simp] theorem State.atBStep_filter (b : BStep) : (s.atBStep b).filter = s.filter := rfl
@[simp] theorem State.atBStep_cfg (b : BStep) : (s.atBStep b).cfg = s.cfg := rfl
@[simp] theorem State.atBStep_caldone (b : BStep) : (s.atBStep b).caldone = s.caldone := rfl
@[simp] theorem State.atBStep_phase (b : BStep) : (s.atBStep b).phase = s.phase := rfl
@[simp] theorem State.atBStep_evt (b : BStep) : (s.atBStep b).evt = s.evt := rfl
@[simp] theorem State.atBStep_fault (b : BStep) : (s.atBStep b).fault = s.fault := rfl
@[simp] theorem State.atBStep_seq (b : BStep) : (s.atBStep b).seq = { s.seq with bstep := b } := rfl
@[simp] theorem State.atBStep_waiting (b : BStep) : (s.atBStep b).waiting = s.waiting := rfl
@[simp] theorem State.atBStep_ports (b : BStep) : (s.atBStep b).ports = s.ports := rfl
@[simp] theorem State.atBStep_log (b : BStep) : (s.atBStep b).log = s.log := rfl
@[simp] theorem State.atBStep_now (b : BStep) : (s.atBStep b).now = s.now := rfl
@[simp] theorem State.atBStep_agenda (b : BStep) : (s.atBStep b).agenda = s.agenda := rfl
@[simp] theorem State.atBStep_tick (b : BStep) : (s.atBStep b).tick = s.tick := rfl

/-! ### `calibrationMissed` -/

@[simp] theorem State.calibrationMissed_params : (s.calibrationMissed).params = s.params := rfl
@[simp] theorem State.calibrationMissed_fm : (s.calibrationMissed).fm = s.fm := rfl
@[simp] theorem State.calibrationMissed_pool : (s.calibrationMissed).pool = s.pool := rfl
@[simp] theorem State.calibrationMissed_ring : (s.calibrationMissed).ring = s.ring := rfl
@[simp] theorem State.calibrationMissed_play : (s.calibrationMissed).play = s.play := rfl
@[simp] theorem State.calibrationMissed_out : (s.calibrationMissed).out = s.out := rfl
@[simp] theorem State.calibrationMissed_filter : (s.calibrationMissed).filter = s.filter := rfl
@[simp] theorem State.calibrationMissed_cfg : (s.calibrationMissed).cfg = s.cfg := rfl
@[simp] theorem State.calibrationMissed_caldone : (s.calibrationMissed).caldone = s.caldone := rfl
@[simp] theorem State.calibrationMissed_phase : (s.calibrationMissed).phase = s.phase := rfl
@[simp] theorem State.calibrationMissed_evt : (s.calibrationMissed).evt = s.evt := rfl
@[simp] theorem State.calibrationMissed_fault : (s.calibrationMissed).fault = s.fault := rfl
@[simp] theorem State.calibrationMissed_seq :
    (s.calibrationMissed).seq =
      { s.seq with
        calcnt := s.seq.calcnt + 1
        bstep := if s.seq.calcnt.toNat + 1 ≥ s.cfg.calmax.toNat then .failrel else .read } := rfl
@[simp] theorem State.calibrationMissed_waiting : (s.calibrationMissed).waiting = s.waiting := rfl
@[simp] theorem State.calibrationMissed_ports : (s.calibrationMissed).ports = s.ports := rfl
@[simp] theorem State.calibrationMissed_log : (s.calibrationMissed).log = s.log := rfl
@[simp] theorem State.calibrationMissed_now : (s.calibrationMissed).now = s.now := rfl
@[simp] theorem State.calibrationMissed_agenda : (s.calibrationMissed).agenda = s.agenda := rfl
@[simp] theorem State.calibrationMissed_tick : (s.calibrationMissed).tick = s.tick := rfl

/-! ### `calibrated` -/

@[simp] theorem State.calibrated_params : (s.calibrated).params = s.params := rfl
@[simp] theorem State.calibrated_fm : (s.calibrated).fm = s.fm := rfl
@[simp] theorem State.calibrated_pool : (s.calibrated).pool = s.pool := rfl
@[simp] theorem State.calibrated_ring : (s.calibrated).ring = s.ring := rfl
@[simp] theorem State.calibrated_play : (s.calibrated).play = s.play := rfl
@[simp] theorem State.calibrated_out : (s.calibrated).out = s.out := rfl
@[simp] theorem State.calibrated_filter : (s.calibrated).filter = s.filter := rfl
@[simp] theorem State.calibrated_cfg : (s.calibrated).cfg = s.cfg := rfl
@[simp] theorem State.calibrated_caldone : (s.calibrated).caldone = s.caldone := rfl
@[simp] theorem State.calibrated_phase : (s.calibrated).phase = .run := rfl
@[simp] theorem State.calibrated_evt : (s.calibrated).evt = s.evt := rfl
@[simp] theorem State.calibrated_fault : (s.calibrated).fault = s.fault := rfl
@[simp] theorem State.calibrated_seq : (s.calibrated).seq = { s.seq with bstep := .off } := rfl
@[simp] theorem State.calibrated_waiting : (s.calibrated).waiting = s.waiting := rfl
@[simp] theorem State.calibrated_ports : (s.calibrated).ports = s.ports := rfl
@[simp] theorem State.calibrated_log : (s.calibrated).log = s.log := rfl
@[simp] theorem State.calibrated_now : (s.calibrated).now = s.now := rfl
@[simp] theorem State.calibrated_agenda : (s.calibrated).agenda = s.agenda := rfl
@[simp] theorem State.calibrated_tick : (s.calibrated).tick = s.tick := rfl

/-! ### `calibrationFailed` -/

@[simp] theorem State.calibrationFailed_params : (s.calibrationFailed).params = s.params := rfl
@[simp] theorem State.calibrationFailed_fm : (s.calibrationFailed).fm = s.fm := rfl
@[simp] theorem State.calibrationFailed_pool : (s.calibrationFailed).pool = s.pool := rfl
@[simp] theorem State.calibrationFailed_ring : (s.calibrationFailed).ring = s.ring := rfl
@[simp] theorem State.calibrationFailed_play : (s.calibrationFailed).play = s.play := rfl
@[simp] theorem State.calibrationFailed_out : (s.calibrationFailed).out = s.out := rfl
@[simp] theorem State.calibrationFailed_filter : (s.calibrationFailed).filter = s.filter := rfl
@[simp] theorem State.calibrationFailed_cfg : (s.calibrationFailed).cfg = s.cfg := rfl
@[simp] theorem State.calibrationFailed_caldone : (s.calibrationFailed).caldone = s.caldone := rfl
@[simp] theorem State.calibrationFailed_phase : (s.calibrationFailed).phase = .fatal := rfl
@[simp] theorem State.calibrationFailed_evt : (s.calibrationFailed).evt = s.evt := rfl
@[simp] theorem State.calibrationFailed_fault : (s.calibrationFailed).fault = s.fault ||| causeMask .calfail := rfl
@[simp] theorem State.calibrationFailed_seq : (s.calibrationFailed).seq = { s.seq with bstep := .off } := rfl
@[simp] theorem State.calibrationFailed_waiting : (s.calibrationFailed).waiting = s.waiting := rfl
@[simp] theorem State.calibrationFailed_ports : (s.calibrationFailed).ports = s.ports := rfl
@[simp] theorem State.calibrationFailed_log : (s.calibrationFailed).log = s.log := rfl
@[simp] theorem State.calibrationFailed_now : (s.calibrationFailed).now = s.now := rfl
@[simp] theorem State.calibrationFailed_agenda : (s.calibrationFailed).agenda = s.agenda := rfl
@[simp] theorem State.calibrationFailed_tick : (s.calibrationFailed).tick = s.tick := rfl

/-! ### `afterReset` -/

@[simp] theorem State.afterReset_params : (s.afterReset).params = s.params := rfl
@[simp] theorem State.afterReset_fm : (s.afterReset).fm = (State.resetFor s.params).fm := rfl
@[simp] theorem State.afterReset_pool : (s.afterReset).pool = (State.resetFor s.params).pool := rfl
@[simp] theorem State.afterReset_ring : (s.afterReset).ring = (State.resetFor s.params).ring := rfl
@[simp] theorem State.afterReset_play : (s.afterReset).play = (State.resetFor s.params).play := rfl
@[simp] theorem State.afterReset_out : (s.afterReset).out = (State.resetFor s.params).out := rfl
@[simp] theorem State.afterReset_filter : (s.afterReset).filter = (State.resetFor s.params).filter := rfl
@[simp] theorem State.afterReset_cfg : (s.afterReset).cfg = (State.resetFor s.params).cfg := rfl
@[simp] theorem State.afterReset_caldone : (s.afterReset).caldone = (State.resetFor s.params).caldone := rfl
@[simp] theorem State.afterReset_phase : (s.afterReset).phase = (State.resetFor s.params).phase := rfl
@[simp] theorem State.afterReset_evt : (s.afterReset).evt = (State.resetFor s.params).evt := rfl
@[simp] theorem State.afterReset_fault : (s.afterReset).fault = (State.resetFor s.params).fault := rfl
@[simp] theorem State.afterReset_seq : (s.afterReset).seq = (State.resetFor s.params).seq := rfl
@[simp] theorem State.afterReset_waiting : (s.afterReset).waiting = (State.resetFor s.params).waiting := rfl
@[simp] theorem State.afterReset_ports : (s.afterReset).ports = (State.resetFor s.params).ports := rfl
@[simp] theorem State.afterReset_log : (s.afterReset).log = s.log := rfl
@[simp] theorem State.afterReset_now : (s.afterReset).now = s.now := rfl
@[simp] theorem State.afterReset_agenda : (s.afterReset).agenda = s.agenda := rfl
@[simp] theorem State.afterReset_tick : (s.afterReset).tick = s.tick := rfl

/-! ### `servingPort` -/

@[simp] theorem State.servingPort_params (p : CmdPort) (rest : List Word) :
    (s.servingPort p rest).params =
      s.params := rfl
@[simp] theorem State.servingPort_fm (p : CmdPort) (rest : List Word) : (s.servingPort p rest).fm = s.fm := rfl
@[simp] theorem State.servingPort_pool (p : CmdPort) (rest : List Word) : (s.servingPort p rest).pool = s.pool := rfl
@[simp] theorem State.servingPort_ring (p : CmdPort) (rest : List Word) : (s.servingPort p rest).ring = s.ring := rfl
@[simp] theorem State.servingPort_play (p : CmdPort) (rest : List Word) : (s.servingPort p rest).play = s.play := rfl
@[simp] theorem State.servingPort_out (p : CmdPort) (rest : List Word) : (s.servingPort p rest).out = s.out := rfl
@[simp] theorem State.servingPort_filter (p : CmdPort) (rest : List Word) :
    (s.servingPort p rest).filter =
      s.filter := rfl
@[simp] theorem State.servingPort_cfg (p : CmdPort) (rest : List Word) : (s.servingPort p rest).cfg = s.cfg := rfl
@[simp] theorem State.servingPort_caldone (p : CmdPort) (rest : List Word) :
    (s.servingPort p rest).caldone =
      s.caldone := rfl
@[simp] theorem State.servingPort_phase (p : CmdPort) (rest : List Word) : (s.servingPort p rest).phase = s.phase := rfl
@[simp] theorem State.servingPort_evt (p : CmdPort) (rest : List Word) : (s.servingPort p rest).evt = s.evt := rfl
@[simp] theorem State.servingPort_fault (p : CmdPort) (rest : List Word) : (s.servingPort p rest).fault = s.fault := rfl
@[simp] theorem State.servingPort_seq (p : CmdPort) (rest : List Word) : (s.servingPort p rest).seq = s.seq := rfl
@[simp] theorem State.servingPort_waiting (p : CmdPort) (rest : List Word) :
    (s.servingPort p rest).waiting =
      s.waiting := rfl
@[simp] theorem State.servingPort_ports (p : CmdPort) (rest : List Word) :
    (s.servingPort p rest).ports =
      s.ports.set p rest := rfl
@[simp] theorem State.servingPort_log (p : CmdPort) (rest : List Word) : (s.servingPort p rest).log = s.log := rfl
@[simp] theorem State.servingPort_now (p : CmdPort) (rest : List Word) :
    (s.servingPort p rest).now =
      { s.now with origin := .port p } := rfl
@[simp] theorem State.servingPort_agenda (p : CmdPort) (rest : List Word) :
    (s.servingPort p rest).agenda =
      s.agenda := rfl
@[simp] theorem State.servingPort_tick (p : CmdPort) (rest : List Word) : (s.servingPort p rest).tick = s.tick := rfl

/-! ### `withTurn` -/

@[simp] theorem State.withTurn_params (t : Turn) : (s.withTurn t).params = s.params := rfl
@[simp] theorem State.withTurn_fm (t : Turn) : (s.withTurn t).fm = s.fm := rfl
@[simp] theorem State.withTurn_pool (t : Turn) : (s.withTurn t).pool = s.pool := rfl
@[simp] theorem State.withTurn_ring (t : Turn) : (s.withTurn t).ring = s.ring := rfl
@[simp] theorem State.withTurn_play (t : Turn) : (s.withTurn t).play = s.play := rfl
@[simp] theorem State.withTurn_out (t : Turn) : (s.withTurn t).out = s.out := rfl
@[simp] theorem State.withTurn_filter (t : Turn) : (s.withTurn t).filter = s.filter := rfl
@[simp] theorem State.withTurn_cfg (t : Turn) : (s.withTurn t).cfg = s.cfg := rfl
@[simp] theorem State.withTurn_caldone (t : Turn) : (s.withTurn t).caldone = s.caldone := rfl
@[simp] theorem State.withTurn_phase (t : Turn) : (s.withTurn t).phase = s.phase := rfl
@[simp] theorem State.withTurn_evt (t : Turn) : (s.withTurn t).evt = s.evt := rfl
@[simp] theorem State.withTurn_fault (t : Turn) : (s.withTurn t).fault = s.fault := rfl
@[simp] theorem State.withTurn_seq (t : Turn) : (s.withTurn t).seq = s.seq := rfl
@[simp] theorem State.withTurn_waiting (t : Turn) : (s.withTurn t).waiting = s.waiting := rfl
@[simp] theorem State.withTurn_ports (t : Turn) : (s.withTurn t).ports = s.ports := rfl
@[simp] theorem State.withTurn_log (t : Turn) : (s.withTurn t).log = s.log := rfl
@[simp] theorem State.withTurn_now (t : Turn) :
    (s.withTurn t).now =
      { s.now with source := t.source, sink := t.sink, expire := t.expire } := rfl
@[simp] theorem State.withTurn_agenda (t : Turn) : (s.withTurn t).agenda = s.agenda := rfl
@[simp] theorem State.withTurn_tick (t : Turn) : (s.withTurn t).tick = s.tick := rfl

/-! ### `csrWrite` -/

@[simp] theorem csrWrite_params (c : Csr) (v : Word) : (csrWrite s c v).params = s.params := by cases c <;> rfl
@[simp] theorem csrWrite_fm (c : Csr) (v : Word) : (csrWrite s c v).fm = s.fm := by cases c <;> rfl
@[simp] theorem csrWrite_pool (c : Csr) (v : Word) : (csrWrite s c v).pool = s.pool := by cases c <;> rfl
@[simp] theorem csrWrite_ring (c : Csr) (v : Word) : (csrWrite s c v).ring = s.ring := by cases c <;> rfl
@[simp] theorem csrWrite_play (c : Csr) (v : Word) : (csrWrite s c v).play = s.play := by cases c <;> rfl
@[simp] theorem csrWrite_out (c : Csr) (v : Word) : (csrWrite s c v).out = s.out := by cases c <;> rfl
@[simp] theorem csrWrite_filter (c : Csr) (v : Word) : (csrWrite s c v).filter = s.filter := by cases c <;> rfl
@[simp] theorem csrWrite_phase (c : Csr) (v : Word) : (csrWrite s c v).phase = s.phase := by cases c <;> rfl
@[simp] theorem csrWrite_evt (c : Csr) (v : Word) : (csrWrite s c v).evt = s.evt := by cases c <;> rfl
@[simp] theorem csrWrite_fault (c : Csr) (v : Word) : (csrWrite s c v).fault = s.fault := by cases c <;> rfl
@[simp] theorem csrWrite_seq (c : Csr) (v : Word) : (csrWrite s c v).seq = s.seq := by cases c <;> rfl
@[simp] theorem csrWrite_waiting (c : Csr) (v : Word) : (csrWrite s c v).waiting = s.waiting := by cases c <;> rfl
@[simp] theorem csrWrite_ports (c : Csr) (v : Word) : (csrWrite s c v).ports = s.ports := by cases c <;> rfl
@[simp] theorem csrWrite_log (c : Csr) (v : Word) : (csrWrite s c v).log = s.log := by cases c <;> rfl
@[simp] theorem csrWrite_now (c : Csr) (v : Word) : (csrWrite s c v).now = s.now := by cases c <;> rfl
@[simp] theorem csrWrite_agenda (c : Csr) (v : Word) : (csrWrite s c v).agenda = s.agenda := by cases c <;> rfl
@[simp] theorem csrWrite_tick (c : Csr) (v : Word) : (csrWrite s c v).tick = s.tick := by cases c <;> rfl
@[simp] theorem csrWrite_caldone (c : Csr) (v : Word) :
    (csrWrite s c v).caldone = (s.caldone || c == .idle) := by
  cases c <;> simp [csrWrite, State.withIdle]

/-! ### Pool moves -/

variable (pl : Pool)

@[simp] theorem Pool.acquire_own (t : Token) (q : List Token) : (pl.acquire t q).own = putOwner pl.own t .cap := rfl
@[simp] theorem Pool.acquire_chold (t : Token) (q : List Token) : (pl.acquire t q).chold = some t := rfl
@[simp] theorem Pool.acquire_mhold (t : Token) (q : List Token) : (pl.acquire t q).mhold = pl.mhold := rfl
@[simp] theorem Pool.acquire_freeq (t : Token) (q : List Token) : (pl.acquire t q).freeq = q := rfl
@[simp] theorem Pool.acquire_busyq (t : Token) (q : List Token) : (pl.acquire t q).busyq = pl.busyq := rfl
@[simp] theorem Pool.publish_own (t : Token) : (pl.publish t).own = putOwner pl.own t .busy := rfl
@[simp] theorem Pool.publish_chold (t : Token) : (pl.publish t).chold = none := rfl
@[simp] theorem Pool.publish_mhold (t : Token) : (pl.publish t).mhold = pl.mhold := rfl
@[simp] theorem Pool.publish_freeq (t : Token) : (pl.publish t).freeq = pl.freeq := rfl
@[simp] theorem Pool.publish_busyq (t : Token) : (pl.publish t).busyq = pl.busyq ++ [t] := rfl
@[simp] theorem Pool.take_own (t : Token) (q : List Token) : (pl.take t q).own = putOwner pl.own t .mix := rfl
@[simp] theorem Pool.take_chold (t : Token) (q : List Token) : (pl.take t q).chold = pl.chold := rfl
@[simp] theorem Pool.take_mhold (t : Token) (q : List Token) : (pl.take t q).mhold = some t := rfl
@[simp] theorem Pool.take_freeq (t : Token) (q : List Token) : (pl.take t q).freeq = pl.freeq := rfl
@[simp] theorem Pool.take_busyq (t : Token) (q : List Token) : (pl.take t q).busyq = q := rfl
@[simp] theorem Pool.release_C_own (t : Token) : (pl.release .C t).own = putOwner pl.own t .free := rfl
@[simp] theorem Pool.release_C_chold (t : Token) : (pl.release .C t).chold = none := rfl
@[simp] theorem Pool.release_C_mhold (t : Token) : (pl.release .C t).mhold = pl.mhold := rfl
@[simp] theorem Pool.release_C_freeq (t : Token) : (pl.release .C t).freeq = pl.freeq ++ [t] := rfl
@[simp] theorem Pool.release_C_busyq (t : Token) : (pl.release .C t).busyq = pl.busyq := rfl
@[simp] theorem Pool.release_M_own (t : Token) : (pl.release .M t).own = putOwner pl.own t .free := rfl
@[simp] theorem Pool.release_M_chold (t : Token) : (pl.release .M t).chold = pl.chold := rfl
@[simp] theorem Pool.release_M_mhold (t : Token) : (pl.release .M t).mhold = none := rfl
@[simp] theorem Pool.release_M_freeq (t : Token) : (pl.release .M t).freeq = pl.freeq ++ [t] := rfl
@[simp] theorem Pool.release_M_busyq (t : Token) : (pl.release .M t).busyq = pl.busyq := rfl

end Sys2Proof.Laws
end

