-- ==== Sys2Proof/Machine/Assembler.lean ====
section
/-! DEFINITION. The assembler lines of spec/30_encoding.md R101, as a text, as structured data (agent, mnemonic, suffix,
operands) and as the command they stand for, and the pseudo-operations of R102. The machine does not use this file. -/

namespace Sys2Proof.Machine

/-- The mnemonics of R97. -/
inductive Mnemonic where
  | nop
  | cfgr
  | cfgw
  | start
  | acqf
  | pubb
  | takb
  | relf
  | fst
  | fld
  | caprd
  | conv
  | scale
  | lpf
  | gate
  | fidle
  | oclr
  | rpop
  | mixf
  | sinkw
  | old
  | rpush
  | sevt
  deriving DecidableEq, Repr

/-- An operand of an assembler line (R101). -/
inductive AsmOperand where
  /-- `t0` to `t15`. -/
  | token (n : Nat)
  /-- `#n`, the sign allowed where the immediate is a PCM sample. -/
  | imm (n : Int)
  /-- A register's name in place of its number. -/
  | reg (c : Csr)
  | event (e : SessionEvent)
  /-- A payload, earliest byte first. -/
  | bytes (bs : List Byte)
  deriving DecidableEq, Repr

/-- One assembler line: `<agent>: <MNEMONIC>[.T|.B|.U] [operand, ...]` (R101). -/
structure AsmLine where
  ag : Agent
  mnemonic : Mnemonic
  /-- The suffix `.T`, `.B` or `.U`. -/
  suffix : Option WaitMode
  operands : List AsmOperand
  deriving DecidableEq, Repr

/-- A token operand. -/
def AsmOperand.tokenValue : AsmOperand → Option Token
  | .token n => if n < 16 then some (BitVec.ofNat 4 n) else none
  | .imm _ | .reg _ | .event _ | .bytes _ => none

/-- An unsigned immediate of `n` bits. -/
def AsmOperand.unsignedValue (n : Nat) : AsmOperand → Option (BitVec n)
  | .imm v => if 0 ≤ v ∧ v < 2 ^ n then some (BitVec.ofInt n v) else none
  | .token _ | .reg _ | .event _ | .bytes _ => none

/-- A PCM sample, encoded as `u16(n)`. -/
def AsmOperand.pcmValue : AsmOperand → Option Pcm
  | .imm v => if -32768 ≤ v ∧ v < 65536 then some (BitVec.ofInt 16 v) else none
  | .token _ | .reg _ | .event _ | .bytes _ => none

/-- A register operand: its name, or its number. -/
def AsmOperand.registerValue : AsmOperand → Option (BitVec 8)
  | .reg c => some (csrNumber c)
  | .imm v => AsmOperand.unsignedValue 8 (.imm v)
  | .token _ | .event _ | .bytes _ => none

/-- Chunk bytes as payload words, low byte first (R64, R95). -/
def packBytes : List Byte → List Word
  | [] => []
  | [b0] => [b0.setWidth 32]
  | [b0, b1] => [(b1 ++ b0).setWidth 32]
  | [b0, b1, b2] => [(b2 ++ b1 ++ b0).setWidth 32]
  | b0 :: b1 :: b2 :: b3 :: bs => (b3 ++ b2 ++ b1 ++ b0) :: packBytes bs

/-- The command an assembler line stands for; none when the line is not of the form of R101. -/
def assemble (l : AsmLine) : Option Instr :=
  match l.mnemonic, l.suffix, l.operands with
  | .nop, none, [] => some (.nop l.ag)
  | .cfgr, none, [r] => r.registerValue.map fun r => .cfgr l.ag r
  | .cfgw, none, [r, v] => do return .cfgw l.ag (← r.registerValue) (← v.unsignedValue 32)
  | .start, none, [] => some (.start l.ag)
  | .acqf, some wm, [] => some (.acqf l.ag wm)
  | .pubb, some wm, [t] => t.tokenValue.map fun t => .pubb l.ag wm t
  | .takb, some wm, [] => some (.takb l.ag wm)
  | .relf, none, [t] => t.tokenValue.map fun t => .relf l.ag t
  | .fst, none, [t, i, v] => do return .fst l.ag (← t.tokenValue) (← i.unsignedValue 12) (← v.unsignedValue 32)
  | .fld, none, [t, i] => do return .fld l.ag (← t.tokenValue) (← i.unsignedValue 12)
  | .caprd, some wm, [t] => t.tokenValue.map fun t => .caprd l.ag wm t
  | .conv, none, [v] => (v.unsignedValue 32).map fun v => .conv l.ag v
  | .scale, none, [u] => (u.unsignedValue 16).map fun u => .scale l.ag u
  | .lpf, none, [x] => x.pcmValue.map fun x => .lpf l.ag x
  | .gate, none, [x] => x.pcmValue.map fun x => .gate l.ag x
  | .fidle, none, [t] => t.tokenValue.map fun t => .fidle l.ag t
  | .oclr, none, [] => some (.oclr l.ag)
  | .rpop, some wm, [] => some (.rpop l.ag wm)
  | .mixf, none, [t] => t.tokenValue.map fun t => .mixf l.ag t
  | .sinkw, some wm, [] => some (.sinkw l.ag wm)
  | .old, none, [i] => (i.unsignedValue 12).map fun i => .old l.ag i
  | .rpush, none, [n, .bytes bs] =>
    (n.unsignedValue 16).bind fun len =>
      if len.toNat = bs.length then some (.rpush l.ag len (packBytes bs)) else none
  | .rpush, none, [n] => if n.unsignedValue 16 = some 0 then some (.rpush l.ag 0 []) else none
  | .sevt, none, [.event e] => some (.sevt l.ag e)
  | _, _, _ => none

/-! ### The text of a line -/

/-- The characters between the separators `c`. -/
def fieldsOf (c : Char) : List Char → List (List Char)
  | [] => [[]]
  | x :: xs =>
    if x = c then [] :: fieldsOf c xs
    else
      match fieldsOf c xs with
      | [] => [[x]]
      | f :: fs => (x :: f) :: fs

/-- The spaces at both ends taken off. -/
def trimmed (cs : List Char) : List Char := ((cs.dropWhile (· == ' ')).reverse.dropWhile (· == ' ')).reverse

/-- A digit of a base up to 16. -/
def digitOf (base : Nat) (c : Char) : Option Nat :=
  let n := c.toNat
  let v :=
    if '0'.toNat ≤ n ∧ n ≤ '9'.toNat then some (n - '0'.toNat)
    else if 'a'.toNat ≤ n ∧ n ≤ 'f'.toNat then some (n - 'a'.toNat + 10)
    else if 'A'.toNat ≤ n ∧ n ≤ 'F'.toNat then some (n - 'A'.toNat + 10)
    else none
  v.filter (· < base)

/-- The number that digits spell, `acc` being the number of those before them. -/
def digitsOf (base acc : Nat) : List Char → Option Nat
  | [] => some acc
  | c :: cs => (digitOf base c).bind fun d => digitsOf base (acc * base + d) cs

/-- A number: decimal, or hexadecimal after `0x`; at least one digit. -/
def natOf : List Char → Option Nat
  | [] => none
  | ['0', 'x'] => none
  | '0' :: 'x' :: cs => digitsOf 16 0 cs
  | cs => digitsOf 10 0 cs

/-- A byte in hexadecimal, one or two digits. -/
def byteOf (cs : List Char) : Option Byte :=
  if cs.length = 0 ∨ 2 < cs.length then none else (digitsOf 16 0 cs).map (BitVec.ofNat 8)

/-- A register's name (R45). -/
def registerNamed (name : String) : Option Csr :=
  match name with
  | "PARAM0" => some .param0
  | "PARAM1" => some .param1
  | "SRATE" => some .srate
  | "CONVCFG" => some .convcfg
  | "PATHCFG" => some .pathcfg
  | "THRESH" => some .thresh
  | "COEF0" => some .coef0
  | "COEF1" => some .coef1
  | "COEF2" => some .coef2
  | "COEF3" => some .coef3
  | "IDLE" => some .idle
  | "CALMAX" => some .calmax
  | "STATUS" => some .status
  | "FAULT" => some .fault
  | "EVT" => some .evt
  | "QCNT" => some .qcnt
  | "RINGST" => some .ringst
  | "FIRST" => some .first
  | "OWNMAP" => some .ownmap
  | "CALCNT" => some .calcnt
  | "DLV0" => some (.dlv 0)
  | "DLV1" => some (.dlv 1)
  | "DLV2" => some (.dlv 2)
  | "DLV3" => some (.dlv 3)
  | "DLV4" => some (.dlv 4)
  | "DLV5" => some (.dlv 5)
  | "DLV6" => some (.dlv 6)
  | _ => none

/-- A register's or an event's name. -/
def namedOperand (name : String) : Option AsmOperand :=
  match name with
  | "connected" => some (.event .connected)
  | "disconnected" => some (.event .disconnected)
  | "playing" => some (.event .playing)
  | "paused" => some (.event .paused)
  | _ => (registerNamed name).map .reg

/-- The opening and the closing brace of a payload. -/
def openBrace : Char := Char.ofNat 0x7B
def closeBrace : Char := Char.ofNat 0x7D

/-- A payload's bytes, between its braces. -/
def payloadOf (cs : List Char) : Option (List Byte) :=
  match cs.reverse with
  | [] => none
  | c :: rest =>
    if c = closeBrace then ((fieldsOf ' ' rest.reverse).filter (· ≠ [])).mapM byteOf else none

/-- One operand of a line. -/
def operandOf (cs : List Char) : Option AsmOperand :=
  match cs with
  | [] => none
  | '#' :: '-' :: ds => (natOf ds).map fun n => .imm (-n)
  | '#' :: ds => (natOf ds).map fun n => .imm n
  | c :: ds =>
    if c = openBrace then (payloadOf ds).map .bytes
    else
      match namedOperand (String.ofList (c :: ds)) with
      | some o => some o
      | none => if c = 't' ∧ ds ≠ [] then (digitsOf 10 0 ds).map .token else none

/-- The operands of a line, separated by commas; none when nothing is written. -/
def operandsOf (cs : List Char) : Option (List AsmOperand) :=
  if trimmed cs = [] then some [] else (fieldsOf ',' cs).mapM fun f => operandOf (trimmed f)

/-- The letter of an agent (R101). -/
def agentLetter : List Char → Option Agent
  | ['H'] => some .H
  | ['C'] => some .C
  | ['M'] => some .M
  | ['R'] => some .R
  | ['S'] => some .S
  | _ => none

/-- A mnemonic's name (R97). -/
def mnemonicNamed (name : String) : Option Mnemonic :=
  match name with
  | "NOP" => some .nop
  | "CFGR" => some .cfgr
  | "CFGW" => some .cfgw
  | "START" => some .start
  | "ACQF" => some .acqf
  | "PUBB" => some .pubb
  | "TAKB" => some .takb
  | "RELF" => some .relf
  | "FST" => some .fst
  | "FLD" => some .fld
  | "CAPRD" => some .caprd
  | "CONV" => some .conv
  | "SCALE" => some .scale
  | "LPF" => some .lpf
  | "GATE" => some .gate
  | "FIDLE" => some .fidle
  | "OCLR" => some .oclr
  | "RPOP" => some .rpop
  | "MIXF" => some .mixf
  | "SINKW" => some .sinkw
  | "OLD" => some .old
  | "RPUSH" => some .rpush
  | "SEVT" => some .sevt
  | _ => none

/-- A mnemonic with its suffix, `.T`, `.B` or `.U` (R101). -/
def operationOf (cs : List Char) : Option (Mnemonic × Option WaitMode) :=
  match fieldsOf '.' cs with
  | [m] => (mnemonicNamed (String.ofList m)).map (·, none)
  | [m, ['T']] => (mnemonicNamed (String.ofList m)).map (·, some .poll)
  | [m, ['B']] => (mnemonicNamed (String.ofList m)).map (·, some .bounded)
  | [m, ['U']] => (mnemonicNamed (String.ofList m)).map (·, some .unbounded)
  | _ => none

/-- The line that a text spells (R101). -/
def lineOf (text : String) : Option AsmLine :=
  match fieldsOf ':' text.toList with
  | [a, body] => do
    let ag ← agentLetter (trimmed a)
    let body := trimmed body
    let (m, suffix) ← operationOf (body.takeWhile (· ≠ ' '))
    let operands ← operandsOf (body.dropWhile (· ≠ ' '))
    return { ag := ag, mnemonic := m, suffix := suffix, operands := operands }
  | _ => none

/-- The words that a text assembles to (R101). -/
def assembleText (text : String) : Option (List Word) := ((lineOf text).bind assemble).map encode

/-! ### Pseudo-operations -/

/-- The pseudo-operations (R102). -/
inductive Pseudo where
  | convertCaptureSample (ag : Agent) (b0 b1 : Byte)
  | acquireFree
  | publishBusy (t : Token)
  | releaseFree (ag : Agent) (t : Token)
  | radioPush (bs : List Byte)
  | sessionStateChanged (e : SessionEvent)
  | captureRead (t : Token)
  | sinkWrite
  deriving DecidableEq, Repr

/-- The command a pseudo-operation abbreviates (R65, R102). -/
def Pseudo.expand : Pseudo → Instr
  | .convertCaptureSample ag b0 b1 => .conv ag (slotOfBytes2 b0 b1)
  | .acquireFree => .acqf .C .unbounded
  | .publishBusy t => .pubb .C .unbounded t
  | .releaseFree ag t => .relf ag t
  | .radioPush bs => .rpush .R (BitVec.ofNat 16 bs.length) (packBytes bs)
  | .sessionStateChanged e => .sevt .S e
  | .captureRead t => .caprd .C .bounded t
  | .sinkWrite => .sinkw .M .bounded

end Sys2Proof.Machine
end

