-- ==== Sys2Proof/Tests/Slice0.lean ====
section
/-! SUPPORT. Tests. Every expected value is from the spec: the words of spec/30_encoding.md R101, the examples of the
operations' rules, the tables of spec/95_test_vectors.md section 2.1, or worked by hand where the comment says so. -/

namespace Sys2Proof.Tests

open Sys2Proof.Machine

/-! ### Well-formedness -/

theorem test_wf_rpush_payload : (Instr.rpush .R 8 [1, 2]).wellFormed = true := by decide
theorem test_wf_rpush_payload_missing : (Instr.rpush .R 8 [1]).wellFormed = false := by decide
theorem test_wf_rpush_payload_extra : (Instr.rpush .R 0 [1]).wellFormed = false := by decide
theorem test_ill_formed_is_refused : exec (.rpush .R 8 [1]) State.reset = .fault .illFormed := by rfl

/-! ### Decoding (the words of R101) -/

theorem test_decode_nop : fetch [0x00000000] = .command (.nop .H) [] := by decide
theorem test_decode_cfgr : fetch [0x04000010] = .command (.cfgr .H 0x10) [] := by decide
theorem test_decode_cfgw : fetch [0x08000006, 0x000001F4] = .command (.cfgw .H 0x06 500) [] := by decide
theorem test_decode_start : fetch [0x0C000000] = .command (.start .H) [] := by decide
theorem test_decode_acqf : fetch [0x20A00000] = .command (.acqf .C .bounded) [] := by decide
theorem test_decode_pubb : fetch [0x24A30000] = .command (.pubb .C .bounded 3) [] := by decide
theorem test_decode_takb : fetch [0x29200000] = .command (.takb .M .bounded) [] := by decide
theorem test_decode_relf : fetch [0x2C830000] = .command (.relf .C 3) [] := by decide
theorem test_decode_fst : fetch [0x30800005, 0x00000ABC] = .command (.fst .C 0 5 0x0ABC) [] := by decide
theorem test_decode_fld : fetch [0x350300FF] = .command (.fld .M 3 255) [] := by decide
theorem test_decode_caprd : fetch [0x38A00000] = .command (.caprd .C .bounded 0) [] := by decide
theorem test_decode_conv : fetch [0x40000000, 0x0000FFFF] = .command (.conv .H 0xFFFF) [] := by decide
theorem test_decode_scale : fetch [0x44000FFF] = .command (.scale .H 4095) [] := by decide
theorem test_decode_lpf : fetch [0x4900FC18] = .command (.lpf .M (BitVec.ofInt 16 (-1000))) [] := by decide
theorem test_decode_gate : fetch [0x4C0001F3] = .command (.gate .H 499) [] := by decide
theorem test_decode_fidle : fetch [0x50800000] = .command (.fidle .C 0) [] := by decide
theorem test_decode_oclr : fetch [0x61000000] = .command (.oclr .M) [] := by decide
theorem test_decode_rpop : fetch [0x65200000] = .command (.rpop .M .bounded) [] := by decide
theorem test_decode_mixf : fetch [0x69030000] = .command (.mixf .M 3) [] := by decide
theorem test_decode_sinkw : fetch [0x6D200000] = .command (.sinkw .M .bounded) [] := by decide
theorem test_decode_old : fetch [0x70000000] = .command (.old .H 0) [] := by decide
theorem test_decode_rpush :
    fetch [0x81800008, 0x00020001, 0x00040003] = .command (.rpush .R 8 [0x00020001, 0x00040003]) [] := by decide
theorem test_decode_sevt : fetch [0x86000002] = .command (.sevt .S .playing) [] := by decide

/-- The fields of `C: PUBB.B t3`, bit by bit: OPC 001001, AG 001, WM 01, RSV 0, TOK 0011, IMM 0 (section 2.1). -/
theorem test_decode_bits :
    fetch [0b00100100101000110000000000000000] = .command (.pubb .C .bounded 3) [] := by decide

/-- Rows 1, 4, 6, 7, 8, 9 and 10 of section 2.1: one word for each reason of R98. -/
theorem test_illegal_words :
    decode 0x10000000 [] = .error .undefinedOpcode ∧ decode 0x03800000 [] = .error .reservedAgent ∧
      decode 0x00100000 [] = .error .reservedBit ∧ decode 0x00200000 [] = .error .strayWaitMode ∧
      decode 0x20E00000 [] = .error .reservedWaitMode ∧ decode 0x0C010000 [] = .error .strayToken ∧
      decode 0x04000110 [] = .error .strayImmediate := by decide

/-- Row 14 of section 2.1: an illegal RPUSH takes its payload with it. -/
theorem test_illegal_takes_its_words :
    fetch [0x81900008, 0x00020001, 0x00040003, 0x00000000] = .illegal .reservedBit 0x81900008 [0x00000000] := by decide

theorem test_incomplete : fetch [0x08000006] = .incomplete := by decide
theorem test_encode_fst : encode (.fst .C 0 5 0x0ABC) = [0x30800005, 0x00000ABC] := by decide
theorem test_encode_takb : encode (.takb .M .bounded) = [0x29200000] := by decide

/-- The second word of a row's bits is bits 63 to 32. -/
theorem test_decodeTableWord : decodeTableWord 64 0x00000ABC30800005 = some (.fst .C 0 5 0x0ABC) := by decide
theorem test_decodeTableWord_illegal : decodeTableWord 32 0x10000000 = none := by decide

/-- Operand words that the table gives no bits are zero. -/
theorem test_decodeTableWord_short : decodeTableWord 32 0x40000000 = some (.conv .H 0) := by decide

/-! ### Assembler lines (R101) and pseudo-operations (R102) -/

theorem test_assemble_lpf :
    (assemble ⟨.M, .lpf, none, [.imm (-1000)]⟩).map encode = some [0x4900FC18] := by decide
theorem test_assemble_cfgw :
    (assemble ⟨.H, .cfgw, none, [.reg .thresh, .imm 500]⟩).map encode = some [0x08000006, 0x000001F4] := by decide
theorem test_assemble_rpush :
    (assemble ⟨.R, .rpush, none, [.imm 8, .bytes [1, 0, 2, 0, 3, 0, 4, 0]]⟩).map encode =
      some [0x81800008, 0x00020001, 0x00040003] := by decide
theorem test_assemble_suffix_missing : assemble ⟨.C, .acqf, none, []⟩ = none := by decide
/-- Lines of R101 as they stand there, and one with its suffix missing. -/
theorem test_assemble_text :
    assembleText "H: NOP" = some [0x00000000] ∧ assembleText "H: CFGR STATUS" = some [0x04000010] ∧
      assembleText "H: CFGW THRESH, #500" = some [0x08000006, 0x000001F4] ∧
      assembleText "C: ACQF.U" = some [0x20C00000] ∧ assembleText "C: PUBB.B t3" = some [0x24A30000] ∧
      assembleText "C: FST t0, #5, #0x0ABC" = some [0x30800005, 0x00000ABC] ∧
      assembleText "M: LPF #-1000" = some [0x4900FC18] ∧ assembleText "S: SEVT playing" = some [0x86000002] ∧
      assembleText "M: TAKB" = none := by decide +kernel
theorem test_pseudo_convert : Pseudo.expand (.convertCaptureSample .H 0xFF 0xFF) = .conv .H 0xFFFF := by decide

/-! ### One step -/

/-- An instance with L = 2, N = 2, RING_CAP = 16, SLOT_W = 16. -/
def small : Params := { frameLen := 2, depth := 2, ringCap := 16, srate := 8000, slotW := .w16 }

/-- The small instance after reset. -/
def base : State := State.resetFor small

/-- `base` with token 0 held by agent C, and by agent M. -/
def heldByC : State := { base with pool := { base.pool with own := [(0, .cap)], chold := some 0, freeq := [1] } }
def heldByM : State := { base with pool := { base.pool with own := [(0, .mix)], mhold := some 0, freeq := [1] } }

/-- A step that serves port `p` with the words `ws`, the environment as it stands. -/
def serve (p : CmdPort) (ws : List Word) (s : State) : Result :=
  step { s with
    ports := s.ports.set p ws
    agenda := [{ move := .serve p, source := s.now.source, sink := s.now.sink, expire := s.now.expire }] }

/-- The response the step gave, and what `f` says of the state after it. -/
def answer {α : Type} (f : State → α) : Result → Option (Option (Status × Word) × α)
  | .next t => some (t.log.responses.getLast?.map fun r => (r.st, r.val), f t)
  | .fault _ => none
  | .refused _ => none

/-- R250. -/
theorem test_nop : answer (·.fault) (serve .hp [0x00000000] base) = some (some (.ok, 0), 0) := by decide

/-- R251, after reset with L = 256, N = 4: PARAM0, and a number that is no register. -/
theorem test_cfgr_param0 :
    answer (·.fault) (serve .hp [0x04000000] State.reset) = some (some (.ok, 0x00040100), 0) := by decide
theorem test_cfgr_unimplemented :
    answer (·.fault) (serve .hp [0x04000003] State.reset) = some (some (.fault, 8), 8) := by decide

/-- R252: NBITS = 12 unsigned; NBITS = 17 refused. -/
theorem test_cfgw_convcfg :
    answer (·.cfg.convcfg) (serve .hp [0x08000004, 0x0000000C] base) = some (some (.ok, 0), ⟨12, 0, false⟩) := by decide
theorem test_cfgw_illegal :
    answer (·.cfg.convcfg) (serve .hp [0x08000004, 0x00000011] base) = some (some (.fault, 8), ⟨16, 0, true⟩) := by decide

/-- R253; R255: unsigned mode without an idle value. -/
theorem test_start : answer (·.phase) (serve .hp [0x0C000000] base) = some (some (.ok, 2), .run) := by decide
theorem test_start_uncalibrated :
    answer (·.phase) (serve .hp [0x0C000000] { base with cfg := { base.cfg with convcfg := ⟨12, 0, false⟩ } }) =
      some (some (.fault, 0x100), .setup) := by decide

/-- R121 with N = 4; a second frame is refused before the queue is looked at. -/
theorem test_acqf :
    answer (·.pool) (serve .hp [0x20A00000] State.reset) =
      some (some (.ok, 0), ⟨[(0, .cap)], some 0, none, [1, 2, 3], []⟩) := by decide
theorem test_acqf_hold :
    answer (·.pool.freeq) (serve .hp [0x20800000] heldByC) = some (some (.fault, 0x20), [1]) := by decide

/-- R122, R123, R124: the token goes round. -/
theorem test_pubb :
    answer (·.pool) (serve .hp [0x24A00000] heldByC) =
      some (some (.ok, 0), ⟨[(0, .busy)], none, none, [1], [0]⟩) := by decide
theorem test_takb :
    answer (·.pool)
        (serve .hp [0x29200000] { base with pool := ⟨[(0, .busy)], none, none, [1], [0]⟩ }) =
      some (some (.ok, 0), ⟨[(0, .mix)], none, some 0, [1], []⟩) := by decide
theorem test_takb_wouldblock :
    answer (·.pool.mhold) (serve .hp [0x29000000] base) = some (some (.wouldblock, 0), none) := by decide
theorem test_relf :
    answer (·.pool) (serve .hp [0x2D000000] heldByM) = some (some (.ok, 0), ⟨[], none, none, [1, 0], []⟩) := by decide

/-- A second release faults with F_OWN (R124). -/
theorem test_relf_twice :
    answer (·.pool.freeq) (serve .hp [0x2D000000] base) = some (some (.fault, 0x10), [0, 1]) := by decide

/-- R125, R126. -/
theorem test_fst :
    answer (·.fm) (serve .hp [0x30800001, 0xFFFF0ABC] heldByC) = some (some (.ok, 0), [(1, 0x0ABC)]) := by decide
theorem test_fld :
    answer (·.fault) (serve .hp [0x34800001] { heldByC with fm := [(1, 0x0ABC)] }) =
      some (some (.ok, 0x0ABC), 0) := by decide
theorem test_fld_undef : answer (·.fault) (serve .hp [0x34800000] heldByC) = some (some (.fault, 0x40), 0x40) := by decide

/-- R150: a frame, and a wait that times out. -/
theorem test_caprd :
    answer (·.fm) (serve .hp [0x38A00000]
        { heldByC with now := { heldByC.now with source := .frame [0x0800, 0x0801] } }) =
      some (some (.ok, 2), [(0, 0x0800), (1, 0x0801)]) := by decide
theorem test_caprd_timeout :
    answer (·.fm) (serve .hp [0x38A00000]
        { heldByC with fm := [(0, 1), (2, 7)], now := { heldByC.now with expire := true } }) =
      some (some (.timeout, 0), [(2, 7)]) := by decide

/-- R220 (Scenario 4) and R222. -/
theorem test_conv :
    answer (·.fault) (serve .hp [0x40000000, 0x0000FFFF] { base with cfg := { base.cfg with convcfg := ⟨12, 0, false⟩ } }) =
      some (some (.ok, 0x00000FFF), 0) := by decide
theorem test_conv_signed :
    answer (·.fault) (serve .hp [0x40000000, 0x00000800] { base with cfg := { base.cfg with convcfg := ⟨12, 0, true⟩ } }) =
      some (some (.ok, 0x0000F800), 0) := by decide

/-- R224: NBITS = 12, IDLE = 1800: 1801 gives 14, 1799 gives -18. -/
theorem test_scale :
    scaleCode ⟨12, 0, false⟩ 1800 1801 = 14 ∧ scaleCode ⟨12, 0, false⟩ 1800 1799 = -18 := by decide
theorem test_scale_range :
    answer (·.fault) (serve .hp [0x44001000] { base with cfg := { base.cfg with convcfg := ⟨12, 0, false⟩ } }) =
      some (some (.fault, 8), 8) := by decide

/-- R226: the test taps, a zero delay line. -/
theorem test_lpf :
    answer (·.filter.fidx) (serve .hp [0x490003E8]
        { base with cfg := { base.cfg with coef0 := 1024, coef1 := 4096, coef2 := 8192, coef3 := 6144 } }) =
      some (some (.ok, 31), 1) := by decide

/-- R230. -/
theorem test_gate_pass : answer (·.fault) (serve .hp [0x4C0001F4] base) = some (some (.ok, 500), 0) := by decide
theorem test_gate_zero : answer (·.fault) (serve .hp [0x4C0001F3] base) = some (some (.ok, 0), 0) := by decide

/-- R232 by hand for two slots: (2048 + 2051) tdiv 2 = 2049. -/
theorem test_fidle :
    answer (·.cfg.idle) (serve .hp [0x50800000] { heldByC with
        fm := [(0, 0x0800), (1, 0x0803)], cfg := { base.cfg with convcfg := ⟨12, 0, false⟩ } }) =
      some (some (.ok, 2049), 2049) := by decide

/-- R190. -/
theorem test_oclr :
    answer (·.out) (serve .hp [0x61000000] { base with out := [(1, ⟨5, 6⟩)] }) = some (some (.ok, 0), []) := by decide

/-- R191's example: RRD 12, so the pop wraps. -/
theorem test_rpop :
    answer (fun t => (t.out, t.ring.rrd, t.ring.rfill)) (serve .hp [0x65200000] { base with
        play := .playing
        ring := { rrd := 12, rfill := 12, rb := [(0, 0xFF), (1, 0xFF), (2, 0x00), (3, 0x80), (4, 0x10), (5, 0), (6, 0x20),
          (7, 0), (12, 1), (13, 0), (14, 2), (15, 0)] } }) =
      some (some (.ok, 8), [(0, ⟨1, 2⟩), (1, ⟨0xFFFF, 0x8000⟩)], 4, 4) := by decide
theorem test_rpop_skip :
    answer (·.ring.rfill) (serve .hp [0x65200000] { base with ring := { rrd := 0, rfill := 4, rb := [] } }) =
      some (some (.skip, 0), 4) := by decide

/-- R195's example: the last sum wraps to 32668. -/
theorem test_mixf :
    answer (·.out) (serve .hp [0x69000000] { heldByM with
        fm := [(0, 0x0064), (1, 0xFF9C)], out := [(0, ⟨1, 2⟩), (1, ⟨0xFFFF, 0x8000⟩)] }) =
      some (some (.ok, 0), [(0, ⟨101, 102⟩), (1, ⟨BitVec.ofInt 16 (-101), 32668⟩)]) := by decide
theorem test_mixf_undef :
    answer (·.out) (serve .hp [0x69000000] { heldByM with fm := [(0, 0x0064)], out := [(0, ⟨1, 2⟩)] }) =
      some (some (.fault, 0x40), [(0, ⟨1, 2⟩)]) := by decide

/-- R200's example. -/
theorem test_sinkw :
    answer (·.log.sink) (serve .hp [0x6D200000] { base with
        out := [(0, ⟨101, 102⟩), (1, ⟨BitVec.ofInt 16 (-101), 32668⟩)], now := { base.now with sink := .accepting } }) =
      some (some (.ok, 8), [[101, 102, BitVec.ofInt 16 (-101), 32668]]) := by decide
theorem test_sinkw_error :
    answer (·.log.sink) (serve .hp [0x6D200000] { base with now := { base.now with sink := .error } }) =
      some (some (.error, 0), []) := by decide

/-- R202's example. -/
theorem test_old :
    answer (·.fault) (serve .hp [0x70000001] { base with out := [(1, ⟨BitVec.ofInt 16 (-101), 32668⟩)] }) =
      some (some (.ok, 0x7F9CFF9B), 0) := by decide

/-- R170's example: the chunk wraps at the end of the ring. -/
theorem test_rpush :
    answer (·.ring) (serve .rp [0x81800008, 0x00020001, 0x00040003] { base with ring := { base.ring with rrd := 12 } }) =
      some (some (.ok, 8),
        { rrd := 12, rfill := 8
          rb := [(0, 3), (1, 0), (2, 4), (3, 0), (12, 1), (13, 0), (14, 2), (15, 0)] }) := by decide
theorem test_rpush_dropped :
    answer (·.ring.rfill) (serve .rp [0x81800008, 1, 2] { base with ring := { base.ring with rfill := 12 } }) =
      some (some (.dropped, 0), 12) := by decide

/-- R173's example, and a connection that empties the ring. -/
theorem test_sevt_playing :
    answer (·.play) (serve .sp [0x86000002] { base with play := .paused }) = some (some (.ok, 2), .playing) := by decide
theorem test_sevt_connected :
    answer (·.ring.rfill) (serve .sp [0x86000000] { base with ring := { base.ring with rfill := 8 } }) =
      some (some (.ok, 1), 0) := by decide

/-- Row 18 of section 2.1: agent R on the host port. -/
theorem test_agent_fault :
    answer (·.ring.rfill) (serve .hp [0x81800004, 0x00020001] base) = some (some (.fault, 2), 0) := by decide

/-- R293: agent C waits and its next command stays on HP; the `H: OLD #0` and the `M: OCLR` behind it are carried out. -/
theorem test_waiting_agent_holds_back_no_other :
    let s := { base with waiting := { opC := some (.acqf .C .unbounded), opM := none } }
    answer (·.ports.hp) (serve .hp [0x00800000, 0x70000000, 0x61000000] s) =
        some (some (.ok, 0), [0x00800000, 0x61000000]) ∧
      answer (·.ports.hp) (serve .hp [0x00800000, 0x61000000] s) = some (some (.ok, 0), [0x00800000]) := by decide

/-- The first step after reset runs the instruction that `withFetchWord` puts there. -/
theorem test_withFetchWord :
    answer (·.fault) (step (State.reset.withFetchWord 32 0x04000006)) = some (some (.ok, 500), 0) := by decide
theorem test_withFetchWord_radio :
    answer (·.play) (step (State.reset.withFetchWord 32 0x86000000)) = some (some (.ok, 1), .paused) := by decide

/-- R256's example, the last failed read of CALMAX = 2, then B_FAILREL (R285). -/
theorem test_boot_fails :
    answer (fun t => (t.seq.bstep, t.seq.calcnt)) (step { heldByC with
        phase := .boot, seq := { base.seq with bstep := .read, calcnt := 1 }, cfg := { base.cfg with calmax := 2 }
        agenda := [⟨.boot, .error, .busy, false⟩] }) = some (some (.error, 0), .failrel, 2) := by decide
theorem test_boot_fatal :
    answer (fun t => (t.phase, t.fault, t.pool.freeq)) (step { heldByC with
        phase := .boot, seq := { base.seq with bstep := .failrel, calcnt := 2 }
        agenda := [⟨.boot, .nothing, .busy, false⟩] }) = some (some (.ok, 0), .fatal, 0x200, [1, 0]) := by decide

/-! ### Witnesses: for each statement with hypotheses, a state and operands that meet all of them -/

open Sys2Proof.Safety

/-- `base` with one turn laid down. -/
def turned (m : Move) (s : State) : State := { s with agenda := [⟨m, .nothing, .busy, false⟩] }

/-- `base` with the session connected and playing, and 8 bytes in the ring. -/
def playing : State :=
  { base with
    play := .playing
    ring := { rrd := 12, rfill := 8, rb := [(0, 3), (1, 0), (2, 4), (3, 0), (12, 1), (13, 0), (14, 2), (15, 0)] } }

/-- Agent C, or M, holds frame 0, all of whose slots are 0x0708 = 1800, in unsigned mode with 12 bits and IDLE = 1800. -/
def calibratedC : State :=
  { heldByC with
    fm := [(0, 0x0708), (1, 0x0708)], caldone := true
    cfg := { base.cfg with convcfg := ⟨12, 0, false⟩, idle := 1800 } }
def calibratedM : State := { calibratedC with pool := heldByM.pool }

/-- Phase RUN: agent C holds frame 0 and is to publish it, agent M holds frame 1 and is to mix it. -/
def running : State :=
  { calibratedC with
    phase := .run
    fm := [(0, 0x0708), (1, 0x0708), (2, 0x0708), (3, 0x0708)]
    pool := { own := [(0, .cap), (1, .mix)], chold := some 0, mhold := some 1, freeq := [], busyq := [] }
    seq := { base.seq with cstep := .pub, mstep := .mix } }

/-- Phase BOOT at B_FAILREL, the attempts used up. -/
def failing : State :=
  { heldByC with
    phase := .boot
    cfg := { base.cfg with pathcfg := ⟨false, false, false, true⟩, calmax := 2 }
    seq := { base.seq with bstep := .failrel, calcnt := 2 } }

theorem witness_EncodedCommandsDecodeToThemselves :
    (Instr.rpush .R 8 [1, 2]).wellFormed = true ∧ (Instr.rpush .R 0 []).wellFormed = true := by decide

theorem witness_DecodedCommandsEncodeToTheirWords :
    fetch [0x08000006, 500, 7] = .command (.cfgw .H 6 500) [7] := by decide

/-- `base` with agent C waiting, the words `ws` on the host port, and the turn `m`. -/
def blockedC (m : Move) (ws : List Word) : State :=
  turned m
    { base with ports := { base.ports with hp := ws }, waiting := { opC := some (.acqf .C .unbounded), opM := none } }

theorem witness_IllegalCommandFaultsAndIsConsumed :
    (nextTurn (turned (.serve .hp) { base with ports := { base.ports with hp := [0x08100006, 500] } })).1.move =
        .serve .hp ∧
      commandLength 0x08100006 - 1 ≤ [(500 : Word)].length ∧
      decode 0x08100006 ([(500 : Word)].take (commandLength 0x08100006 - 1)) = .error .reservedBit := by decide

/-- The same behind a held `C: NOP`. -/
theorem witness_IllegalCommandFaultsAndIsConsumed_behind :
    let s := blockedC (.serve .hp) [0x00800000, 0x10000000]
    (nextTurn s).1.move = .serve .hp ∧ passedOver s .hp [.nop .C] ∧
      s.ports.of .hp = [Instr.nop .C].flatMap encode ++ 0x10000000 :: [] ∧ commandLength 0x10000000 - 1 ≤ 0 ∧
      decode 0x10000000 [] = .error .undefinedOpcode := by decide

theorem witness_ServedCommandIsExecuted :
    let s := turned (.serve .hp) { base with ports := { base.ports with hp := [0x00000000] } }
    (∃ u, comes s u (.serve .hp) (.port .hp)) ∧ passedOver s .hp [] ∧ s.ports.of .hp = [].flatMap encode ++ [0x00000000] ∧
      fetch [0x00000000] = .command (.nop .H) [] ∧ ¬heldBack s .hp (.nop .H) :=
  ⟨⟨_, rfl, rfl⟩, by decide, by decide, by decide, by decide⟩

/-- Agent C waits, its next command is held, and the `M: OCLR` behind it is served. -/
theorem witness_ServedCommandIsExecuted_behind :
    let s := blockedC (.serve .hp) [0x00800000, 0x61000000]
    (∃ u, comes s u (.serve .hp) (.port .hp)) ∧ passedOver s .hp [.nop .C] ∧
      s.ports.of .hp = [Instr.nop .C].flatMap encode ++ [0x61000000] ∧
      fetch [0x61000000] = .command (.oclr .M) [] ∧ ¬heldBack s .hp (.oclr .M) :=
  ⟨⟨_, rfl, rfl⟩, by decide, by decide, by decide, by decide⟩

theorem witness_WordsStayOnTheirPortUntilServed :
    (∃ u, comes (turned (.present .rp 7) base) u (.present .rp 7) base.now.origin) ∧
      (let s := turned (.serve .hp) { base with ports := { base.ports with hp := [0x08000006] } }
      (∃ u, comes s u (.serve .hp) s.now.origin) ∧ passedOver s .hp [] ∧ fetch [0x08000006] = .incomplete) ∧
      let s := blockedC (.serve .hp) [0x00800000]
      (∃ u, comes s u (.serve .hp) s.now.origin) ∧ passedOver s .hp [.nop .C] ∧
        s.ports.of .hp = [Instr.nop .C].flatMap encode ++ [] ∧ fetch [] = .incomplete :=
  ⟨⟨_, rfl, rfl⟩, ⟨⟨_, rfl, rfl⟩, by decide, by decide⟩, ⟨_, rfl, rfl⟩, by decide, by decide, by decide⟩

theorem witness_EveryCommandAnswersANextState : (Instr.rpush .R 4 [1]).wellFormed = true := by decide

/-- One command for each check that can fail, the first failing one named. -/
theorem witness_FirstFailingCheckRaisesItsFault :
    firstFault (.acqf .H .poll) base = some .agent ∧
      firstFault (.cfgw .H 4 0x10) { base with phase := .run } = some .phase ∧
      firstFault (.relf .C 2) base = some .range ∧ firstFault (.rpush .R 3 [0])
        { base with now := { base.now with origin := .port .rp } } = some .badlen ∧
      firstFault (.relf .C 1) base = some .own ∧ firstFault (.acqf .C .poll) heldByC = some .hold ∧
      firstFault (.fidle .C 0) { heldByC with fm := [(0, 1)] } = some .undef ∧
      firstFault (.start .H) { base with cfg := { base.cfg with convcfg := ⟨12, 0, false⟩ } } = some .cfg := by decide

theorem witness_FaultedCommandChangesOnlyItsBit :
    let t := base.faulted .C .own
    exec (.relf .C 1) base = .next t ∧ responds base t .C .fault 0x10 := ⟨rfl, rfl⟩

theorem witness_PassedCommandAnswersOnceOrWaits :
    firstFault (.takb .M .poll) base = none ∧
      exec (.takb .M .poll) base = .next (base.answered .M .wouldblock 0) ∧
      firstFault (.takb .M .unbounded) base = none ∧
      exec (.takb .M .unbounded) base = .next (base.withWaiting .M (some (.takb .M .unbounded))) :=
  ⟨by decide, rfl, by decide, rfl⟩

theorem witness_UnreadyOperationFollowsItsWaitMode :
    firstFault (.caprd .C .bounded 0) heldByC = none ∧ waitModeOf (.caprd .C .bounded 0) = some .bounded ∧
      ready (.caprd .C .bounded 0) heldByC = false ∧ ready (.takb .M .poll) base = false ∧
      firstFault (.takb .M .poll) base = none ∧
      firstFault (.caprd .C .bounded 0) { heldByC with now := { base.now with expire := true } } = none ∧
      ready (.caprd .C .bounded 0) { heldByC with now := { base.now with expire := true } } = false ∧
      Memory.sorted heldByC.fm := by decide

/-- The same while agent C waits: agent M's operation becomes outstanding, and agent C's stays. -/
theorem witness_PassedCommandAnswersOnceOrWaits_both :
    let s := blockedC (.serve .hp) []
    firstFault (.takb .M .unbounded) s = none ∧ ready (.takb .M .unbounded) s = false ∧
      (s.waiting.of .C).isSome = true ∧ ∃ t, exec (.takb .M .unbounded) s = .next t ∧
        t.waiting = { opC := some (.acqf .C .unbounded), opM := some (.takb .M .unbounded) } :=
  ⟨by decide, by decide, by decide, _, rfl, rfl⟩

theorem witness_OutstandingOperationCompletesAsIfIssued :
    let s := blockedC .resumeC []
    ∃ u, comes s u .resumeC (.port .hp) ∧ s.phase = .setup ∧ s.waiting.of .C = some (.acqf .C .unbounded) ∧
      (waitModeOf (.acqf .C .unbounded)).isSome = true ∧ (Instr.acqf .C .unbounded).agent = .C ∧
      firstFault (.acqf .C .unbounded) (u.withWaiting .C none) = none :=
  ⟨_, ⟨rfl, rfl⟩, by decide, by decide, by decide, by decide, by decide⟩

/-- The same for agent M's three operations that wait. -/
theorem witness_OutstandingOperationCompletesAsIfIssued_M :
    ∀ i ∈ [Instr.takb .M .unbounded, .rpop .M .bounded, .sinkw .M .unbounded],
      let s := turned .resumeM { base with waiting := { opC := none, opM := some i } }
      ∃ u, comes s u .resumeM (.port .hp) ∧ s.phase = .setup ∧ s.waiting.of .M = some i ∧
        (waitModeOf i).isSome = true ∧ i.agent = .M ∧ firstFault i (u.withWaiting .M none) = none := by
  simp only [List.forall_mem_cons, List.not_mem_nil, false_implies, implies_true, and_true]
  exact ⟨⟨_, ⟨rfl, rfl⟩, by decide, by decide, by decide, by decide, by decide⟩,
    ⟨_, ⟨rfl, rfl⟩, by decide, by decide, by decide, by decide, by decide⟩,
    ⟨_, ⟨rfl, rfl⟩, by decide, by decide, by decide, by decide, by decide⟩⟩

theorem witness_CommandWritesOnlyItsParts : exec (.nop .H) base = .next (base.answered .H .ok 0) := by rfl

theorem witness_NopChangesNothing :
    Safety.mayIssue (.nop .H) base ∧ mayIssue (.nop .C) base ∧ mayIssue (.nop .H) { base with phase := .fatal } := by
  repeat' apply And.intro
  all_goals decide

theorem witness_CfgrReadsEveryRegister :
    mayIssue (.cfgr .H 0x00) base ∧ mayIssue (.cfgr .H 0x1E) { base with phase := .fatal } ∧
      (0x00 ∈ registerNumbers ∧ 0x1E ∈ registerNumbers) ∧ fieldsFit base := by decide

/-- A legal value at the end of its range for each row of R252. -/
theorem witness_CfgwWritesOneRegister :
    mayIssue (.cfgw .H 4 0x10010) base ∧ legalWrite .w16 0x04 0x10010 ∧ legalWrite .w16 0x04 0x00F01 ∧
      legalWrite .w16 0x05 0xF ∧ legalWrite .w16 0x08 0 ∧ legalWrite .w16 0x09 0xFFFF ∧
      legalWrite .w16 0x0A 0x7FFF ∧ legalWrite .w16 0x0B 0x8000 ∧ legalWrite .w16 0x06 0xFFFF ∧ legalWrite .w16 0x0C 0 ∧ legalWrite .w16 0x0D 1 ∧
      legalWrite .w16 0x0D 255 := by
  repeat' apply And.intro
  all_goals decide

theorem witness_StartSeedsThePool :
    mayIssue (.start .H) base ∧ ¬ notStartable base ∧
      ¬ notStartable { base with cfg := { base.cfg with
        convcfg := ⟨12, 0, false⟩, pathcfg := ⟨false, false, false, true⟩ } } := by decide

theorem witness_AcqfTakesTheHeadOfTheFreeQueue :
    mayIssue (.acqf .C .bounded) base ∧ Memory.sorted base.pool.own ∧ base.pool.chold = none ∧
      base.pool.freeq = 0 :: [1] := by decide

theorem witness_PubbAppendsToTheBusyQueue :
    mayIssue (.pubb .C .poll 0) heldByC ∧ Memory.sorted heldByC.pool.own ∧ (0 : Token).toNat < heldByC.params.depth ∧
      heldByC.pool.chold = some 0 ∧ heldByC.pool.busyq.length < heldByC.params.depth := by decide

theorem witness_TakbTakesTheOldestBusyFrame :
    let s := { base with pool := { base.pool with own := [(0, .busy), (1, .busy)], freeq := [], busyq := [1, 0] } }
    mayIssue (.takb .M .bounded) s ∧ Memory.sorted s.pool.own ∧ s.pool.mhold = none ∧ s.pool.busyq = 1 :: [0] := by
  decide

theorem witness_RelfReturnsTheFrame :
    mayIssue (.relf .C 0) heldByC ∧ Memory.sorted heldByC.pool.own ∧ (0 : Token).toNat < heldByC.params.depth ∧
      heldByC.pool.heldBy .C = some 0 ∧ mayIssue (.relf .M 0) heldByM ∧ heldByM.pool.heldBy .M = some 0 := by decide

theorem witness_FstStoresOneSlot :
    mayIssue (.fst .C 0 1 0xFFFFFFFF) heldByC ∧ Memory.sorted heldByC.fm ∧ (0 : Token).toNat < heldByC.params.depth ∧
      (1 : BitVec 12).toNat < heldByC.params.frameLen ∧ heldByC.pool.heldBy .C = some 0 := by decide

theorem witness_FldReadsOneSlot :
    mayIssue (.fld .M 0 1) calibratedM ∧ (0 : Token).toNat < calibratedM.params.depth ∧
      (1 : BitVec 12).toNat < calibratedM.params.frameLen ∧ calibratedM.pool.heldBy .M = some 0 ∧
      slotAt calibratedM 0 1 = some 0x0708 := by decide

theorem witness_CaprdFillsTheOwnedFrame :
    let s := { heldByC with now := { base.now with source := .frame [0, 0xFFFF] } }
    mayIssue (.caprd .C .bounded 0) s ∧ Memory.sorted s.fm ∧ (0 : Token).toNat < s.params.depth ∧
      s.pool.heldBy .C = some 0 ∧ s.now.source = .frame [0, 0xFFFF] ∧ [(0 : Slot), 0xFFFF].length = s.params.frameLen ∧
      ∀ x ∈ [(0 : Slot), 0xFFFF], x.toNat < 2 ^ slotBits s.params.slotW := by
  intro s
  refine ⟨by decide, by decide, by decide, by decide, by decide, by decide, ?_⟩
  intro x hx
  simp only [List.mem_cons, List.not_mem_nil, or_false] at hx
  rcases hx with rfl | rfl <;> decide

theorem witness_CaprdErrorLeavesTheFrameUndefined :
    let s := { calibratedC with now := { base.now with source := .error } }
    mayIssue (.caprd .C .unbounded 0) s ∧ Memory.sorted s.fm ∧ (0 : Token).toNat < s.params.depth ∧
      s.pool.heldBy .C = some 0 ∧ s.now.source = .error := by
  intro s
  repeat' apply And.intro
  all_goals decide

theorem witness_ConvExtractsTheSampleField :
    mayIssue (.conv .H 0xFFFF) base ∧ CfgOk base ∧ mayIssue (.conv .M 0) calibratedC ∧ CfgOk calibratedC := by
  repeat' apply And.intro
  all_goals decide

/-- IDLE = 1800 of 0 to 4095: at, above and below it, the ends included. -/
theorem witness_ScaleIsPiecewiseLinearAboutIdle :
    mayIssue (.scale .H 1800) calibratedC ∧
      ∀ u ∈ [(0 : BitVec 16), 1799, 1800, 1801, 4095], u.toNat ≤ maxCode calibratedC.cfg.convcfg := by
  refine ⟨by decide, ?_⟩
  intro x hx
  simp only [List.mem_cons, List.not_mem_nil, or_false] at hx
  rcases hx with rfl | rfl | rfl | rfl | rfl <;> decide

theorem witness_LpfIsTheDotProductOfTheLastInputs : mayIssue (.lpf .M 1000) base := by decide

theorem witness_GateZeroesSmallSamples :
    mayIssue (.gate .H 499) base ∧ mayIssue (.gate .H 500) { base with phase := .run } ∧ base.cfg.thresh.toNat ≤ 32768 ∧
      mayIssue (.gate .C 0x8000) { base with cfg := { base.cfg with thresh := 0 } } ∧
      mayIssue (.gate .M 0x7FFF) { base with cfg := { base.cfg with thresh := 0x8001 } } ∧
      32768 < (0x8001 : BitVec 16).toNat := by
  repeat' apply And.intro
  all_goals decide

theorem witness_FidleStoresTheFrameAverage :
    mayIssue (.fidle .C 0) calibratedC ∧ (0 : Token).toNat < calibratedC.params.depth ∧
      calibratedC.pool.heldBy .C = some 0 ∧ frameIs calibratedC 0 [0x0708, 0x0708] := by
  repeat' apply And.intro
  all_goals decide

theorem witness_CalibratedCodeScalesToZero :
    mayIssue (.fidle .C 0) calibratedC ∧ (0 : Token).toNat < calibratedC.params.depth ∧
      calibratedC.pool.heldBy .C = some 0 ∧ frameIs calibratedC 0 [0x0708, 0x0708] ∧
      1 ≤ calibratedC.params.frameLen ∧ calibratedC.cfg.convcfg.sgn = false ∧
      (1800 : BitVec 16).toNat ≤ maxCode calibratedC.cfg.convcfg ∧
      (∀ x ∈ [(0x0708 : Slot), 0x0708], convSlot calibratedC.cfg.convcfg x = (1800 : BitVec 16).toNat) ∧
      mayIssue (.scale .H 1800) calibratedC := by
  refine ⟨by decide, by decide, by decide, by decide, by decide, by decide, by decide, ?_, by decide⟩
  simp only [List.forall_mem_cons]
  exact ⟨rfl, rfl, by simp⟩

/-- The test taps of R226 sum to 32768 and are not negative. -/
def testTaps : Cfg := { base.cfg with coef0 := 1024, coef1 := 4096, coef2 := 8192, coef3 := 6144 }

theorem witness_ConstantInputSettles :
    2 * testTaps.coef0.toInt + 2 * testTaps.coef1.toInt + 2 * testTaps.coef2.toInt + testTaps.coef3.toInt = 32768 := by
  decide

theorem witness_NonNegativeTapsNeverWrap :
    0 ≤ testTaps.coef0.toInt ∧ 0 ≤ testTaps.coef1.toInt ∧ 0 ≤ testTaps.coef2.toInt ∧ 0 ≤ testTaps.coef3.toInt ∧
      2 * testTaps.coef0.toInt + 2 * testTaps.coef1.toInt + 2 * testTaps.coef2.toInt + testTaps.coef3.toInt ≤ 32768 := by
  decide

/-- The same seven inputs 1 to 7 at two rotations. -/
theorem witness_FilterRotationIsInvisible :
    ∀ k : Fin 7, inputBefore { dl := #v[1, 2, 3, 4, 5, 6, 7], fidx := 0 } k =
      inputBefore { dl := #v[6, 7, 1, 2, 3, 4, 5], fidx := 2 } k := by decide

theorem witness_OclrClearsTheOutputFrame : mayIssue (.oclr .M) base := by decide

theorem witness_RpopDecodesTheOldestBytes :
    mayIssue (.rpop .M .bounded) playing ∧ Memory.sorted playing.out ∧ playing.play = .playing ∧
      0 < playing.ring.rfill ∧ playing.ring.rfill % 4 = 0 := by decide

theorem witness_MixfAddsTheMicPathToBothChannels :
    mayIssue (.mixf .M 0) calibratedM ∧ Memory.sorted calibratedM.out ∧ (0 : Token).toNat < calibratedM.params.depth ∧
      calibratedM.pool.heldBy .M = some 0 ∧ frameIs calibratedM 0 [0x0708, 0x0708] := by
  repeat' apply And.intro
  all_goals decide

/-- The first half: NBITS at both ends of its range. -/
theorem witness_MixfAddsTheMicPathToBothChannels_stages :
    ∀ n ∈ [(1 : BitVec 5), 16], 1 ≤ n.toNat ∧ n.toNat ≤ 16 := by decide

theorem witness_SilentFrameLeavesTheOutputFrame :
    mayIssue (.mixf .M 0) calibratedM ∧ Memory.sorted calibratedM.out ∧ (0 : Token).toNat < calibratedM.params.depth ∧
      calibratedM.pool.heldBy .M = some 0 ∧ frameIs calibratedM 0 [0x0708, 0x0708] ∧
      calibratedM.cfg.convcfg.sgn = false ∧
      (∀ x ∈ [(0x0708 : Slot), 0x0708], convSlot calibratedM.cfg.convcfg x = calibratedM.cfg.idle.toNat) ∧
      (∀ k, calibratedM.filter.dl.get k = 0) := by
  refine ⟨by decide, by decide, by decide, by decide, by decide, by decide, ?_, by decide⟩
  simp only [List.forall_mem_cons]
  exact ⟨rfl, rfl, by simp⟩

theorem witness_SinkwSendsTheOutputFrame :
    mayIssue (.sinkw .M .poll) { base with now := { base.now with sink := .accepting } } ∧
      mayIssue (.sinkw .M .bounded) { base with now := { base.now with sink := .error } } := by decide

theorem witness_OldReadsOnePair :
    mayIssue (.old .H 1) { base with phase := .run } ∧ (1 : BitVec 12).toNat < base.params.frameLen := by decide

theorem witness_RpushAppendsTheChunk :
    let s := { playing with now := { base.now with origin := .port .rp } }
    mayIssue (.rpush .R 8 [1, 2]) s ∧ [(1 : Word), 2].length = payloadWords 8 ∧ (8 : BitVec 16).toNat ≠ 0 ∧
      (8 : BitVec 16).toNat % 4 = 0 ∧ Memory.sorted s.ring.rb ∧ s.ring.rfill ≤ s.params.ringCap ∧
      (8 : BitVec 16).toNat ≤ s.params.ringCap - s.ring.rfill := by decide

theorem witness_RpushDropsWhatDoesNotFit :
    let s := { playing with now := { base.now with origin := .port .rp } }
    mayIssue (.rpush .R 12 [1, 2, 3]) s ∧ [(1 : Word), 2, 3].length = payloadWords 12 ∧ (12 : BitVec 16).toNat ≠ 0 ∧
      (12 : BitVec 16).toNat % 4 = 0 ∧ s.params.ringCap - s.ring.rfill < (12 : BitVec 16).toNat := by decide

theorem witness_SevtMovesThePlayingFlag :
    ∀ ev ∈ [SessionEvent.connected, .disconnected, .playing, .paused],
      mayIssue (.sevt .S ev) { base with now := { base.now with origin := .port .sp } } := by decide

/-- The ring of `playing`, moved on by four bytes. -/
theorem witness_RingStorageIsInvisible :
    let u := { playing with ring :=
      { rrd := 0, rfill := 8, rb := [(0, 1), (1, 0), (2, 2), (3, 0), (4, 3), (5, 0), (6, 4), (7, 0), (9, 9)] } }
    Memory.sorted playing.ring.rb ∧ Memory.sorted u.ring.rb ∧ ringAlike playing u ∧
      exec (.rpop .M .poll) playing = .next (playing.popped.answered .M .ok 8) :=
  ⟨by decide, by decide, ⟨rfl, rfl, by decide, by decide, by decide, by decide⟩, rfl⟩

/-- At a turn of a sequencer the command `i` is carried out and answered `st`: what its table's row needs. -/
def rowAnswered (m : Move) (o : Origin) (ag : Agent) (s : State) (i : Instr) (st : Status) : Prop :=
  ∃ u, comes s u m o ∧ carriedOut (s.waiting.of ag) i (u.withWaiting ag none) ∧
    ∃ v x, exec i (u.withWaiting ag none) = .next v ∧ v.waiting.of ag = none ∧ responds u v ag st x

/-- `running` with the capture sequencer at step `c`, one turn of it, what the source presents, and the expiry. -/
def captureAt (c : CStep) (src : Source) (late : Bool) : State :=
  { running with seq := { running.seq with cstep := c }, agenda := [⟨.capture, src, .busy, late⟩] }

/-- The hypotheses of each row of R156, and of a read answered after a wait. -/
theorem witness_CaptureSequencerFollowsItsTable :
    let noHold := fun s : State => { s with pool := { s.pool with chold := none, freeq := [0] } }
    let row := rowAnswered .capture .capture .C
    row (noHold (captureAt .acq .nothing false)) (.acqf .C .bounded) .ok ∧
      row (let s := noHold (captureAt .acq .nothing true); { s with pool := { s.pool with freeq := [] } })
        (.acqf .C .bounded) .timeout ∧
      row (captureAt .read (.frame [1, 2]) false) (.caprd .C .bounded 0) .ok ∧
      row (captureAt .read .nothing true) (.caprd .C .bounded 0) .timeout ∧
      row (captureAt .read .error false) (.caprd .C .bounded 0) .error ∧
      row (captureAt .pub .nothing false) (.pubb .C .bounded 0) .ok ∧
      row (let s := captureAt .pub .nothing true; { s with pool := { s.pool with busyq := [0, 0] } })
        (.pubb .C .bounded 0) .timeout ∧
      row (captureAt .rel .nothing false) (.relf .C 0) .ok ∧
      row { captureAt .read (.frame [1, 2]) false with waiting := { opC := some (.caprd .C .bounded 0), opM := none } }
        (.caprd .C .bounded 0) .ok :=
  ⟨⟨_, ⟨rfl, rfl⟩, Or.inl rfl, _, _, rfl, rfl, rfl⟩, ⟨_, ⟨rfl, rfl⟩, Or.inl rfl, _, _, rfl, rfl, rfl⟩,
    ⟨_, ⟨rfl, rfl⟩, Or.inl rfl, _, _, rfl, rfl, rfl⟩, ⟨_, ⟨rfl, rfl⟩, Or.inl rfl, _, _, rfl, rfl, rfl⟩,
    ⟨_, ⟨rfl, rfl⟩, Or.inl rfl, _, _, rfl, rfl, rfl⟩, ⟨_, ⟨rfl, rfl⟩, Or.inl rfl, _, _, rfl, rfl, rfl⟩,
    ⟨_, ⟨rfl, rfl⟩, Or.inl rfl, _, _, rfl, rfl, rfl⟩, ⟨_, ⟨rfl, rfl⟩, Or.inl rfl, _, _, rfl, rfl, rfl⟩,
    ⟨_, ⟨rfl, rfl⟩, Or.inr ⟨rfl, rfl, by decide⟩, _, _, rfl, rfl, rfl⟩⟩

/-- At C_READ with the source silent the command waits. -/
theorem witness_CaptureSequencerFollowsItsTable_waits :
    ∃ u, comes (captureAt .read .nothing false) u .capture .capture ∧
      ∃ v, exec (.caprd .C .bounded 0) (u.withWaiting .C none) = .next v ∧ v.waiting.opC ≠ none :=
  ⟨_, ⟨rfl, rfl⟩, _, rfl, by decide⟩

/-- `running` with the mixer sequencer at step `c`, one turn of it, what the sink presents, and the expiry. -/
def mixerAt (c : MStep) (snk : Sink) (late : Bool) : State :=
  { running with seq := { running.seq with mstep := c }, agenda := [⟨.mixer, .nothing, snk, late⟩] }

/-- The hypotheses of each row of R207, and of a write answered after a wait. -/
theorem witness_MixerSequencerFollowsItsTable :
    let noHold := fun (s : State) (q : List Token) => { s with pool := { s.pool with mhold := none, busyq := q } }
    let row := rowAnswered .mixer .mixer .M
    row (mixerAt .clr .busy false) (.oclr .M) .ok ∧
      row { mixerAt .pop .busy false with play := .playing, ring := playing.ring } (.rpop .M .bounded) .ok ∧
      row (mixerAt .pop .busy false) (.rpop .M .bounded) .skip ∧
      row { mixerAt .pop .busy true with play := .playing } (.rpop .M .bounded) .timeout ∧
      row (noHold (mixerAt .take .busy false) [1]) (.takb .M .bounded) .ok ∧
      row (noHold (mixerAt .take .busy true) []) (.takb .M .bounded) .timeout ∧
      row (mixerAt .mix .busy false) (.mixf .M 1) .ok ∧
      row { mixerAt .mix .busy false with fm := [] } (.mixf .M 1) .fault ∧
      row (mixerAt .rel .busy false) (.relf .M 1) .ok ∧
      row (mixerAt .sink .accepting false) (.sinkw .M .bounded) .ok ∧
      row (mixerAt .sink .busy true) (.sinkw .M .bounded) .timeout ∧
      row (mixerAt .sink .error false) (.sinkw .M .bounded) .error ∧
      row { mixerAt .sink .accepting false with waiting := { opC := none, opM := some (.sinkw .M .bounded) } }
        (.sinkw .M .bounded) .ok :=
  ⟨⟨_, ⟨rfl, rfl⟩, Or.inl rfl, _, _, rfl, rfl, rfl⟩, ⟨_, ⟨rfl, rfl⟩, Or.inl rfl, _, _, rfl, rfl, rfl⟩,
    ⟨_, ⟨rfl, rfl⟩, Or.inl rfl, _, _, rfl, rfl, rfl⟩, ⟨_, ⟨rfl, rfl⟩, Or.inl rfl, _, _, rfl, rfl, rfl⟩,
    ⟨_, ⟨rfl, rfl⟩, Or.inl rfl, _, _, rfl, rfl, rfl⟩, ⟨_, ⟨rfl, rfl⟩, Or.inl rfl, _, _, rfl, rfl, rfl⟩,
    ⟨_, ⟨rfl, rfl⟩, Or.inl rfl, _, _, rfl, rfl, rfl⟩, ⟨_, ⟨rfl, rfl⟩, Or.inl rfl, _, _, rfl, rfl, rfl⟩,
    ⟨_, ⟨rfl, rfl⟩, Or.inl rfl, _, _, rfl, rfl, rfl⟩, ⟨_, ⟨rfl, rfl⟩, Or.inl rfl, _, _, rfl, rfl, rfl⟩,
    ⟨_, ⟨rfl, rfl⟩, Or.inl rfl, _, _, rfl, rfl, rfl⟩, ⟨_, ⟨rfl, rfl⟩, Or.inl rfl, _, _, rfl, rfl, rfl⟩,
    ⟨_, ⟨rfl, rfl⟩, Or.inr ⟨rfl, rfl, by decide⟩, _, _, rfl, rfl, rfl⟩⟩

/-- At M_SINK with the sink busy the command waits. -/
theorem witness_MixerSequencerFollowsItsTable_waits :
    ∃ u, comes (mixerAt .sink .busy false) u .mixer .mixer ∧
      ∃ v, exec (.sinkw .M .bounded) (u.withWaiting .M none) = .next v ∧ v.waiting.opM ≠ none :=
  ⟨_, ⟨rfl, rfl⟩, _, rfl, by decide⟩

/-- `failing` at step `b` with `n` failed reads counted, one turn, what the source presents, and the expiry. -/
def bootAt (b : BStep) (n : BitVec 8) (src : Source) (late : Bool) : State :=
  { failing with fm := [(0, 0x0708), (1, 0x0708)], seq := { failing.seq with bstep := b, calcnt := n }
                 agenda := [⟨.boot, src, .busy, late⟩] }

/-- The hypotheses of each row of R256, CALCNT below and at its end, and of a read answered after a wait. -/
theorem witness_BootSequencerFollowsItsTable :
    let noHold := fun (s : State) (q : List Token) => { s with pool := { s.pool with own := [], chold := none, freeq := q } }
    let row := rowAnswered .boot .boot .C
    row (noHold (bootAt .acq 0 .nothing false) [0, 1]) (.acqf .C .bounded) .ok ∧
      row (noHold (bootAt .acq 0 .nothing true) []) (.acqf .C .bounded) .timeout ∧
      row (bootAt .read 0 (.frame [1, 2]) false) (.caprd .C .bounded 0) .ok ∧
      row (bootAt .read 0 .nothing true) (.caprd .C .bounded 0) .timeout ∧
      row (bootAt .read 254 .error false) (.caprd .C .bounded 0) .error ∧
      row (bootAt .avg 0 .nothing false) (.fidle .C 0) .ok ∧
      row (bootAt .rel 0 .nothing false) (.relf .C 0) .ok ∧
      row (bootAt .failrel 2 .nothing false) (.relf .C 0) .ok ∧
      row { bootAt .read 1 .error false with waiting := { opC := some (.caprd .C .bounded 0), opM := none } }
        (.caprd .C .bounded 0) .error :=
  ⟨⟨_, ⟨rfl, rfl⟩, Or.inl rfl, _, _, rfl, rfl, rfl⟩, ⟨_, ⟨rfl, rfl⟩, Or.inl rfl, _, _, rfl, rfl, rfl⟩,
    ⟨_, ⟨rfl, rfl⟩, Or.inl rfl, _, _, rfl, rfl, rfl⟩, ⟨_, ⟨rfl, rfl⟩, Or.inl rfl, _, _, rfl, rfl, rfl⟩,
    ⟨_, ⟨rfl, rfl⟩, Or.inl rfl, _, _, rfl, rfl, rfl⟩, ⟨_, ⟨rfl, rfl⟩, Or.inl rfl, _, _, rfl, rfl, rfl⟩,
    ⟨_, ⟨rfl, rfl⟩, Or.inl rfl, _, _, rfl, rfl, rfl⟩, ⟨_, ⟨rfl, rfl⟩, Or.inl rfl, _, _, rfl, rfl, rfl⟩,
    ⟨_, ⟨rfl, rfl⟩, Or.inr ⟨rfl, rfl, by decide⟩, _, _, rfl, rfl, rfl⟩⟩

/-- At B_READ with the source silent the command waits. -/
theorem witness_BootSequencerFollowsItsTable_waits :
    ∃ u, comes (bootAt .read 0 .nothing false) u .boot .boot ∧
      ∃ v, exec (.caprd .C .bounded 0) (u.withWaiting .C none) = .next v ∧ v.waiting.opC ≠ none :=
  ⟨_, ⟨rfl, rfl⟩, _, rfl, by decide⟩

theorem witness_inv_running : Inv (turned .mixer running) where
  params := by decide
  memory := by decide
  pool := by decide
  ring := by decide
  cfg := by decide
  waitC := trivial
  waitM := trivial
  waitSeq := ⟨Or.inl rfl, Or.inl rfl⟩
  steps := ⟨rfl, by decide, by decide, by decide, fun _ => ⟨0, rfl, by decide⟩, fun _ => ⟨1, rfl, by decide⟩⟩
  running := by decide
  calibrated := by decide
  boot := by decide

theorem witness_inv_failing : Inv (turned .boot failing) where
  params := by decide
  memory := by decide
  pool := by decide
  ring := by decide
  cfg := by decide
  waitC := trivial
  waitM := trivial
  waitSeq := ⟨rfl, Or.inl rfl⟩
  steps := ⟨by decide, rfl, rfl, rfl, rfl, by decide, by decide, by decide, by decide⟩
  running := by decide
  calibrated := by decide
  boot := by decide

/-- The invariant holds, the turn is a sequencer's, and the step answers a next state: in RUN, and at B_FAILREL. -/
theorem witness_SequencersRaiseNoFault :
    Inv (turned .mixer running) ∧ (nextTurn (turned .mixer running)).1.move ∈ [Move.boot, .capture, .mixer] ∧
      (∃ t, step (turned .mixer running) = .next t) ∧ Inv (turned .boot failing) ∧
      ∃ t, step (turned .boot failing) = .next t ∧ t.phase = .fatal :=
  ⟨witness_inv_running, by decide, ⟨_, rfl⟩, witness_inv_failing, _, rfl, rfl⟩

theorem witness_ResetGivesTheResetValues : (nextTurn (turned .reset running)).1.move = .reset := by rfl

theorem witness_ResetStateMeetsTheInvariant : small.legal := by decide

theorem witness_EveryStepKeepsTheInvariant :
    Inv (turned .mixer running) ∧ ∃ t, step (turned .mixer running) = .next t := ⟨witness_inv_running, _, rfl⟩

theorem witness_TokensAreConserved : Inv (turned .mixer running) ∧ running.pool.chold ≠ none :=
  ⟨witness_inv_running, by decide⟩

theorem witness_PhasesOnlyMoveForward : ∃ t, step (turned .boot failing) = .next t := ⟨_, rfl⟩

theorem witness_FaultAndEventBitsAreSticky :
    (∃ t, step (turned .mixer running) = .next t) ∧ (nextTurn (turned .mixer running)).1.move ≠ .reset :=
  ⟨⟨_, rfl⟩, by decide⟩

theorem witness_ConfigurationIsFrozenAfterStart :
    (∃ t, step (turned .mixer running) = .next t) ∧ (nextTurn (turned .mixer running)).1.move ≠ .reset ∧
      running.phase ≠ .setup := ⟨⟨_, rfl⟩, by decide, by decide⟩

theorem witness_OnlySessionEventsMoveThePlayingFlag :
    (∃ t, step (turned (.serve .sp) { base with ports := { base.ports with sp := [0x86000000] } }) = .next t ∧
      t.play ≠ base.play) ∧
      ∃ t, step (turned .reset playing) = .next t ∧ t.play ≠ playing.play := ⟨⟨_, rfl, by decide⟩, _, rfl, by decide⟩

theorem witness_SinkLogHoldsAcceptedFrames : ∃ t, step (turned .mixer running) = .next t := ⟨_, rfl⟩

end Sys2Proof.Tests
end

section
/-! SUPPORT. The words of a command decode to it, whatever follows them (spec/30_encoding.md R90, R91, R100). -/

namespace Sys2Proof.Proofs

open Sys2Proof.Machine Sys2Proof.Laws

/-- The length and the agent of every command's words, from the lemma of its constructor. -/
theorem headWord : ∀ i : Instr, HeadWord.Statement i
  | .nop ag => HeadWord.nop ag
  | .cfgr ag r => HeadWord.cfgr ag r
  | .cfgw ag r v => HeadWord.cfgw ag r v
  | .start ag => HeadWord.start ag
  | .acqf ag wm => HeadWord.acqf ag wm
  | .pubb ag wm t => HeadWord.pubb ag wm t
  | .takb ag wm => HeadWord.takb ag wm
  | .relf ag t => HeadWord.relf ag t
  | .fst ag t k v => HeadWord.fst ag t k v
  | .fld ag t k => HeadWord.fld ag t k
  | .caprd ag wm t => HeadWord.caprd ag wm t
  | .conv ag v => HeadWord.conv ag v
  | .scale ag u => HeadWord.scale ag u
  | .lpf ag x => HeadWord.lpf ag x
  | .gate ag x => HeadWord.gate ag x
  | .fidle ag t => HeadWord.fidle ag t
  | .oclr ag => HeadWord.oclr ag
  | .rpop ag wm => HeadWord.rpop ag wm
  | .mixf ag t => HeadWord.mixf ag t
  | .sinkw ag wm => HeadWord.sinkw ag wm
  | .old ag k => HeadWord.old ag k
  | .rpush ag len payload => HeadWord.rpush ag len payload
  | .sevt ag ev => HeadWord.sevt ag ev

/-- A field narrower than IMM passes the check of R98 on the bits of IMM. -/
theorem checkFields_packHead_field {n : Nat} (hn : n ≤ 16) (opc : BitVec 6) (ag : Agent) (t : Token) (x : BitVec n)
    (hasToken : Bool) (ht : hasToken = true ∨ t = 0) :
    checkFields (packHead opc ag .poll t (x.setWidth 16)) false hasToken n =
      .ok { ag := ag, wm := .poll, tok := t, imm := x.setWidth 16 } :=
  checkFields_packHead _ _ _ _ _ _ _ _ (Or.inr rfl) ht (by rw [BitVec.toNat_setWidth_of_le hn]; exact x.isLt)

/-- A field as wide as IMM passes it. -/
theorem checkFields_packHead_imm (opc : BitVec 6) (ag : Agent) (t : Token) (x : BitVec 16) (ht : t = 0) :
    checkFields (packHead opc ag .poll t x) false false 16 = .ok { ag := ag, wm := .poll, tok := t, imm := x } :=
  checkFields_packHead _ _ _ _ _ _ _ _ (Or.inr rfl) (Or.inr ht) x.isLt

/-- The first word of a command and the words after it decode to it: one row of R97 for each operation. -/
theorem decode_encode (i : Instr) : decode ((encode i).headD 0) (encode i).tail = .ok i := by
  cases i with
  | cfgr | cfgw | fst | fld | old | sevt =>
    simp [encode, decode, checkFields_packHead_field (n := 2), checkFields_packHead_field (n := 8),
      checkFields_packHead_field (n := 12), Except.map]
  | scale | lpf | gate | rpush => simp [encode, decode, checkFields_packHead_imm, Except.map]
  | _ => simp [encode, decode, checkFields_packHead, Except.map]

theorem encode_ne_nil (i : Instr) : encode i ≠ [] := by cases i <;> simp [encode]

/-- The words of a command, with any words after them, are taken as the command. -/
theorem fetch_encode_append {i : Instr} (hi : i.wellFormed = true) (rest : List Word) :
    fetch (encode i ++ rest) = .command i rest := by
  have hlen := (headWord i hi).1
  have hdec := decode_encode i
  cases he : encode i with
  | nil => exact absurd he (encode_ne_nil i)
  | cons w extra =>
    rw [he, List.headD_cons, List.length_cons] at hlen
    rw [he, List.headD_cons, List.tail_cons] at hdec
    simp [fetch, ← hlen, hdec]

end Sys2Proof.Proofs
end

section
/-! SUPPORT. One turn (spec/00_scope.md R13): the state in which a move runs, and which command of a port a turn
serves. -/

namespace Sys2Proof.Proofs

open Sys2Proof.Machine Sys2Proof.Safety Sys2Proof.Laws

/-! ### The turn taken off -/

/-- Taking a turn off moves the agenda or the count of free turns, and nothing else. -/
theorem nextTurn_state (s : State) : ∃ ts k, (nextTurn s).2 = { s with agenda := ts, tick := k } := by
  cases h : s.agenda with
  | nil => exact ⟨[], s.tick + 1, by simp [nextTurn, h]⟩
  | cons t ts => exact ⟨ts, s.tick, by simp [nextTurn, h]⟩

/-- A turn of the move `m` differs from `s` in the turns to come and in this instant's answers, and the step is that
move, from the origin of before. -/
theorem step_of_comes {s u : State} {m : Move} {o : Origin} (h : comes s u m o) :
    ∃ (src : Source) (snk : Sink) (late : Bool) (ts : List Turn) (k : Nat),
      u = { s with now := ⟨o, src, snk, late⟩, agenda := ts, tick := k } ∧
      step s = runMove m { s with now := ⟨s.now.origin, src, snk, late⟩, agenda := ts, tick := k } := by
  obtain ⟨rfl, rfl⟩ := h
  obtain ⟨ts, k, hn⟩ := nextTurn_state s
  exact ⟨_, _, _, ts, k, by rw [hn], by rw [step, takeTurn, hn]; rfl⟩

/-! ### The command a turn serves -/

/-- Held commands are passed over, and their words stay before those behind them. -/
theorem firstServable_passes {holds : Instr → Bool} {ws : List Word}
    (hw : ∀ i rest, fetch ws = .command i rest → holds i = false) :
    ∀ (hs : List Instr) (fuel : Nat), (∀ h ∈ hs, h.wellFormed = true ∧ holds h = true) →
      (hs.flatMap encode ++ ws).length ≤ fuel →
      firstServable holds fuel (hs.flatMap encode ++ ws) = (hs.flatMap encode, fetch ws)
  | [], fuel, _, hf => by
    cases fuel with
    | zero =>
      obtain rfl : ws = [] := by simpa using hf
      rfl
    | succ n =>
      simp only [List.flatMap_nil, List.nil_append, firstServable]
      cases hc : fetch ws with
      | incomplete => rfl
      | illegal e w rest => rfl
      | command i rest => simp [hw i rest hc]
  | h :: hs, fuel, hh, hf => by
    obtain ⟨hwf, hhold⟩ := hh h List.mem_cons_self
    have hpos : 0 < (encode h).length := List.length_pos_iff.2 (encode_ne_nil h)
    rw [List.flatMap_cons, List.append_assoc] at hf ⊢
    rw [List.length_append] at hf
    cases fuel with
    | zero => omega
    | succ n =>
      have ih := firstServable_passes hw hs n (fun k hk => hh k (List.mem_cons_of_mem _ hk)) (by omega)
      simp only [firstServable, fetch_encode_append hwf, hhold, if_true, ih]
      simp

theorem held_iff {s : State} {p : CmdPort} {i : Instr} : held s p i = true ↔ heldBack s p i := by
  simp [held, heldBack, and_assoc]

/-- A served port: the held commands are passed over, and what stands first behind them decides. -/
theorem servePort_of_passedOver {s : State} {p : CmdPort} {hs : List Instr} {ws : List Word}
    (hh : passedOver s p hs) (hp : s.ports.of p = hs.flatMap encode ++ ws)
    (hw : ∀ i rest, fetch ws = .command i rest → ¬ heldBack s p i) :
    servePort p s = match fetch ws with
      | .incomplete => .next s
      | .illegal _ w rest => .next ((s.servingPort p (hs.flatMap encode ++ rest)).illegalFaulted (agOf w))
      | .command i rest => exec i (s.servingPort p (hs.flatMap encode ++ rest)) := by
  have hf : firstServable (held s p) (s.ports.of p).length (s.ports.of p) = (hs.flatMap encode, fetch ws) := by
    rw [hp]
    exact firstServable_passes (fun i rest hi => Bool.eq_false_iff.2 (held_iff.not.2 (hw i rest hi))) hs _
      (fun k hk => (hh k hk).imp_right held_iff.2) le_rfl
  simp only [servePort, hf]
  cases fetch ws <;> rfl

end Sys2Proof.Proofs
end

section
/-! The statements about one turn: O6, O7 and O14 (spec/00_scope.md R13, R14; spec/30_encoding.md R90, R100). -/

namespace Sys2Proof.Proofs

open Sys2Proof.Machine Sys2Proof.Safety Sys2Proof.Laws

/-- Settles O6: the held commands are passed over, and the command behind them is the one carried out. -/
theorem servedCommandIsExecuted : Obligations.ServedCommandIsExecuted := by
  intro s u p hs ws i rest hu hh hp hf hi
  obtain ⟨src, snk, late, ts, k, rfl, hstep⟩ := step_of_comes hu
  rw [hstep, runMove]
  refine Eq.trans (servePort_of_passedOver hh hp fun j r hj => by cases hf.symm.trans hj; exact hi) ?_
  rw [hf]
  rfl

/-- Settles O7: a presented word is appended, and behind held commands an incomplete one stays. -/
theorem wordsStayOnTheirPortUntilServed : Obligations.WordsStayOnTheirPortUntilServed := by
  constructor
  · intro s u p w hu
    obtain ⟨src, snk, late, ts, k, rfl, hstep⟩ := step_of_comes hu
    rw [hstep]
    rfl
  · intro s u p hs ws hu hh hp hf
    obtain ⟨src, snk, late, ts, k, rfl, hstep⟩ := step_of_comes hu
    rw [hstep, runMove]
    refine Eq.trans (servePort_of_passedOver hh hp fun j r hj => by cases hf.symm.trans hj) ?_
    rw [hf]

/-- Settles O14: looked at again, an operation whose checks pass goes on from its ready condition, which is `exec`. -/
theorem outstandingOperationCompletesAsIfIssued : Obligations.OutstandingOperationCompletesAsIfIssued := by
  intro s u i ag m hm hu hsetup hwait hi _ hf
  obtain ⟨src, snk, late, ts, k, rfl, hstep⟩ := step_of_comes hu
  have hmove : ∀ t, runMove m t = resumeDirect ag t := by
    simp only [List.mem_cons, Prod.mk.injEq, List.not_mem_nil, or_false] at hm
    rcases hm with ⟨rfl, rfl⟩ | ⟨rfl, rfl⟩ <;> exact fun _ => rfl
  rw [← completeOp_eq_exec hi hf, hstep, hmove, resumeDirect, if_pos hsetup, resumeAgent, hwait]

end Sys2Proof.Proofs
end

section
/-! SUPPORT. The checks of spec/60_exceptions.md R284 as the table of `firstFault` has them, against the checks that the
meanings of the operations make: register numbers (R45) and the values that may be written (R252). -/

namespace Sys2Proof.Proofs

open Sys2Proof.Machine Sys2Proof.Safety Sys2Proof.Laws

/-! ### Register numbers (R45) -/

theorem csrNumber_of_csrOfNumber {r : BitVec 8} {c : Csr} (h : csrOfNumber r = some c) : r = csrNumber c := by
  unfold csrOfNumber at h
  split at h <;> cases h <;> exact BitVec.eq_of_toNat_eq ‹_›

theorem csrOfNumber_eq_none_iff (r : BitVec 8) : csrOfNumber r = none ↔ r.toNat ∉ registerNumbers := by
  unfold csrOfNumber
  split <;> simp_all [registerNumbers]

/-! ### Values that may be written (R252) -/

/-- A mask leaves nothing of a word exactly when the word has none of the mask's bits. -/
theorem and_eq_zero_iff_getLsbD {n : Nat} {v m : BitVec n} :
    v &&& m = 0 ↔ ∀ i < n, m.getLsbD i = true → v.getLsbD i = false := by
  constructor
  · intro h i _ hm
    have := congrArg (·.getLsbD i) h
    simpa [hm] using this
  · intro h
    refine BitVec.eq_of_getLsbD_eq fun i hi => ?_
    cases hm : m.getLsbD i
    · simp [hm]
    · simp [h i hi hm]

/-- A field is 0 exactly when each of its bits is. -/
theorem field_eq_zero_iff_getLsbD {v : Word} {lo n : Nat} :
    v.toNat / 2 ^ lo % 2 ^ n = 0 ↔ ∀ j < n, v.getLsbD (lo + j) = false := by
  have hval : (v.extractLsb' lo n).toNat = v.toNat / 2 ^ lo % 2 ^ n := by
    rw [BitVec.extractLsb'_toNat, Nat.shiftRight_eq_div_pow]
  rw [← hval]
  constructor
  · intro h j hj
    have h0 : v.extractLsb' lo n = 0 := BitVec.eq_of_toNat_eq (by simpa using h)
    have := congrArg (·.getLsbD j) h0
    simpa [hj] using this
  · intro h
    have h0 : v.extractLsb' lo n = 0 := BitVec.eq_of_getLsbD_eq fun j hj => by simp [hj, h j hj]
    simp [h0]

/-- The reserved bits of CONVCFG (R31) are bits 5 to 7, 13 to 15 and 17 on. -/
theorem convcfg_reserved_iff {v : Word} :
    v &&& 0xFFFEE0E0#32 = 0#32 ↔
      v.toNat % 2 ^ 17 = v.toNat ∧ v.toNat / 2 ^ 5 % 2 ^ 3 = 0 ∧ v.toNat / 2 ^ 13 % 2 ^ 3 = 0 := by
  have hmask : ∀ i < 32, (0xFFFEE0E0#32).getLsbD i = true ↔ (5 ≤ i ∧ i < 8) ∨ (13 ≤ i ∧ i < 16) ∨ 17 ≤ i := by decide
  have htop : v.toNat % 2 ^ 17 = v.toNat ↔ v.toNat / 2 ^ 17 % 2 ^ 15 = 0 := by have := v.isLt; omega
  rw [htop, show (0#32 : Word) = 0 from rfl, and_eq_zero_iff_getLsbD]
  simp only [field_eq_zero_iff_getLsbD]
  constructor
  · intro h
    exact ⟨fun j hj => h _ (by omega) ((hmask _ (by omega)).2 (by omega)),
      fun j hj => h _ (by omega) ((hmask _ (by omega)).2 (by omega)),
      fun j hj => h _ (by omega) ((hmask _ (by omega)).2 (by omega))⟩
  · rintro ⟨h17, h5, h13⟩ i hi hm
    rcases (hmask i hi).1 hm with h | h | h
    · rw [show i = 5 + (i - 5) by omega]; exact h5 _ (by omega)
    · rw [show i = 13 + (i - 13) by omega]; exact h13 _ (by omega)
    · rw [show i = 17 + (i - 17) by omega]; exact h17 _ (by omega)

/-- The model's check of a written value is the table of R252. -/
theorem csrLegal_iff {sw : SlotWidth} {r : BitVec 8} {v : Word} {c : Csr} (h : csrOfNumber r = some c) :
    legalWrite sw r.toNat v.toNat ↔ csrWritable c = true ∧ csrLegal sw c v = true := by
  obtain rfl := csrNumber_of_csrOfNumber h
  cases c with
  | convcfg =>
    simp [legalWrite, csrNumber, csrWritable, csrLegal, convcfg_reserved_iff, convcfgLegal, convcfgOfWord,
      BitVec.extractLsb'_toNat, Nat.shiftRight_eq_div_pow, and_assoc]
  | dlv k => fin_cases k <;> simp [legalWrite, csrNumber, csrWritable]
  | calmax => simp [legalWrite, csrNumber, csrWritable, csrLegal, and_comm]
  | _ => simp [legalWrite, csrNumber, csrWritable, csrLegal]

end Sys2Proof.Proofs
end

section
/-! SUPPORT. What a command can do, said once (spec/60_exceptions.md R281, R284): the first failing check raises its
fault, or every check passes and the operation has its effect. -/

namespace Sys2Proof.Proofs

open Sys2Proof.Machine Sys2Proof.Safety Sys2Proof.Laws

/-- What an operation whose checks pass may answer: its rule's state with its response, and for the six operations that
can wait whatever their ready condition makes of them (R14). -/
def effect (i : Instr) (s t : State) : Prop :=
  match i with
  | .nop ag => t = s.answered ag .ok 0
  | .cfgr ag r => ∃ c, csrOfNumber r = some c ∧ t = s.answered ag .ok (csrRead s c)
  | .cfgw ag r v => ∃ c, csrOfNumber r = some c ∧ t = (csrWrite s c v).answered ag .ok 0
  | .start ag => t = s.started.answered ag .ok ((phaseCode s.started.phase).setWidth 32)
  | .relf ag k => t = { s with pool := s.pool.release ag k }.answered ag .ok 0
  | .fst ag k j v => t = (s.withSlot k j.toNat (slotOfWord s.params.slotW v)).answered ag .ok 0
  | .fld ag k j => ∃ x, slotAt s k j.toNat = some x ∧ t = s.answered ag .ok x
  | .conv ag v => t = s.answered ag .ok (valOfInt (convSlot s.cfg.convcfg (slotOfWord s.params.slotW v)))
  | .scale ag u => t = s.answered ag .ok (valOfInt (scaleCode s.cfg.convcfg s.cfg.idle.toNat u.toNat))
  | .lpf ag x => t = { s with filter := lpfNext s.filter x }.answered ag .ok (valOfPcm (lpfOut s.cfg s.filter x))
  | .gate ag x => t = s.answered ag .ok (valOfPcm (gateSample s.cfg x))
  | .fidle ag k => ∃ slots, frameSlots s k = some slots ∧
      t = (s.withIdle (BitVec.ofInt 16 (idleAvg s.cfg.convcfg slots s.params.frameLen))).answered ag .ok
        (valOfInt (idleAvg s.cfg.convcfg slots s.params.frameLen))
  | .oclr ag => t = { s with out := [] }.answered ag .ok 0
  | .mixf ag k => ∃ slots, frameSlots s k = some slots ∧ t = (s.mixed slots).answered ag .ok 0
  | .old ag j => t = s.answered ag .ok ((pairAt s.out j.toNat).right ++ (pairAt s.out j.toNat).left)
  | .rpush ag len payload =>
    (len.toNat > s.params.ringCap - s.ring.rfill ∧ t = s.answered ag .dropped 0) ∨
      (len.toNat ≤ s.params.ringCap - s.ring.rfill ∧
        t = (s.pushed (chunkOf len payload)).answered ag .ok (len.setWidth 32))
  | .sevt ag ev => t = (s.afterEvent ev).answered ag .ok ((playCode (s.afterEvent ev).play).setWidth 32)
  | .acqf _ _ | .pubb _ _ _ | .takb _ _ | .caprd _ _ _ | .rpop _ _ | .sinkw _ _ => completeOp i s = .next t

/-- Steps 5 to 7 of R284: the checks after port, agent and phase. -/
def lateFault (i : Instr) (s : State) : Option Cause := (rangeFault i s).or ((ownFault i s).or (contentFault i s))

/-- The command raises the fault `f` of its first failing check, or, there being none, has its effect. -/
def decides (f : Option Cause) (i : Instr) (s t : State) : Prop :=
  (∃ c, f = some c ∧ t = s.faulted i.agent c) ∨ (f = none ∧ effect i s t)

theorem decides_fault {f : Option Cause} {i : Instr} {s t : State} (c : Cause) (hf : f = some c)
    (ht : t = s.faulted i.agent c) : decides f i s t := Or.inl ⟨c, hf, ht⟩

/-- Port, agent and phase first (R284 steps 3 and 4): what is left are the later checks. -/
theorem decides_of_checked {i : Instr} {s t : State} {ps : List Phase} {body : Result} (hps : ps = legalPhases i)
    (h : checked s i.agent (issuers i) ps body = .next t)
    (hb : body = .next t → decides (lateFault i s) i s t) : decides (firstFault i s) i s t := by
  subst hps
  rcases checked_eq_next.1 h with ⟨hc, ht⟩ | ⟨hc, hp, ht⟩ | ⟨hc, hp, ht⟩
  · exact decides_fault .agent (by simp [firstFault, hc]) ht
  · exact decides_fault .phase (by simp [firstFault, hc, hp]) ht
  · rw [show firstFault i s = lateFault i s by simp [firstFault, hc, hp, lateFault]]
    exact hb ht

/-- An operation with no check after the phase. -/
theorem decides_of_plain {i : Instr} {s t : State} {ps : List Phase} {body : Result} (hps : ps = legalPhases i)
    (h : checked s i.agent (issuers i) ps body = .next t) (he : body = .next t → effect i s t)
    (hf : lateFault i s = none := by simp [lateFault, rangeFault, ownFault, contentFault, tokenOf, indexOf]) :
    decides (firstFault i s) i s t := decides_of_checked hps h fun hb => Or.inr ⟨hf, he hb⟩

/-- Step 6 for ACQF and TAKB: the agent holds no frame yet. -/
theorem decides_of_hold {i : Instr} {s t : State} {hold : Option Token} {body : Result}
    (hl : lateFault i s = if hold = none then none else some .hold)
    (h : (if hold.isSome then raiseFault s i.agent .hold else body) = .next t) (he : body = .next t → effect i s t) :
    decides (lateFault i s) i s t := by
  rw [hl]
  cases hold with
  | none => exact Or.inr ⟨rfl, he h⟩
  | some k => exact decides_fault .hold rfl (raiseFault_eq_next.1 h)

/-- Steps 5 and 6 for an operation on a token: in range, and the agent's own. -/
theorem decides_of_owned {i : Instr} {s t : State} {k : Token} {body : Result}
    (hr : rangeFault i s = if k.toNat < s.params.depth then none else some .range)
    (ho : ownFault i s = if s.pool.heldBy i.agent = some k then none else some .own)
    (h : owned s i.agent k body = .next t) (hb : body = .next t → decides (contentFault i s) i s t) :
    decides (lateFault i s) i s t := by
  rw [lateFault, hr, ho]
  rcases owned_eq_next.1 h with ⟨hk, ht⟩ | ⟨hk, hh, ht⟩ | ⟨hk, hh, ht⟩
  · exact decides_fault .range (by rw [if_neg hk]; rfl) ht
  · exact decides_fault .own (by rw [if_pos hk, if_neg hh]; rfl) ht
  · rw [if_pos hk, if_pos hh]
    exact hb ht

/-- Steps 5 and 6 for FST and FLD: the index first, then the token. -/
theorem decides_of_indexed {i : Instr} {s t : State} {k : Token} {j : BitVec 12} {body : Result}
    (hi : (∃ ag v, i = .fst ag k j v) ∨ ∃ ag, i = .fld ag k j)
    (h : (if ¬ indexInRange s j then raiseFault s i.agent .range else owned s i.agent k body) = .next t)
    (hb : body = .next t → decides (contentFault i s) i s t) : decides (lateFault i s) i s t := by
  have hl : rangeFault i s = (if k.toNat < s.params.depth ∧ indexInRange s j then none else some .range) ∧
      ownFault i s = if s.pool.heldBy i.agent = some k then none else some .own := by
    rcases hi with ⟨ag, v, rfl⟩ | ⟨ag, rfl⟩ <;> simp [rangeFault, ownFault, tokenOf, indexOf]
  obtain ⟨hrange, hown⟩ := hl
  split at h
  · next hj => exact decides_fault .range (by simp [lateFault, hrange, hj]) (raiseFault_eq_next.1 h)
  · next hj => exact decides_of_owned (by simp [hrange, not_not.1 hj]) hown h hb

/-- The frame is read whole exactly when each of its slots is defined (R195, R232). -/
theorem frameSlots_eq_none_iff {s : State} {k : Token} :
    frameSlots s k = none ↔ ¬∀ j < s.params.frameLen, slotAt s k j ≠ none := by
  rw [← Option.not_isSome_iff_eq_none, frameSlots, Memory.readAll_isSome]
  simp [slotAt, slotAddr, Option.isSome_iff_ne_none]

/-- Step 7 for FIDLE and MIXF: every slot of the agent's frame is defined. -/
theorem decides_of_frame {i : Instr} {s t : State} {k : Token} {body : Result}
    (hi : (∃ ag, i = .fidle ag k) ∨ ∃ ag, i = .mixf ag k) (h : owned s i.agent k body = .next t)
    (hn : frameSlots s k = none → body = raiseFault s i.agent .undef)
    (hs : ∀ slots, frameSlots s k = some slots → body = .next t → effect i s t) : decides (lateFault i s) i s t := by
  have hl : rangeFault i s = (if k.toNat < s.params.depth then none else some .range) ∧
      ownFault i s = (if s.pool.heldBy i.agent = some k then none else some .own) ∧
      contentFault i s = if ∀ j < s.params.frameLen, slotAt s k j ≠ none then none else some .undef := by
    rcases hi with ⟨ag, rfl⟩ | ⟨ag, rfl⟩ <;> simp [rangeFault, ownFault, contentFault, tokenOf, indexOf]
  obtain ⟨hrange, hown, hcontent⟩ := hl
  refine decides_of_owned hrange hown h fun hb => ?_
  rw [hcontent]
  cases hf : frameSlots s k with
  | none =>
    rw [hn hf, raiseFault_eq_next] at hb
    exact decides_fault .undef (if_neg (frameSlots_eq_none_iff.1 hf)) hb
  | some slots =>
    have hall : ∀ j < s.params.frameLen, slotAt s k j ≠ none :=
      not_not.1 (frameSlots_eq_none_iff.not.1 (by simp [hf]))
    exact Or.inr ⟨if_pos hall, hs slots hf hb⟩

theorem startable_eq_false_iff {s : State} : startable s = false ↔ notStartable s := by
  simp only [startable, notStartable, Bool.and_eq_false_iff, Bool.not_eq_false', Bool.and_eq_true, Bool.not_eq_true',
    decide_eq_true_eq, Option.isNone_eq_false_iff, Option.isSome_iff_ne_none]
  tauto

/-! ### One operation at a time -/

theorem decides_cfgr {ag : Agent} {r : BitVec 8} {s t : State} (h : execCfgr ag r s = .next t) :
    decides (firstFault (.cfgr ag r) s) (.cfgr ag r) s t := by
  refine decides_of_checked rfl h fun hb => ?_
  have hr := csrOfNumber_eq_none_iff r
  cases hc : csrOfNumber r with
  | none =>
    rw [hc, raiseFault_eq_next] at hb
    exact decides_fault .range (by simp [lateFault, rangeFault, hr.1 hc]) hb
  | some c =>
    rw [hc, respond_eq_next] at hb
    have hm : r.toNat ∈ registerNumbers := by simpa [hc] using hr
    exact Or.inr ⟨by simp [lateFault, rangeFault, ownFault, contentFault, tokenOf, hm], c, hc, hb⟩

/-- A number that is no register's is in no row of R252. -/
theorem not_legalWrite_of_unimplemented {sw : SlotWidth} {r : BitVec 8} {v : Nat} (h : csrOfNumber r = none) :
    ¬ legalWrite sw r.toNat v := by
  intro hl
  refine (csrOfNumber_eq_none_iff r).1 h ?_
  have hsub : [0x06, 0x08, 0x09, 0x0A, 0x0B, 0x0C] ⊆ registerNumbers := by decide
  rcases hl with ⟨hr, -⟩ | ⟨hr, -⟩ | ⟨hr, -⟩ | ⟨hr, -⟩
  · simp [hr, registerNumbers]
  · simp [hr, registerNumbers]
  · exact hsub hr
  · simp [hr, registerNumbers]

theorem decides_cfgw {ag : Agent} {r : BitVec 8} {v : Word} {s t : State} (h : execCfgw ag r v s = .next t) :
    decides (firstFault (.cfgw ag r v) s) (.cfgw ag r v) s t := by
  refine decides_of_checked rfl h fun hb => ?_
  have hl : lateFault (.cfgw ag r v) s = if legalWrite s.params.slotW r.toNat v.toNat then none else some .range := by
    simp only [lateFault, rangeFault, ownFault, contentFault, tokenOf]
    simp
  rw [hl]
  cases hc : csrOfNumber r with
  | none =>
    rw [hc, raiseFault_eq_next] at hb
    exact decides_fault .range (if_neg (not_legalWrite_of_unimplemented hc)) hb
  | some c =>
    rw [hc] at hb
    simp only [csrLegal_iff hc]
    cases hw : csrWritable c with
    | false => exact decides_fault .range (if_neg (by simp)) (by simpa [hw, Instr.agent] using hb)
    | true =>
      cases hv : csrLegal s.params.slotW c v with
      | false => exact decides_fault .range (if_neg (by simp)) (by simpa [hw, hv, Instr.agent] using hb)
      | true => exact Or.inr ⟨if_pos ⟨rfl, rfl⟩, c, hc, by simpa [hw, hv] using hb⟩

theorem decides_start {ag : Agent} {s t : State} (h : execStart ag s = .next t) :
    decides (firstFault (.start ag) s) (.start ag) s t := by
  refine decides_of_checked rfl h fun hb => ?_
  have hl : lateFault (.start ag) s = if notStartable s then some .cfg else none := by
    simp [lateFault, rangeFault, ownFault, contentFault, tokenOf, indexOf]
  rw [hl]
  split at hb
  · next hs => exact decides_fault .cfg (if_pos (startable_eq_false_iff.1 hs)) (raiseFault_eq_next.1 hb)
  · next hs => exact Or.inr ⟨if_neg (startable_eq_false_iff.not.1 hs), respond_eq_next.1 hb⟩

theorem decides_acqf {ag : Agent} {wm : WaitMode} {s t : State} (h : execAcqf ag wm s = .next t) :
    decides (firstFault (.acqf ag wm) s) (.acqf ag wm) s t :=
  decides_of_checked rfl h fun hb => decides_of_hold (hold := s.pool.chold)
    (by simp [lateFault, rangeFault, ownFault, contentFault, tokenOf, indexOf]) hb id

theorem decides_takb {ag : Agent} {wm : WaitMode} {s t : State} (h : execTakb ag wm s = .next t) :
    decides (firstFault (.takb ag wm) s) (.takb ag wm) s t :=
  decides_of_checked rfl h fun hb => decides_of_hold (hold := s.pool.mhold)
    (by simp [lateFault, rangeFault, ownFault, contentFault, tokenOf, indexOf]) hb id

/-- PUBB, CAPRD and RELF: no check but those of an operation on a token. -/
theorem decides_of_owned_effect {i : Instr} {s t : State} {k : Token} {body : Result} {ps : List Phase}
    (hk : ∃ ag wm, i = .pubb ag wm k ∨ i = .caprd ag wm k ∨ i = .relf ag k) (hps : ps = legalPhases i)
    (h : checked s i.agent (issuers i) ps (owned s i.agent k body) = .next t) (hb : body = .next t → effect i s t) :
    decides (firstFault i s) i s t := by
  refine decides_of_checked hps h fun ho => ?_
  obtain ⟨ag, wm, rfl | rfl | rfl⟩ := hk
  all_goals
    refine decides_of_owned (by simp [rangeFault, tokenOf, indexOf]) (by simp [ownFault, tokenOf]) ho fun hx => ?_
    exact Or.inr ⟨rfl, hb hx⟩

theorem decides_fst {ag : Agent} {k : Token} {j : BitVec 12} {v : Word} {s t : State}
    (h : execFst ag k j v s = .next t) : decides (firstFault (.fst ag k j v) s) (.fst ag k j v) s t :=
  decides_of_checked rfl h fun hb =>
    decides_of_indexed (Or.inl ⟨ag, v, rfl⟩) hb fun hx => Or.inr ⟨rfl, respond_eq_next.1 hx⟩

theorem decides_fld {ag : Agent} {k : Token} {j : BitVec 12} {s t : State} (h : execFld ag k j s = .next t) :
    decides (firstFault (.fld ag k j) s) (.fld ag k j) s t := by
  refine decides_of_checked rfl h fun hb => decides_of_indexed (Or.inr ⟨ag, rfl⟩) hb fun hx => ?_
  cases hs : slotAt s k j.toNat with
  | none =>
    rw [hs, raiseFault_eq_next] at hx
    exact decides_fault .undef (by simp [contentFault, hs]) hx
  | some x =>
    rw [hs, respond_eq_next] at hx
    exact Or.inr ⟨by simp [contentFault, hs], x, hs, hx⟩

theorem decides_fidle {ag : Agent} {k : Token} {s t : State} (h : execFidle ag k s = .next t) :
    decides (firstFault (.fidle ag k) s) (.fidle ag k) s t :=
  decides_of_checked (by cases ag <;> rfl) h fun ho =>
    decides_of_frame (Or.inl ⟨ag, rfl⟩) ho (fun hn => by rw [hn]; rfl)
      fun slots hs hb => ⟨slots, hs, by rwa [hs, respond_eq_next] at hb⟩

theorem decides_mixf {ag : Agent} {k : Token} {s t : State} (h : execMixf ag k s = .next t) :
    decides (firstFault (.mixf ag k) s) (.mixf ag k) s t :=
  decides_of_checked rfl h fun ho =>
    decides_of_frame (Or.inr ⟨ag, rfl⟩) ho (fun hn => by rw [hn]; rfl)
      fun slots hs hb => ⟨slots, hs, by rwa [hs, respond_eq_next] at hb⟩

theorem decides_scale {ag : Agent} {u : BitVec 16} {s t : State} (h : execScale ag u s = .next t) :
    decides (firstFault (.scale ag u) s) (.scale ag u) s t := by
  refine decides_of_checked (by cases ag <;> rfl) h fun hb => ?_
  have hl : lateFault (.scale ag u) s = if u.toNat ≤ maxCode s.cfg.convcfg then none else some .range := by
    simp [lateFault, rangeFault, ownFault, contentFault, tokenOf]
  rw [hl]
  split at hb
  · next hu => exact decides_fault .range (if_neg (by omega)) (raiseFault_eq_next.1 hb)
  · next hu => exact Or.inr ⟨if_pos (by omega), respond_eq_next.1 hb⟩

theorem decides_old {ag : Agent} {j : BitVec 12} {s t : State} (h : execOld ag j s = .next t) :
    decides (firstFault (.old ag j) s) (.old ag j) s t := by
  refine decides_of_checked (by cases ag <;> rfl) h fun hb => ?_
  have hl : lateFault (.old ag j) s = if indexInRange s j then none else some .range := by
    simp [lateFault, rangeFault, ownFault, contentFault, tokenOf, indexOf]
  rw [hl]
  split at hb
  · next hj => exact decides_fault .range (if_neg hj) (raiseFault_eq_next.1 hb)
  · next hj => exact Or.inr ⟨if_pos (not_not.1 hj), respond_eq_next.1 hb⟩

theorem decides_rpush {ag : Agent} {len : BitVec 16} {payload : List Word} {s t : State}
    (h : execRpush ag len payload s = .next t) :
    decides (firstFault (.rpush ag len payload) s) (.rpush ag len payload) s t := by
  unfold execRpush at h
  split at h
  · cases h
  · refine decides_of_checked rfl h fun hb => ?_
    have hl : lateFault (.rpush ag len payload) s =
        if len.toNat = 0 ∨ len.toNat % 4 ≠ 0 then some .badlen else none := by
      simp [lateFault, rangeFault, ownFault, contentFault, tokenOf]
    rw [hl]
    split at hb
    · next hbad => exact decides_fault .badlen (if_pos hbad) (raiseFault_eq_next.1 hb)
    · next hbad =>
      refine Or.inr ⟨if_neg hbad, ?_⟩
      split at hb
      · next hfull => exact Or.inl ⟨hfull, respond_eq_next.1 hb⟩
      · next hroom => exact Or.inr ⟨Nat.not_lt.1 hroom, respond_eq_next.1 hb⟩

/-- What a command can do: it raises the fault of its first failing check, or, every check passing, has its effect. -/
theorem exec_decides {i : Instr} {s t : State} (h : exec i s = .next t) : decides (firstFault i s) i s t := by
  cases i with
  | nop ag => exact decides_of_plain (by cases ag <;> rfl) h respond_eq_next.1
  | cfgr ag r => exact decides_cfgr h
  | cfgw ag r v => exact decides_cfgw h
  | start ag => exact decides_start h
  | acqf ag wm => exact decides_acqf h
  | pubb ag wm k => exact decides_of_owned_effect ⟨ag, wm, Or.inl rfl⟩ rfl h id
  | takb ag wm => exact decides_takb h
  | relf ag k =>
    exact decides_of_owned_effect ⟨ag, .poll, Or.inr (Or.inr rfl)⟩ (by cases ag <;> rfl) h respond_eq_next.1
  | fst ag k j v => exact decides_fst h
  | fld ag k j => exact decides_fld h
  | caprd ag wm k => exact decides_of_owned_effect ⟨ag, wm, Or.inr (Or.inl rfl)⟩ rfl h id
  | conv ag v => exact decides_of_plain (by cases ag <;> rfl) h respond_eq_next.1
  | scale ag u => exact decides_scale h
  | lpf ag x => exact decides_of_plain rfl h respond_eq_next.1
  | gate ag x => exact decides_of_plain (by cases ag <;> rfl) h respond_eq_next.1
  | fidle ag k => exact decides_fidle h
  | oclr ag => exact decides_of_plain rfl h respond_eq_next.1
  | rpop ag wm => exact decides_of_plain rfl h id
  | mixf ag k => exact decides_mixf h
  | sinkw ag wm => exact decides_of_plain rfl h id
  | old ag j => exact decides_old h
  | rpush ag len payload => exact decides_rpush h
  | sevt ag ev => exact decides_of_plain rfl h respond_eq_next.1

end Sys2Proof.Proofs
end

section
/-! SUPPORT. What a command leaves as it was (spec/60_exceptions.md R281, R283; spec/00_scope.md R14): the frame of
every operation, and what one that is not ready does. -/

namespace Sys2Proof.Proofs

open Sys2Proof.Machine Sys2Proof.Safety Sys2Proof.Laws

/-! ### Frames -/

/-- `keeps` part by part. -/
theorem keeps_iff {ps : List Part} {s t : State} :
    keeps ps s t ↔ t.params = s.params ∧ t.ports = s.ports ∧ t.agenda = s.agenda ∧ t.tick = s.tick ∧
      (.fm ∉ ps → t.fm = s.fm) ∧ (.pool ∉ ps → t.pool = s.pool) ∧ (.ring ∉ ps → t.ring = s.ring) ∧
      (.play ∉ ps → t.play = s.play) ∧ (.out ∉ ps → t.out = s.out) ∧ (.filter ∉ ps → t.filter = s.filter) ∧
      (.cfg ∉ ps → t.cfg = s.cfg) ∧ (.caldone ∉ ps → t.caldone = s.caldone) ∧ (.phase ∉ ps → t.phase = s.phase) ∧
      (.evt ∉ ps → t.evt = s.evt) ∧ (.fault ∉ ps → t.fault = s.fault) ∧ (.seq ∉ ps → t.seq = s.seq) ∧
      (.waiting ∉ ps → t.waiting = s.waiting) ∧ (.sinkLog ∉ ps → t.log.sink = s.log.sink) := by
  constructor
  · rintro ⟨h1, h2, h3, h4, h⟩
    exact ⟨h1, h2, h3, h4, h .fm, h .pool, h .ring, h .play, h .out, h .filter, h .cfg, h .caldone, h .phase, h .evt,
      h .fault, h .seq, h .waiting, h .sinkLog⟩
  · rintro ⟨h1, h2, h3, h4, h⟩
    refine ⟨h1, h2, h3, h4, fun p hp => ?_⟩
    obtain ⟨hfm, hpool, hring, hplay, hout, hfilter, hcfg, hcaldone, hphase, hevt, hfault, hseq, hwaiting, hsink⟩ := h
    cases p with
    | fm => exact hfm hp
    | pool => exact hpool hp
    | ring => exact hring hp
    | play => exact hplay hp
    | out => exact hout hp
    | filter => exact hfilter hp
    | cfg => exact hcfg hp
    | caldone => exact hcaldone hp
    | phase => exact hphase hp
    | evt => exact hevt hp
    | fault => exact hfault hp
    | seq => exact hseq hp
    | waiting => exact hwaiting hp
    | sinkLog => exact hsink hp

theorem keeps_part {ps : List Part} {s t : State} (h : keeps ps s t) (p : Part) (hp : p ∉ ps) : agreeOn p s t := by
  obtain ⟨-, -, -, -, hparts⟩ := h
  exact hparts p hp

theorem keeps_refl (ps : List Part) (s : State) : keeps ps s s := by simp [keeps_iff]

theorem keeps_mono {ps qs : List Part} {s t : State} (h : keeps ps s t) (hsub : ps ⊆ qs) : keeps qs s t := by
  obtain ⟨hparams, hports, hagenda, htick, hparts⟩ := h
  exact ⟨hparams, hports, hagenda, htick, fun p hp => hparts p fun hm => hp (hsub hm)⟩

/-- Recording a response changes no part. -/
theorem keeps_answered {ps : List Part} {s t : State} (h : keeps ps s t) (ag : Agent) (st : Status) (v : Word) :
    keeps ps s (t.answered ag st v) := by
  simpa [keeps_iff] using h

theorem keeps_notReady {ps : List Part} {s late t : State} {i : Instr} {wm : WaitMode} (hw : .waiting ∈ ps)
    (hl : keeps ps s late) (h : notReady s late i wm = .next t) : keeps ps s t := by
  rcases notReady_eq_next.1 h with ⟨-, rfl⟩ | ⟨-, -, rfl⟩ | ⟨-, rfl⟩
  · exact keeps_answered (keeps_refl ps s) _ _ _
  · exact keeps_answered hl _ _ _
  · simp [keeps_iff, hw]

/-- The parts an operation may write when no check fails. -/
abbrev mayEffect (i : Instr) : List Part := (mayWrite i).erase .fault

theorem fault_not_mem_mayEffect (i : Instr) : Part.fault ∉ mayEffect i := by cases i <;> simp [mayEffect, mayWrite]

/-- A waiting operation from its ready condition on. -/
theorem completeOp_keeps {i : Instr} {s t : State} (h : completeOp i s = .next t) : keeps (mayEffect i) s t := by
  cases i with
  | acqf ag wm =>
    rcases acqfReady_eq_next.1 h with ⟨-, hn⟩ | ⟨k, q, -, rfl⟩
    · exact keeps_notReady (by simp [mayWrite]) (keeps_refl _ s) hn
    · simp [keeps_iff, mayWrite]
  | pubb ag wm k =>
    rcases pubbReady_eq_next.1 h with ⟨-, hn⟩ | ⟨-, rfl⟩
    · exact keeps_notReady (by simp [mayWrite]) (keeps_refl _ s) hn
    · simp [keeps_iff, mayWrite]
  | takb ag wm =>
    rcases takbReady_eq_next.1 h with ⟨-, hn⟩ | ⟨k, q, -, rfl⟩
    · exact keeps_notReady (by simp [mayWrite]) (keeps_refl _ s) hn
    · simp [keeps_iff, mayWrite]
  | caprd ag wm k =>
    rcases caprdReady_eq_next.1 h with ⟨-, hn⟩ | ⟨-, rfl⟩ | ⟨d, -, rfl⟩
    · exact keeps_notReady (by simp [mayWrite]) (by simp [keeps_iff, mayWrite]) hn
    · simp [keeps_iff, mayWrite]
    · simp [keeps_iff, mayWrite]
  | rpop ag wm =>
    rcases rpopReady_eq_next.1 h with ⟨-, rfl⟩ | ⟨-, -, hn⟩ | ⟨-, -, rfl⟩
    · exact keeps_answered (keeps_refl _ s) _ _ _
    · exact keeps_notReady (by simp [mayWrite]) (keeps_refl _ s) hn
    · simp [keeps_iff, mayWrite]
  | sinkw ag wm =>
    rcases sinkwReady_eq_next.1 h with ⟨-, hn⟩ | ⟨-, rfl⟩ | ⟨-, rfl⟩
    · exact keeps_notReady (by simp [mayWrite]) (keeps_refl _ s) hn
    · exact keeps_answered (keeps_refl _ s) _ _ _
    · simp [keeps_iff, mayWrite]
  | _ => cases h; exact keeps_refl _ _

/-- An effect writes only the parts its rule names. -/
theorem effect_keeps {i : Instr} {s t : State} (h : effect i s t) : keeps (mayEffect i) s t := by
  cases i with
  | acqf | pubb | takb | caprd | rpop | sinkw => exact completeOp_keeps h
  | cfgr | cfgw | fld | fidle | mixf =>
    obtain ⟨x, -, rfl⟩ := h
    simp [keeps_iff, mayWrite]
  | rpush ag len payload =>
    rcases h with ⟨-, rfl⟩ | ⟨-, rfl⟩ <;> simp [keeps_iff, mayWrite]
  | sevt ag ev =>
    cases h
    cases ev with
    | connected | disconnected | playing | paused => simp [keeps_iff, mayWrite, State.afterEvent]
  | _ =>
    cases h
    simp [keeps_iff, mayWrite]

/-- Whatever a command does, it writes only its parts. -/
theorem exec_keeps {i : Instr} {s t : State} (h : exec i s = .next t) : keeps (mayWrite i) s t := by
  rcases exec_decides h with ⟨c, -, rfl⟩ | ⟨-, he⟩
  · have hm : Part.fault ∈ mayWrite i := by cases i <;> simp [mayWrite]
    simp [keeps_iff, hm]
  · exact keeps_mono (effect_keeps he) List.erase_subset

/-! ### Checks that passed -/

/-- With no failing check the port carries the agent, the operation is one of the agent's, and the phase is legal. -/
theorem mayIssue_of_firstFault {i : Instr} {s : State} (h : firstFault i s = none) : mayIssue i s := by
  unfold firstFault at h
  split at h
  · cases h
  · next hc =>
    split at h
    · cases h
    · next hp => exact ⟨(not_not.1 hc).1, (not_not.1 hc).2, not_not.1 hp⟩

/-- With no failing check the command has its effect. -/
theorem effect_of_passed {i : Instr} {s t : State} (hf : firstFault i s = none) (h : exec i s = .next t) :
    effect i s t := by
  rcases exec_decides h with ⟨c, hc, -⟩ | ⟨-, he⟩
  · cases hf.symm.trans hc
  · exact he

/-- The operations that wait are those of agents C and M (R97). -/
theorem agent_of_waits {i : Instr} {s : State} (hf : firstFault i s = none) (hw : (waitModeOf i).isSome = true) :
    i.agent = .C ∨ i.agent = .M := by
  obtain ⟨-, hi, -⟩ := mayIssue_of_firstFault hf
  cases i with
  | acqf | pubb | caprd => exact Or.inl (List.mem_singleton.1 hi)
  | takb | rpop | sinkw => exact Or.inr (List.mem_singleton.1 hi)
  | _ => cases hw

/-! ### An operation that is not ready (R14) -/

/-- The state in which a BOUNDED wait that expires answers: CAPRD leaves its frame undefined (R150). -/
def lateState (i : Instr) (s : State) : State :=
  match i with
  | .caprd _ _ k => s.withUndefFrame k
  | _ => s

/-- An operation that is not ready does what its wait mode says. -/
theorem completeOp_of_not_ready {i : Instr} {s : State} {wm : WaitMode} (hw : waitModeOf i = some wm)
    (hr : ready i s = false) : completeOp i s = notReady s (lateState i s) i wm := by
  cases i with
  | acqf ag m =>
    have hq : s.pool.freeq = [] := by simpa [ready] using hr
    cases hw
    simp [completeOp, acqfReady, hq, lateState]
  | pubb ag m k =>
    have hq : s.params.depth ≤ s.pool.busyq.length := by simpa [ready] using hr
    cases hw
    simp [completeOp, pubbReady, hq, lateState]
  | takb ag m =>
    have hq : s.pool.busyq = [] := by simpa [ready] using hr
    cases hw
    simp [completeOp, takbReady, hq, lateState]
  | caprd ag m k =>
    have hs : s.now.source = .nothing := by simpa [ready] using hr
    cases hw
    simp [completeOp, caprdReady, hs, lateState]
  | rpop ag m =>
    obtain ⟨hp, hz⟩ : s.play = .playing ∧ s.ring.rfill = 0 := by simpa [ready] using hr
    cases hw
    simp [completeOp, rpopReady, hp, hz, lateState]
  | sinkw ag m =>
    have hs : s.now.sink = .busy := by simpa [ready] using hr
    cases hw
    simp [completeOp, sinkwReady, hs, lateState]
  | _ => cases hw

/-- A range written leaves every address outside it alone, whatever the form of the space. -/
theorem read_putAll_outside {α : Type} {x : Nat} (os : List (Option α)) :
    ∀ (m : Memory α) (a : Nat), x < a ∨ a + os.length ≤ x → Memory.read (Memory.putAll m a os) x = Memory.read m x := by
  induction os with
  | nil => exact fun m a _ => rfl
  | cons o os ih =>
    intro m a hx
    rw [List.length_cons] at hx
    rw [Memory.putAll_cons, ih _ _ (by omega), Memory.read_put_other m o (by omega)]

/-- In the frame marked `undef` every slot reads as no value. -/
theorem slotAt_withUndefFrame {s : State} {k : Token} (hs : Memory.sorted s.fm) {j : Nat} (hj : j < s.params.frameLen) :
    slotAt (s.withUndefFrame k) k j = none := by
  have hin : slotAddr s k 0 ≤ slotAddr s k j ∧ slotAddr s k j < slotAddr s k 0 + s.params.frameLen := by
    simp only [slotAddr]; omega
  change Memory.read (s.withUndefFrame k).fm (slotAddr s k j) = none
  rw [State.withUndefFrame_fm, Memory.read_putAll hs, List.length_replicate, if_pos hin, List.getElem?_replicate]
  split <;> rfl

end Sys2Proof.Proofs
end

section
/-! What a command whose checks pass answers, and what one that is not ready does: O12 and O13 (spec/00_scope.md R13,
R14; spec/60_exceptions.md R283). -/

namespace Sys2Proof.Proofs

open Sys2Proof.Machine Sys2Proof.Safety Sys2Proof.Laws

/-- Settles O13: from its ready condition on, the operation does what its wait mode makes of it. -/
theorem unreadyOperationFollowsItsWaitMode : Obligations.UnreadyOperationFollowsItsWaitMode := by
  intro i s wm hf hw hr
  have hexec : exec i s = notReady s (lateState i s) i wm :=
    (completeOp_eq_exec (by rw [hw]; rfl) hf).symm.trans (completeOp_of_not_ready hw hr)
  have hwaits := withWaiting_becomesOutstanding (s := s) (agent_of_waits hf (by rw [hw]; rfl))
  rw [hexec]
  rcases notReady_cases s (lateState i s) i wm with ⟨rfl, e⟩ | ⟨rfl, hx, e⟩ | ⟨hm, e⟩
  · exact ⟨_, e, by rw [if_pos rfl]; exact ⟨rfl, keeps_answered (keeps_refl _ s) _ _ _⟩⟩
  · refine ⟨_, e, ?_⟩
    rw [if_neg (by simp), if_pos ⟨rfl, hx⟩]
    cases i with
    | caprd ag m k =>
      refine ⟨rfl, by simp [keeps_iff, lateState], fun hs j hj => slotAt_withUndefFrame hs hj, fun a ha => ?_⟩
      exact read_putAll_outside _ _ _ (by simpa [slotAddr] using ha)
    | _ => exact ⟨rfl, keeps_answered (keeps_refl _ s) _ _ _⟩
  · refine ⟨_, e, ?_⟩
    rwa [if_neg (by rintro rfl; simp at hm), if_neg (by rintro ⟨rfl, hx⟩; simp [hx] at hm)]

/-- The next state has one response more, in a status listed for the operation at this instant; one that is not OK
changes nothing. -/
def answersOnce (i : Instr) (s t : State) : Prop :=
  ∃ st ∈ endsIn i s, ∃ v, responds s t i.agent st v ∧ t.waiting = s.waiting ∧
    (st ≠ .ok → v = 0 ∧ keeps (match i with | .caprd _ _ _ => [.fm] | _ => []) s t)

theorem answersOnce_ok {i : Instr} {s s' : State} {v : Word} (hst : .ok ∈ endsIn i s)
    (hlog : s'.log.responses = s.log.responses) (hnow : s'.now.origin = s.now.origin)
    (hwait : s'.waiting = s.waiting) : answersOnce i s (s'.answered i.agent .ok v) :=
  ⟨.ok, hst, v, by simp [responds, hlog, hnow], hwait, fun h => absurd rfl h⟩

theorem answersOnce_other {i : Instr} {s : State} {st : Status} (hst : st ∈ endsIn i s) :
    answersOnce i s (s.answered i.agent st 0) :=
  ⟨st, hst, 0, rfl, rfl, fun _ => ⟨rfl, keeps_answered (keeps_refl _ s) _ _ _⟩⟩

/-- An operation that cannot wait answers once. -/
theorem effect_answersOnce {i : Instr} {s t : State} (hw : waitModeOf i = none) (h : effect i s t) :
    answersOnce i s t := by
  cases i with
  | acqf | pubb | takb | caprd | rpop | sinkw => cases hw
  | cfgr | cfgw | fld | fidle | mixf =>
    obtain ⟨x, -, rfl⟩ := h
    exact answersOnce_ok (by simp [endsIn, waitModeOf]) (by simp) (by simp) (by simp)
  | rpush ag len payload =>
    rcases h with ⟨hfull, rfl⟩ | ⟨hroom, rfl⟩
    · exact answersOnce_other (by simp [endsIn, waitModeOf, hfull])
    · exact answersOnce_ok (by simp [endsIn, waitModeOf, Nat.not_lt.2 hroom]) (by simp) (by simp) (by simp)
  | _ =>
    cases h
    exact answersOnce_ok (by simp [endsIn, waitModeOf]) (by simp) (by simp) (by simp)

/-- An operation that can wait and is ready answers once. -/
theorem completeOp_answersOnce {i : Instr} {s t : State} {wm : WaitMode} (hw : waitModeOf i = some wm)
    (hr : ready i s = true) (h : completeOp i s = .next t) : answersOnce i s t := by
  cases i with
  | acqf ag m =>
    have hq : s.pool.freeq ≠ [] := by simpa [ready] using hr
    rcases acqfReady_eq_next.1 h with ⟨hn, -⟩ | ⟨k, q, -, rfl⟩
    · exact absurd hn hq
    · exact answersOnce_ok (by simp [endsIn, hr]) rfl rfl rfl
  | pubb ag m k =>
    have hq : s.pool.busyq.length < s.params.depth := by simpa [ready] using hr
    rcases pubbReady_eq_next.1 h with ⟨hn, -⟩ | ⟨-, rfl⟩
    · exact absurd hn (Nat.not_le.2 hq)
    · exact answersOnce_ok (by simp [endsIn, hr]) rfl rfl rfl
  | takb ag m =>
    have hq : s.pool.busyq ≠ [] := by simpa [ready] using hr
    rcases takbReady_eq_next.1 h with ⟨hn, -⟩ | ⟨k, q, -, rfl⟩
    · exact absurd hn hq
    · exact answersOnce_ok (by simp [endsIn, hr]) rfl rfl rfl
  | caprd ag m k =>
    have hq : s.now.source ≠ .nothing := by simpa [ready] using hr
    rcases caprdReady_eq_next.1 h with ⟨hn, -⟩ | ⟨hs, rfl⟩ | ⟨d, hs, rfl⟩
    · exact absurd hn hq
    · exact ⟨.error, by simp [endsIn, hr, hs], 0, rfl, rfl, fun _ => ⟨rfl, by simp [keeps_iff]⟩⟩
    · exact answersOnce_ok (by simp [endsIn, hr, hs]) rfl rfl rfl
  | rpop ag m =>
    rcases rpopReady_eq_next.1 h with ⟨hp, rfl⟩ | ⟨hp, hz, -⟩ | ⟨hp, hz, rfl⟩
    · exact answersOnce_other (by simp [endsIn, hr, hp])
    · simp [ready, hp, hz] at hr
    · exact answersOnce_ok (by simp [endsIn, hr, hp]) rfl rfl rfl
  | sinkw ag m =>
    have hq : s.now.sink ≠ .busy := by simpa [ready] using hr
    rcases sinkwReady_eq_next.1 h with ⟨hn, -⟩ | ⟨hs, rfl⟩ | ⟨hs, rfl⟩
    · exact absurd hn hq
    · exact answersOnce_other (by simp [endsIn, hr, hs])
    · exact answersOnce_ok (by simp [endsIn, hr, hs]) rfl rfl rfl
  | _ => cases hw

/-- An operation that is not ready and answers does so in the one status its wait mode gives. -/
theorem endsIn_of_not_ready {i : Instr} {s : State} {wm : WaitMode} (hw : waitModeOf i = some wm)
    (hr : ready i s = false) :
    endsIn i s = match wm with | .poll => [.wouldblock] | .bounded => [.timeout] | .unbounded => [] := by
  cases wm <;> simp [endsIn, hw, hr]

/-- An operation that can wait and is not ready answers once, or becomes outstanding. -/
theorem exec_of_not_ready {i : Instr} {s t : State} {wm : WaitMode} (hf : firstFault i s = none)
    (hw : waitModeOf i = some wm) (hr : ready i s = false) (h : exec i s = .next t) :
    answersOnce i s t ∨
      (wm ≠ .poll ∧ (wm = .bounded → s.now.expire = false) ∧ becomesOutstanding i s t) := by
  obtain ⟨t', ht', hcase⟩ := unreadyOperationFollowsItsWaitMode i s wm hf hw hr
  obtain rfl : t' = t := by rw [h] at ht'; exact next_eq_next.1 ht'
  have hends := endsIn_of_not_ready hw hr
  split at hcase
  · next hp =>
    subst hp
    obtain ⟨hresp, hkeep⟩ := hcase
    exact Or.inl ⟨.wouldblock, by simp [hends], 0, hresp, keeps_part hkeep .waiting (by simp),
      fun _ => ⟨rfl, keeps_mono hkeep (List.nil_subset _)⟩⟩
  · next hp =>
    split at hcase
    · next hb =>
      obtain ⟨rfl, -⟩ := hb
      obtain ⟨hresp, hrest⟩ := hcase
      refine Or.inl ⟨.timeout, by simp [hends], 0, hresp, ?_⟩
      cases i with
      | caprd ag m k =>
        obtain ⟨hkeep, -⟩ := hrest
        exact ⟨keeps_part hkeep .waiting (by simp), fun _ => ⟨rfl, hkeep⟩⟩
      | _ => exact ⟨keeps_part hrest .waiting (by simp), fun _ => ⟨rfl, hrest⟩⟩
    · next hb =>
      exact Or.inr ⟨hp, fun h => Bool.eq_false_iff.2 fun hx => hb ⟨h, hx⟩, hcase⟩

/-- Settles O12: an operation that cannot wait, or is ready, answers once; one that is not ready follows its wait
mode. -/
theorem passedCommandAnswersOnceOrWaits : Obligations.PassedCommandAnswersOnceOrWaits := by
  intro i s t hf h
  have he := effect_of_passed hf h
  refine ⟨keeps_part (effect_keeps he) .fault (fault_not_mem_mayEffect i), ?_⟩
  cases hw : waitModeOf i with
  | none => exact Or.inl (effect_answersOnce hw he)
  | some wm =>
    cases hr : ready i s with
    | true => exact Or.inl (completeOp_answersOnce hw hr ((completeOp_eq_exec (by rw [hw]; rfl) hf).trans h))
    | false =>
      rcases exec_of_not_ready hf hw hr h with ha | ⟨hp, hb, ho⟩
      · exact Or.inl ha
      · exact Or.inr ⟨rfl, by simpa using hp, by simpa using hb, ho⟩

end Sys2Proof.Proofs
end

section
/-! SUPPORT. A sequencer's turn (spec/41_capture.md R156, spec/43_mixer.md R207, spec/45_host.md R256): the command of
its step carried out, then the row of its table. -/

namespace Sys2Proof.Proofs

open Sys2Proof.Machine Sys2Proof.Safety Sys2Proof.Laws

/-- An agent with nothing outstanding has nothing to drop. -/
theorem withWaiting_none_eq_self {s : State} {ag : Agent} (h : s.waiting.of ag = none) :
    s.withWaiting ag none = s := by
  cases ag with
  | C => rw [← h]; rfl
  | M => rw [← h]; rfl
  | H | R | S => rfl

/-- A sequencer's move that carries out `i`, at once or looked at again: it stays at `v` while `i` is outstanding, and
goes on by its table once `i` is answered. -/
theorem sequencerMove_of_carriedOut {o : Origin} {ag : Agent} {table stop : State → State} {s u v : State} {i : Instr}
    (hu : u = { s with now := { s.now with origin := o } })
    (hop : carriedOut (s.waiting.of ag) i (u.withWaiting ag none)) (hv : exec i (u.withWaiting ag none) = .next v) :
    sequencerMove o ag (some i) table stop s = .next (if (v.waiting.of ag).isSome then v else table v) := by
  have hgo : sequencerMove o ag (some i) table stop s =
      Result.andThen (.next v) fun s1 => if (s1.waiting.of ag).isSome then .next s1 else .next (table s1) := by
    rcases hop with hnone | ⟨hsome, hwaits, hf⟩
    · rw [withWaiting_none_eq_self (by rw [hu]; exact hnone), hu] at hv
      simp [sequencerMove, hnone, hv]
    · rw [← completeOp_eq_exec hwaits hf] at hv
      simp [sequencerMove, hsome, ← hu, resumeAgent, hv]
  rw [hgo]
  exact (apply_ite Host.Outcome.next _ _ _).symm

/-- A turn of a sequencer that carries out `i`. `hmove` says that the move `m` is that sequencer's, running and with `i`
as its command, at every state that differs from `s` in this instant's answers and the turns to come. -/
theorem step_of_sequencer {m : Move} {o : Origin} {ag : Agent} {table stop : State → State} {s u v : State} {i : Instr}
    (hu : comes s u m o)
    (hmove : ∀ n ts k, runMove m { s with now := n, agenda := ts, tick := k } =
      sequencerMove o ag (some i) table stop { s with now := n, agenda := ts, tick := k })
    (hop : carriedOut (s.waiting.of ag) i (u.withWaiting ag none)) (hv : exec i (u.withWaiting ag none) = .next v) :
    (v.waiting.of ag ≠ none → step s = .next v) ∧ (v.waiting.of ag = none → step s = .next (table v)) := by
  obtain ⟨src, snk, late, ts, k, hs, hstep⟩ := step_of_comes hu
  rw [hmove] at hstep
  have hgo := hstep.trans (sequencerMove_of_carriedOut hs hop hv)
  exact ⟨fun h => by rw [hgo, if_pos (Option.isSome_iff_ne_none.2 h)], fun h => by simp [hgo, h]⟩

/-- The status just given is the last one. -/
theorem lastStatus_of_responds {s t : State} {ag : Agent} {st : Status} {x : Word} (h : responds s t ag st x) :
    lastStatus t = some st := by
  simp [lastStatus, h]

/-- Only START writes the phase or the sequencers' registers. -/
theorem phase_seq_of_exec {i : Instr} {s t : State} (hi : ∀ ag, i ≠ .start ag) (h : exec i s = .next t) :
    t.phase = s.phase ∧ t.seq = s.seq := by
  have hm : Part.phase ∉ mayWrite i ∧ Part.seq ∉ mayWrite i := by
    cases i with
    | start ag => exact absurd rfl (hi ag)
    | _ => simp [mayWrite]
  exact ⟨keeps_part (exec_keeps h) .phase hm.1, keeps_part (exec_keeps h) .seq hm.2⟩

/-- A sequencer's command leaves the sequencers' registers to its table. -/
theorem seq_of_sequencer {m : Move} {o : Origin} {ag : Agent} {s u v : State} {i : Instr} (hu : comes s u m o)
    (hi : ∀ ag, i ≠ .start ag) (hv : exec i (u.withWaiting ag none) = .next v) : v.seq = s.seq := by
  obtain ⟨src, snk, late, ts, k, rfl, -⟩ := step_of_comes hu
  rw [(phase_seq_of_exec hi hv).2, State.withWaiting_seq]

/-- A sequencer's command that does not write the configuration leaves it. -/
theorem cfg_of_sequencer {m : Move} {o : Origin} {ag : Agent} {s u v : State} {i : Instr} (hu : comes s u m o)
    (hi : Part.cfg ∉ mayWrite i) (hv : exec i (u.withWaiting ag none) = .next v) : v.cfg = s.cfg := by
  obtain ⟨src, snk, late, ts, k, rfl, -⟩ := step_of_comes hu
  exact (keeps_part (exec_keeps hv) .cfg hi).trans (State.withWaiting_cfg _ _ _)

/-! ### Rows -/

/-- A row of R156. -/
theorem captureTable_of_row {v : State} {c c' : CStep} {st : Status} {miss : Bool} (hc : v.seq.cstep = c)
    (hst : lastStatus v = some st) (hrow : captureRow c st = some (c', miss)) :
    captureTable v =
      { v with seq := { v.seq with cstep := c' }, evt := { v.evt with capfail := v.evt.capfail || miss } } := by
  unfold captureRow at hrow
  split at hrow <;> cases hrow <;> simp [captureTable, hc, hst, State.atCStep, State.withCapfail]

/-- A row of R207. -/
theorem mixerTable_of_row {v : State} {c c' : MStep} {st : Status} {miss : Bool} (hc : v.seq.mstep = c)
    (hst : lastStatus v = some st) (hrow : mixerRow c st = some (c', miss)) :
    mixerTable v =
      { v with seq := { v.seq with mstep := c' }, evt := { v.evt with sinkmiss := v.evt.sinkmiss || miss } } := by
  unfold mixerRow at hrow
  split at hrow <;> cases hrow <;> simp [mixerTable, hc, hst, State.atMStep, State.withSinkmiss]

end Sys2Proof.Proofs
end

section
/-! The sequencers' tables: O48, O49 and O50 (spec/41_capture.md R156; spec/43_mixer.md R207; spec/45_host.md R256). -/

namespace Sys2Proof.Proofs

open Sys2Proof.Machine Sys2Proof.Safety Sys2Proof.Laws

/-- Settles O48: the command of CSTEP carried out, then the row of R156. -/
theorem captureSequencerFollowsItsTable : Obligations.CaptureSequencerFollowsItsTable := by
  intro s u v i hu hrun hstop hi hop hv
  have hcmd : captureCommand s = some i ∧ ∀ ag, i ≠ .start ag := by
    unfold captureCommand
    cases hc : s.seq.cstep with
    | acq =>
      rw [hc] at hi
      simp [hi]
    | read | pub | rel =>
      rw [hc] at hi
      obtain ⟨t, ht, rfl⟩ := hi
      simp [ht]
  obtain ⟨hcmd, hne⟩ := hcmd
  obtain ⟨hwait, hdone⟩ := step_of_sequencer (ag := .C) (table := captureTable) (stop := State.captureStopped) hu
    (fun n ts k => by rw [← hcmd]; exact if_pos ⟨hrun, hstop⟩) hop hv
  refine ⟨hwait, fun st x c miss hnone hresp hrow => ?_⟩
  rw [hdone hnone, captureTable_of_row (by rw [seq_of_sequencer hu hne hv]) (lastStatus_of_responds hresp) hrow]

/-- Settles O49: the command of MSTEP carried out, then the row of R207. -/
theorem mixerSequencerFollowsItsTable : Obligations.MixerSequencerFollowsItsTable := by
  intro s u v i hu hrun hstop hi hop hv
  have hcmd : mixerCommand s = some i ∧ ∀ ag, i ≠ .start ag := by
    unfold mixerCommand
    cases hc : s.seq.mstep with
    | clr | pop | take | sink =>
      rw [hc] at hi
      simp [hi]
    | mix | rel =>
      rw [hc] at hi
      obtain ⟨t, ht, rfl⟩ := hi
      simp [ht]
  obtain ⟨hcmd, hne⟩ := hcmd
  obtain ⟨hwait, hdone⟩ := step_of_sequencer (ag := .M) (table := mixerTable) (stop := State.mixerStopped) hu
    (fun n ts k => by rw [← hcmd]; exact if_pos ⟨hrun, hstop⟩) hop hv
  refine ⟨hwait, fun st x c miss hnone hresp hrow => ?_⟩
  rw [hdone hnone, mixerTable_of_row (by rw [seq_of_sequencer hu hne hv]) (lastStatus_of_responds hresp) hrow]

/-- A failed read counts, CALCNT not passing its end, and CALMAX decides between another read and B_FAILREL. -/
theorem calibrationMissed_eq {v : State} (h : v.seq.calcnt.toNat < 255) :
    v.calibrationMissed.seq.calcnt.toNat = v.seq.calcnt.toNat + 1 ∧
      v.calibrationMissed = { v with seq := { v.seq with
        calcnt := v.calibrationMissed.seq.calcnt
        bstep := if v.cfg.calmax.toNat ≤ v.calibrationMissed.seq.calcnt.toNat then .failrel else .read } } := by
  have hcnt : v.calibrationMissed.seq.calcnt.toNat = v.seq.calcnt.toNat + 1 := by
    simp only [State.calibrationMissed_seq, BitVec.toNat_add]
    simp; omega
  refine ⟨hcnt, ?_⟩
  rw [hcnt]
  rfl

/-- Settles O50: the command of BSTEP carried out, then the row of R256. -/
theorem bootSequencerFollowsItsTable : Obligations.BootSequencerFollowsItsTable := by
  intro s u v i hu hboot hstop hi hop hv
  have hcmd : bootCommand s = some i ∧ (∀ ag, i ≠ .start ag) ∧ (s.seq.bstep = .read → Part.cfg ∉ mayWrite i) := by
    unfold bootCommand
    cases hb : s.seq.bstep with
    | off =>
      rw [hb] at hi
      exact hi.elim
    | acq =>
      rw [hb] at hi
      simp [hi]
    | read | avg | rel | failrel =>
      rw [hb] at hi
      obtain ⟨t, ht, rfl⟩ := hi
      simp [ht, mayWrite]
  obtain ⟨hcmd, hne, hcfg⟩ := hcmd
  obtain ⟨hwait, hdone⟩ := step_of_sequencer (ag := .C) (table := bootTable) (stop := State.bootStopped) hu
    (fun n ts k => by rw [← hcmd]; exact if_pos ⟨hboot, hstop⟩) hop hv
  refine ⟨hwait, fun st x hnone hresp => ⟨_, hdone hnone, ?_⟩⟩
  have hseq := seq_of_sequencer hu hne hv
  have hst := lastStatus_of_responds hresp
  have hread : v.seq.bstep = .read → st = .timeout ∨ st = .error → v.seq.calcnt.toNat < 255 →
      (bootTable v).seq.calcnt.toNat = v.seq.calcnt.toNat + 1 ∧
        bootTable v = { v with seq := { v.seq with
          calcnt := (bootTable v).seq.calcnt
          bstep := if s.cfg.calmax.toNat ≤ (bootTable v).seq.calcnt.toNat then .failrel else .read } } := by
    intro hb hmiss hcnt
    have hrow : bootTable v = v.calibrationMissed := by rcases hmiss with rfl | rfl <;> simp [bootTable, hb, hst]
    rw [hrow, ← cfg_of_sequencer hu (hcfg (hseq ▸ hb)) hv]
    exact calibrationMissed_eq hcnt
  rw [← hseq]
  split
  · next hb => simp [bootTable, hb, hst, State.atBStep]
  · next hb =>
    have hrow : bootTable v = v.atBStep v.seq.bstep := by simp [bootTable, hb, hst]
    exact hrow
  · next hb => simp [bootTable, hb, hst, State.atBStep]
  · next hb => exact hread hb (Or.inl rfl)
  · next hb => exact hread hb (Or.inr rfl)
  · next hb => simp [bootTable, hb, hst, State.atBStep]
  · next hb => simp [bootTable, hb, hst, State.atBStep, State.calibrated]
  · next hb =>
    simp [bootTable, hb, hst, State.atBStep, State.calibrationFailed, State.withFaultBit, causeMask, causeBit]
  · trivial

end Sys2Proof.Proofs
end

section
/-! The phase (spec/00_scope.md R12; spec/45_host.md R253, R256): what moves it, and O56. -/

namespace Sys2Proof.Proofs

open Sys2Proof.Machine Sys2Proof.Safety Sys2Proof.Laws

/-- A command moves the phase only when it is START in SETUP (R253). -/
theorem exec_phase {i : Instr} {s t : State} (h : exec i s = .next t) :
    t.phase = s.phase ∨ (s.phase = .setup ∧ (t.phase = .boot ∨ t.phase = .run)) := by
  by_cases hi : ∃ ag, i = .start ag
  · obtain ⟨ag, rfl⟩ := hi
    rcases exec_decides h with ⟨c, -, rfl⟩ | ⟨hf, rfl⟩
    · exact Or.inl rfl
    · obtain ⟨-, -, hp⟩ := mayIssue_of_firstFault hf
      refine Or.inr ⟨List.mem_singleton.1 hp, ?_⟩
      cases hcal : s.cfg.pathcfg.calEn <;> simp [State.started, hcal]
  · exact Or.inl (phase_seq_of_exec (not_exists.1 hi) h).1

/-- An operation looked at again moves no phase. -/
theorem resumeAgent_phase {ag : Agent} {s t : State} (h : resumeAgent ag s = .next t) : t.phase = s.phase := by
  unfold resumeAgent at h
  split at h
  · cases h
    rfl
  · next i _ =>
    have hm : Part.phase ∉ mayEffect i ∨ completeOp i (s.withWaiting ag none) = .next (s.withWaiting ag none) := by
      cases i <;> simp [mayEffect, mayWrite, completeOp]
    rcases hm with hm | hm
    · exact (keeps_part (completeOp_keeps h) .phase hm).trans (State.withWaiting_phase _ _ _)
    · cases hm.symm.trans h
      exact State.withWaiting_phase _ _ _

/-- Outside SETUP a sequencer's move leaves the phase but for what its table does to it. -/
theorem sequencerMove_phase {o : Origin} {ag : Agent} {command : Option Instr} {table stop : State → State}
    {s t : State} (hp : s.phase ≠ .setup) (hstop : (stop s).phase = s.phase)
    (h : sequencerMove o ag command table stop s = .next t) :
    t.phase = s.phase ∨ ∃ s1, s1.phase = s.phase ∧ t = table s1 := by
  rcases sequencerMove_eq_next h with ⟨-, -, rfl⟩ | ⟨s1, hgo, hend⟩
  · exact Or.inl hstop
  · have h1 : s1.phase = s.phase := by
      rcases hgo with ⟨-, hr⟩ | ⟨-, i, -, he⟩
      · exact (resumeAgent_phase hr :)
      · exact (exec_phase he).resolve_right fun hs => hp hs.1
    rcases hend with ⟨-, rfl⟩ | ⟨-, rfl⟩
    · exact Or.inl h1
    · exact Or.inr ⟨s1, h1, rfl⟩

theorem captureTable_phase (s : State) : (captureTable s).phase = s.phase := by
  unfold captureTable
  split <;> rfl

theorem mixerTable_phase (s : State) : (mixerTable s).phase = s.phase := by
  unfold mixerTable
  split <;> rfl

theorem bootTable_phase (s : State) :
    (bootTable s).phase = s.phase ∨ (bootTable s).phase = .run ∨ (bootTable s).phase = .fatal := by
  unfold bootTable
  split <;> simp

theorem servePort_phase {p : CmdPort} {s t : State} (h : servePort p s = .next t) :
    t.phase = s.phase ∨ (s.phase = .setup ∧ (t.phase = .boot ∨ t.phase = .run)) := by
  obtain ⟨kept, f, -, ⟨-, e⟩ | ⟨-, w, rest, -, e⟩ | ⟨i, rest, -, -, e⟩⟩ := servePort_cases p s
  · cases e.symm.trans h
    exact Or.inl rfl
  · cases e.symm.trans h
    exact Or.inl rfl
  · exact (exec_phase (e.symm.trans h) :)

theorem resumeDirect_phase {ag : Agent} {s t : State} (h : resumeDirect ag s = .next t) : t.phase = s.phase := by
  unfold resumeDirect at h
  split at h
  · exact (resumeAgent_phase h :)
  · cases h
    rfl

theorem captureMove_phase {s t : State} (h : captureMove s = .next t) : t.phase = s.phase := by
  unfold captureMove at h
  split at h
  · next hrun =>
    rcases sequencerMove_phase (by simp [hrun.1]) rfl h with h1 | ⟨s1, h1, rfl⟩
    · exact h1
    · exact (captureTable_phase s1).trans h1
  · cases h
    rfl

theorem mixerMove_phase {s t : State} (h : mixerMove s = .next t) : t.phase = s.phase := by
  unfold mixerMove at h
  split at h
  · next hrun =>
    rcases sequencerMove_phase (by simp [hrun.1]) rfl h with h1 | ⟨s1, h1, rfl⟩
    · exact h1
    · exact (mixerTable_phase s1).trans h1
  · cases h
    rfl

theorem bootMove_phase {s t : State} (h : bootMove s = .next t) :
    t.phase = s.phase ∨ (s.phase = .boot ∧ (t.phase = .run ∨ t.phase = .fatal)) := by
  unfold bootMove at h
  split at h
  · next hboot =>
    rcases sequencerMove_phase (by simp [hboot.1]) rfl h with h1 | ⟨s1, h1, rfl⟩
    · exact Or.inl h1
    · exact (bootTable_phase s1).imp (fun e => e.trans h1) fun e => ⟨hboot.1, e⟩
  · cases h
    exact Or.inl rfl

/-- The phase stays in every move but a served START, the boot sequencer's last rows, and reset. -/
theorem runMove_phase {m : Move} {s t : State} (h : runMove m s = .next t) :
    t.phase = s.phase ∨ (m = .reset ∧ t.phase = .setup) ∨ (s.phase = .setup ∧ (t.phase = .boot ∨ t.phase = .run)) ∨
      (s.phase = .boot ∧ (t.phase = .run ∨ t.phase = .fatal)) := by
  cases m with
  | present p w => cases h; exact Or.inl rfl
  | serve p => exact (servePort_phase h).imp_right fun e => Or.inr (Or.inl e)
  | resumeC => exact Or.inl (resumeDirect_phase h)
  | resumeM => exact Or.inl (resumeDirect_phase h)
  | boot => exact (bootMove_phase h).imp_right fun e => Or.inr (Or.inr e)
  | capture => exact Or.inl (captureMove_phase h)
  | mixer => exact Or.inl (mixerMove_phase h)
  | reset => cases h; exact Or.inr (Or.inl ⟨rfl, rfl⟩)

/-- Settles O56: a step is one move, in a state of the same phase. -/
theorem phasesOnlyMoveForward : Obligations.PhasesOnlyMoveForward := by
  intro s t h
  obtain ⟨ts, k, hn⟩ := nextTurn_state s
  rw [step, takeTurn, hn] at h
  exact (runMove_phase h :)

end Sys2Proof.Proofs
end

section
/-! SUPPORT. The ring's valid content (spec/10_state.md R27): what a read, a removal and an appended chunk make of it. -/

namespace Sys2Proof.Proofs

open Sys2Proof.Machine Sys2Proof.Laws

/-- A run of ring bytes depends on its position modulo the capacity. -/
theorem ringBytes_mod (rb : Memory Byte) (cap pos n : Nat) : ringBytes rb cap (pos % cap) n = ringBytes rb cap pos n := by
  refine List.ext_getElem? fun j => ?_
  by_cases hj : j < n
  · rw [ringBytes_getElem? _ _ _ _ _ hj, ringBytes_getElem? _ _ _ _ _ hj, Nat.mod_add_mod]
  · rw [List.getElem?_eq_none (by simpa using hj), List.getElem?_eq_none (by simpa using hj)]

/-- Of two rings with the same valid content, the oldest `k` bytes are the same, and so are the rest. -/
theorem ringBytes_split {rb rb' : Memory Byte} {cap pos pos' n k : Nat} (hk : k ≤ n)
    (h : ringBytes rb' cap pos' n = ringBytes rb cap pos n) :
    ringBytes rb' cap pos' k = ringBytes rb cap pos k ∧
      ringBytes rb' cap (pos' + k) (n - k) = ringBytes rb cap (pos + k) (n - k) := by
  rw [← Nat.add_sub_cancel' hk, ringBytes_add, ringBytes_add] at h
  exact List.append_inj h (by simp)

theorem popCount_le (s : State) : popCount s ≤ s.ring.rfill := Nat.min_le_left _ _

/-- RPOP leaves the rest of the valid content (R191). -/
theorem ringQ_popped (s : State) :
    ringQ s.popped =
      ringBytes s.ring.rb s.params.ringCap (s.ring.rrd + popCount s) (s.ring.rfill - popCount s) :=
  ringBytes_mod _ _ _ _

/-- A chunk stored behind the valid window, with room for it, stands behind the valid content (R170). -/
theorem ringBytes_ringStore {rb : Memory Byte} (hs : Memory.sorted rb) {cap n : Nat} (pos : Nat) {bs : List Byte}
    (hroom : n + bs.length ≤ cap) :
    ringBytes (ringStore rb cap (pos + n) bs) cap pos (n + bs.length) = ringBytes rb cap pos n ++ bs := by
  rw [ringBytes_add]
  congr 1
  · refine List.ext_getElem? fun j => ?_
    by_cases hj : j < n
    · rw [ringBytes_getElem? _ _ _ _ _ hj, ringBytes_getElem? _ _ _ _ _ hj, ringByteAt, ringByteAt,
        read_ringStore_other]
      intro k hk
      exact mod_ne_of_lt (by omega) (by omega)
    · rw [List.getElem?_eq_none (by simpa using hj), List.getElem?_eq_none (by simpa using hj)]
  · refine List.ext_getElem? fun j => ?_
    by_cases hj : j < bs.length
    · rw [ringBytes_getElem? _ _ _ _ _ hj, ringByteAt, read_ringStore hs _ _ _ (by omega) _ hj,
        List.getElem?_eq_getElem hj]
      rfl
    · rw [List.getElem?_eq_none (by simpa using hj), List.getElem?_eq_none (by simpa using hj)]

/-- RPUSH appends its chunk to the valid content (R170). -/
theorem ringQ_pushed {s : State} (hs : Memory.sorted s.ring.rb) {c : List Byte}
    (hroom : s.ring.rfill + c.length ≤ s.params.ringCap) : ringQ (s.pushed c) = ringQ s ++ c :=
  ringBytes_ringStore hs _ hroom

theorem chunkOf_length_le (len : BitVec 16) (payload : List Word) : (chunkOf len payload).length ≤ len.toNat :=
  List.length_take_le _ _

end Sys2Proof.Proofs
end

section
/-! The ring's storage is invisible: O47 (spec/10_state.md R27; spec/70_reset_and_hazards.md R321). -/

namespace Sys2Proof.Proofs

open Sys2Proof.Machine Sys2Proof.Safety Sys2Proof.Laws

/-! ### A command answers a next state in every state or in none -/

theorem checked_answers {s : State} {ag : Agent} {is : List Agent} {ps : List Phase} {body : Result}
    (h : ∃ t, body = .next t) : ∃ t, checked s ag is ps body = .next t := by
  rcases checked_cases s ag is ps body with ⟨-, e⟩ | ⟨-, -, e⟩ | ⟨-, -, e⟩
  · exact ⟨_, e⟩
  · exact ⟨_, e⟩
  · rwa [e]

theorem ite_answers {p : Prop} [Decidable p] {a b : Result} (ha : ∃ t, a = .next t) (hb : ∃ t, b = .next t) :
    ∃ t, (if p then a else b) = .next t := by
  split
  · exact ha
  · exact hb

theorem owned_answers {s : State} {ag : Agent} {k : Token} {body : Result} (h : ∃ t, body = .next t) :
    ∃ t, owned s ag k body = .next t := by
  rcases owned_cases s ag k body with ⟨-, e⟩ | ⟨-, -, e⟩ | ⟨-, -, e⟩
  · exact ⟨_, e⟩
  · exact ⟨_, e⟩
  · rwa [e]

theorem notReady_answers (s late : State) (i : Instr) (wm : WaitMode) : ∃ t, notReady s late i wm = .next t := by
  rcases notReady_cases s late i wm with ⟨-, e⟩ | ⟨-, -, e⟩ | ⟨-, e⟩ <;> exact ⟨_, e⟩

theorem completeOp_answers (i : Instr) (s : State) : ∃ t, completeOp i s = .next t := by
  cases i with
  | acqf ag wm =>
    simp only [completeOp, acqfReady]
    split
    · exact notReady_answers _ _ _ _
    · exact ⟨_, rfl⟩
  | takb ag wm =>
    simp only [completeOp, takbReady]
    split
    · exact notReady_answers _ _ _ _
    · exact ⟨_, rfl⟩
  | pubb ag wm k =>
    simp only [completeOp, pubbReady]
    split
    · exact notReady_answers _ _ _ _
    · exact ⟨_, rfl⟩
  | caprd ag wm k =>
    simp only [completeOp, caprdReady]
    split
    · exact ⟨_, rfl⟩
    · exact ⟨_, rfl⟩
    · exact notReady_answers _ _ _ _
  | rpop ag wm =>
    simp only [completeOp, rpopReady]
    split
    · exact ⟨_, rfl⟩
    · split
      · exact notReady_answers _ _ _ _
      · exact ⟨_, rfl⟩
  | sinkw ag wm =>
    simp only [completeOp, sinkwReady]
    split
    · exact ⟨_, rfl⟩
    · exact ⟨_, rfl⟩
    · exact notReady_answers _ _ _ _
  | _ => exact ⟨_, rfl⟩

/-- A command that its words encode answers a next state in every state. -/
theorem exec_answers {i : Instr} (hi : i.wellFormed = true) (s : State) : ∃ t, exec i s = .next t := by
  have hfault : ∀ ag c, ∃ t, raiseFault s ag c = .next t := fun _ _ => ⟨_, rfl⟩
  have hrespond : ∀ u ag st v, ∃ t, respond u ag st v = .next t := fun _ _ _ _ => ⟨_, rfl⟩
  cases i with
  | nop | conv | lpf | gate | oclr | sevt => exact checked_answers (hrespond _ _ _ _)
  | start => exact checked_answers (ite_answers (hfault _ _) (hrespond _ _ _ _))
  | scale | old => exact checked_answers (ite_answers (hfault _ _) (hrespond _ _ _ _))
  | cfgr ag r =>
    refine checked_answers ?_
    split
    · exact hfault _ _
    · exact hrespond _ _ _ _
  | cfgw ag r v =>
    refine checked_answers ?_
    split
    · exact hfault _ _
    · exact ite_answers (hfault _ _) (ite_answers (hfault _ _) (hrespond _ _ _ _))
  | acqf ag wm => exact checked_answers (ite_answers (hfault _ _) (completeOp_answers (.acqf ag wm) s))
  | takb ag wm => exact checked_answers (ite_answers (hfault _ _) (completeOp_answers (.takb ag wm) s))
  | pubb ag wm k => exact checked_answers (owned_answers (completeOp_answers (.pubb ag wm k) s))
  | caprd ag wm k => exact checked_answers (owned_answers (completeOp_answers (.caprd ag wm k) s))
  | rpop ag wm => exact checked_answers (completeOp_answers (.rpop ag wm) s)
  | sinkw ag wm => exact checked_answers (completeOp_answers (.sinkw ag wm) s)
  | relf => exact checked_answers (owned_answers (hrespond _ _ _ _))
  | fst => exact checked_answers (ite_answers (hfault _ _) (owned_answers (hrespond _ _ _ _)))
  | fld ag k j =>
    refine checked_answers (ite_answers (hfault _ _) (owned_answers ?_))
    split
    · exact hfault _ _
    · exact hrespond _ _ _ _
  | fidle ag k =>
    refine checked_answers (owned_answers ?_)
    split
    · exact hfault _ _
    · exact hrespond _ _ _ _
  | mixf ag k =>
    refine checked_answers (owned_answers ?_)
    split
    · exact hfault _ _
    · exact hrespond _ _ _ _
  | rpush ag len payload =>
    have hlen : payload.length = payloadWords len := by simpa [Instr.wellFormed] using hi
    simp only [exec, execRpush, ne_eq, hlen, not_true, if_false]
    exact checked_answers (ite_answers (hfault _ _) (ite_answers (hrespond _ _ _ _) (hrespond _ _ _ _)))

/-- A term that no words encode answers no next state (log 14). -/
theorem wellFormed_of_exec {i : Instr} {s t : State} (h : exec i s = .next t) : i.wellFormed = true := by
  cases i with
  | rpush ag len payload =>
    by_contra hlen
    have hlen : payload.length ≠ payloadWords len := by simpa [Instr.wellFormed] using hlen
    simp [exec, execRpush, hlen] at h
  | _ => rfl

/-! ### Two states that differ in the ring alone -/

/-- No check reads the ring. -/
theorem firstFault_with_ring (i : Instr) (s : State) (r : Ring) : firstFault i { s with ring := r } = firstFault i s := by
  cases i <;> rfl

/-- The two states after a command that leaves both rings and differs in nothing else. -/
theorem ringAlike_of_ring_kept {s t : State} {r : Ring} (h : ringAlike s { s with ring := r }) (hp : t.params = s.params)
    (hr : t.ring = s.ring) : ringAlike t { t with ring := r } := by
  obtain ⟨-, hfill, hq, hrd, hrd', hle⟩ := h
  refine ⟨rfl, by rw [hr]; exact hfill, ?_, by rw [hr, hp]; exact hrd, by rw [hp]; exact hrd', by rw [hr, hp]; exact hle⟩
  simpa [ringQ, hr, hp] using hq

/-- An operation that reads no ring byte does in both states the same. -/
theorem notReady_with_ring {s late t : State} {i : Instr} {wm : WaitMode} (r : Ring)
    (h : notReady s late i wm = .next t) :
    notReady { s with ring := r } { late with ring := r } i wm = .next { t with ring := r } := by
  rcases notReady_eq_next.1 h with ⟨rfl, rfl⟩ | ⟨rfl, hx, rfl⟩ | ⟨hm, rfl⟩
  · rfl
  · exact notReady_eq_next.2 (Or.inr (Or.inl ⟨rfl, hx, rfl⟩))
  · refine notReady_eq_next.2 (Or.inr (Or.inr ⟨hm, ?_⟩))
    cases i.agent <;> rfl

/-- An operation's effect is one state. -/
theorem effect_unique {i : Instr} {s t t' : State} (h : effect i s t) (h' : effect i s t') : t' = t := by
  cases i with
  | acqf | pubb | takb | caprd | rpop | sinkw => exact next_eq_next.1 (h.symm.trans h')
  | cfgr | cfgw | fld | fidle | mixf =>
    obtain ⟨x, hx, rfl⟩ := h
    obtain ⟨y, hy, rfl⟩ := h'
    cases hx.symm.trans hy
    rfl
  | rpush ag len payload =>
    rcases h with ⟨hroom, rfl⟩ | ⟨hroom, rfl⟩ <;> rcases h' with ⟨hroom', rfl⟩ | ⟨hroom', rfl⟩
    · rfl
    · omega
    · omega
    · rfl
  | _ => exact h'.trans h.symm

/-- The operations that read or write the ring: RPOP, RPUSH, SEVT, and CFGR of RINGST (R41). -/
def usesRing : Instr → Bool
  | .rpop _ _ | .rpush _ _ _ | .sevt _ _ => true
  | .cfgr _ r => r.toNat == 0x14
  | _ => false

/-- Every other register reads the same. -/
theorem csrRead_with_ring {s : State} {r : Ring} {n : BitVec 8} {c : Csr} (hn : n.toNat ≠ 0x14)
    (hc : csrOfNumber n = some c) : csrRead { s with ring := r } c = csrRead s c := by
  cases c with
  | ringst => exact absurd (csrNumber_of_csrOfNumber hc ▸ rfl) hn
  | _ => rfl

/-- An operation that does not use the ring does the same whatever the ring is, and leaves it. -/
theorem effect_with_ring {i : Instr} {s t : State} (hi : usesRing i = false) (r : Ring) (h : effect i s t) :
    effect i { s with ring := r } { t with ring := r } := by
  cases i with
  | rpop | rpush | sevt => cases hi
  | cfgr ag n =>
    obtain ⟨c, hc, rfl⟩ := h
    exact ⟨c, hc, by rw [csrRead_with_ring (s := s) (r := r) (by simpa [usesRing] using hi) hc]; rfl⟩
  | cfgw ag n v =>
    obtain ⟨c, hc, rfl⟩ := h
    exact ⟨c, hc, by cases c <;> rfl⟩
  | start ag =>
    cases h
    cases hcal : s.cfg.pathcfg.calEn <;> simp [effect, State.started, State.reinitialised, State.answered, hcal]
  | fld | fidle | mixf =>
    obtain ⟨x, hx, rfl⟩ := h
    exact ⟨x, hx, rfl⟩
  | acqf ag wm =>
    rcases acqfReady_eq_next.1 h with ⟨hq, hn⟩ | ⟨k, q, hq, rfl⟩
    · exact acqfReady_eq_next.2 (Or.inl ⟨hq, notReady_with_ring r hn⟩)
    · exact acqfReady_eq_next.2 (Or.inr ⟨k, q, hq, rfl⟩)
  | pubb ag wm k =>
    rcases pubbReady_eq_next.1 h with ⟨hq, hn⟩ | ⟨hq, rfl⟩
    · exact pubbReady_eq_next.2 (Or.inl ⟨hq, notReady_with_ring r hn⟩)
    · exact pubbReady_eq_next.2 (Or.inr ⟨hq, rfl⟩)
  | takb ag wm =>
    rcases takbReady_eq_next.1 h with ⟨hq, hn⟩ | ⟨k, q, hq, rfl⟩
    · exact takbReady_eq_next.2 (Or.inl ⟨hq, notReady_with_ring r hn⟩)
    · exact takbReady_eq_next.2 (Or.inr ⟨k, q, hq, rfl⟩)
  | caprd ag wm k =>
    rcases caprdReady_eq_next.1 h with ⟨hs, hn⟩ | ⟨hs, rfl⟩ | ⟨d, hs, rfl⟩
    · exact caprdReady_eq_next.2 (Or.inl ⟨hs, notReady_with_ring r hn⟩)
    · exact caprdReady_eq_next.2 (Or.inr (Or.inl ⟨hs, rfl⟩))
    · exact caprdReady_eq_next.2 (Or.inr (Or.inr ⟨d, hs, rfl⟩))
  | sinkw ag wm =>
    rcases sinkwReady_eq_next.1 h with ⟨hs, hn⟩ | ⟨hs, rfl⟩ | ⟨hs, rfl⟩
    · exact sinkwReady_eq_next.2 (Or.inl ⟨hs, notReady_with_ring r hn⟩)
    · exact sinkwReady_eq_next.2 (Or.inr (Or.inl ⟨hs, rfl⟩))
    · exact sinkwReady_eq_next.2 (Or.inr (Or.inr ⟨hs, rfl⟩))
  | _ =>
    cases h
    rfl

theorem effect_ring_kept {i : Instr} {s t : State} (hi : usesRing i = false) (h : effect i s t) : t.ring = s.ring := by
  refine keeps_part (effect_keeps h) .ring ?_
  cases i <;> simp_all [mayEffect, mayWrite, usesRing]

/-! ### The operations that use the ring -/

section
variable {s : State} {r : Ring}

theorem ringAlike_answered {t u : State} (h : ringAlike t u) (ag : Agent) (st : Status) (v : Word) :
    ringAlike (t.answered ag st v) (u.answered ag st v) := by
  obtain ⟨hu, hrest⟩ := h
  exact ⟨by rw [hu]; rfl, hrest⟩

theorem popCount_with_ring (h : ringAlike s { s with ring := r }) : popCount { s with ring := r } = popCount s := by
  obtain ⟨-, hfill, -⟩ := h
  exact congrArg (min · _) hfill

/-- RPOP takes the same bytes from both rings, and the rest is the same (R191). -/
theorem ringAlike_popped (h : ringAlike s { s with ring := r }) : ringAlike s.popped { s with ring := r }.popped := by
  have hcount := popCount_with_ring h
  obtain ⟨-, hfill, hq, hrd, hrd', hle⟩ := h
  replace hfill : r.rfill = s.ring.rfill := hfill
  replace hq : ringBytes r.rb s.params.ringCap r.rrd r.rfill = ringQ s := hq
  obtain ⟨hout, hrest⟩ := ringBytes_split (popCount_le s) (hfill ▸ hq)
  refine ⟨?_, ?_, ?_, Nat.mod_lt _ (by omega), Nat.mod_lt _ (Nat.zero_lt_of_lt hrd'), ?_⟩
  · simp [State.popped, hcount, hout]
  · simp [hcount, hfill]
  · simpa [ringQ_popped, hcount, hfill] using hrest
  · exact (Nat.sub_le _ _).trans hle

/-- RPUSH appends the same chunk to both contents (R170). -/
theorem ringAlike_pushed (hs : Memory.sorted s.ring.rb) (hr : Memory.sorted r.rb)
    (h : ringAlike s { s with ring := r }) {c : List Byte} (hroom : s.ring.rfill + c.length ≤ s.params.ringCap) :
    ringAlike (s.pushed c) ({ s with ring := r }.pushed c) := by
  obtain ⟨-, hfill, hq, hrd, hrd', hle⟩ := h
  replace hfill : r.rfill = s.ring.rfill := hfill
  refine ⟨rfl, by simp [hfill], ?_, hrd, hrd', hroom⟩
  rw [ringQ_pushed hs hroom, ringQ_pushed hr (by simpa [hfill] using hroom), hq]

/-- A session event empties both rings, or leaves both (R173, R175). -/
theorem ringAlike_afterEvent (h : ringAlike s { s with ring := r }) (ev : SessionEvent) :
    ringAlike (s.afterEvent ev) ({ s with ring := r }.afterEvent ev) := by
  cases ev with
  | connected =>
    obtain ⟨-, -, -, hrd, -, -⟩ := h
    exact ⟨rfl, rfl, rfl, Nat.zero_lt_of_lt hrd, Nat.zero_lt_of_lt hrd, Nat.zero_le _⟩
  | disconnected | playing | paused => exact ringAlike_of_ring_kept h rfl rfl

/-- The effects of one operation in two states that differ in the ring alone. -/
theorem effect_ringAlike {i : Instr} {t t' : State} (hi : ∀ ag n, i = .cfgr ag n → n.toNat ≠ 0x14)
    (hs : Memory.sorted s.ring.rb) (hr : Memory.sorted r.rb) (h : ringAlike s { s with ring := r }) (he : effect i s t)
    (he' : effect i { s with ring := r } t') : ringAlike t t' := by
  cases hu : usesRing i with
  | false =>
    rw [effect_unique (effect_with_ring hu r he) he']
    exact ringAlike_of_ring_kept h (effect_keeps he).1 (effect_ring_kept hu he)
  | true =>
    obtain ⟨-, hfill, -, -, -, hle⟩ := id h
    replace hfill : r.rfill = s.ring.rfill := hfill
    cases i with
    | rpop ag wm =>
      have hdone : ∀ w, rpopReady ag wm { s with ring := r } = .next w → t' = w :=
        fun w hw => next_eq_next.1 (hw.symm.trans he')
      rcases rpopReady_eq_next.1 he with ⟨hp, rfl⟩ | ⟨hp, hz, hn⟩ | ⟨hp, hz, rfl⟩
      · obtain rfl := hdone _ (rpopReady_eq_next.2 (Or.inl ⟨hp, rfl⟩))
        exact ringAlike_answered h _ _ _
      · obtain rfl := hdone _ (rpopReady_eq_next.2 (Or.inr (Or.inl ⟨hp, hfill.trans hz, notReady_with_ring r hn⟩)))
        have hk := keeps_notReady (ps := [.waiting]) (by simp) (keeps_refl _ s) hn
        exact ringAlike_of_ring_kept h hk.1 (keeps_part hk .ring (by simp))
      · obtain rfl := hdone _ (rpopReady_eq_next.2 (Or.inr (Or.inr ⟨hp, fun hz' => hz (hfill.symm.trans hz'), rfl⟩)))
        rw [popCount_with_ring h]
        exact ringAlike_answered (ringAlike_popped h) _ _ _
    | rpush ag len payload =>
      rcases he with ⟨hfull, rfl⟩ | ⟨hroom, rfl⟩
      · obtain rfl := effect_unique (i := .rpush ag len payload) (Or.inl ⟨by simpa [hfill] using hfull, rfl⟩) he'
        exact ringAlike_answered h _ _ _
      · obtain rfl := effect_unique (i := .rpush ag len payload) (Or.inr ⟨by simpa [hfill] using hroom, rfl⟩) he'
        have hlen := chunkOf_length_le len payload
        exact ringAlike_answered (ringAlike_pushed hs hr h (by omega)) _ _ _
    | sevt ag ev =>
      cases he
      obtain rfl := he'
      rw [State.afterEvent_play, State.afterEvent_play]
      exact ringAlike_answered (ringAlike_afterEvent h ev) _ _ _
    | cfgr ag n => exact absurd (by simpa [usesRing] using hu) (hi ag n rfl)
    | _ => cases hu

end

/-- Settles O47: the same check fails in both states, or the operation has its effect in both. -/
theorem ringStorageIsInvisible : Obligations.RingStorageIsInvisible := by
  intro i s u s' hi hs hr h he
  obtain ⟨u', hu'⟩ := exec_answers (wellFormed_of_exec he) u
  refine ⟨u', hu', ?_⟩
  obtain ⟨hu, -⟩ := id h
  rw [hu] at h hu'
  have hf := firstFault_with_ring i s u.ring
  rcases exec_decides he with ⟨c, hc, rfl⟩ | ⟨hc, heff⟩
  · rcases exec_decides hu' with ⟨c', hc', rfl⟩ | ⟨hc', -⟩
    · cases (hf.symm.trans hc').symm.trans hc
      exact ringAlike_of_ring_kept h rfl rfl
    · cases (hf.symm.trans hc').symm.trans hc
  · rcases exec_decides hu' with ⟨c', hc', rfl⟩ | ⟨-, heff'⟩
    · cases (hf.symm.trans hc').symm.trans hc
    · exact effect_ringAlike hi hs hr h heff heff'

end Sys2Proof.Proofs
end

section
/-! SUPPORT. The pool (spec/10_state.md R22 to R26): the invariant as one equation, and the moves that keep it (R131). -/

namespace Sys2Proof.Proofs

open Sys2Proof.Machine Sys2Proof.Safety Sys2Proof.Laws

/-- The pool invariant as one equation: a token of the pool stands once where OWN says, and nothing else stands anywhere. -/
theorem poolOk_iff {s : State} :
    PoolOk s ↔ ∀ t o, placeCount s.pool t o = if t.toNat < s.params.depth ∧ ownerOf s.pool t = o then 1 else 0 := by
  have hmem : ∀ o : Owner, o ∈ [Owner.free, .cap, .busy, .mix] := by intro o; cases o <;> decide
  constructor
  · rintro ⟨hin, hout⟩ t o
    by_cases ht : t.toNat < s.params.depth
    · simpa [ht] using hin t ht o (hmem o)
    · simpa [ht] using hout t (Nat.not_lt.1 ht) o (hmem o)
  · intro h
    exact ⟨fun t ht o _ => by simp [h, ht], fun t ht o _ => by simp [h, Nat.not_lt.2 ht]⟩

/-- A token that stands somewhere is of the pool, and stands there once and nowhere else. -/
theorem placeCount_of_place {s : State} (h : PoolOk s) {k : Token} {o : Owner} (hk : placeCount s.pool k o ≠ 0) :
    k.toNat < s.params.depth ∧ ∀ o', placeCount s.pool k o' = if o = o' then 1 else 0 := by
  rw [poolOk_iff] at h
  obtain ⟨hlt, rfl⟩ : k.toNat < s.params.depth ∧ ownerOf s.pool k = o := by
    by_contra hno
    exact hk (by rw [h, if_neg hno])
  exact ⟨hlt, fun o' => by simp [h, hlt]⟩

theorem placeCount_of_chold {s : State} (h : PoolOk s) {k : Token} (hk : s.pool.chold = some k) :
    k.toNat < s.params.depth ∧ ∀ o', placeCount s.pool k o' = if Owner.cap = o' then 1 else 0 :=
  placeCount_of_place h (by simp [placeCount, hk])

theorem placeCount_of_mhold {s : State} (h : PoolOk s) {k : Token} (hk : s.pool.mhold = some k) :
    k.toNat < s.params.depth ∧ ∀ o', placeCount s.pool k o' = if Owner.mix = o' then 1 else 0 :=
  placeCount_of_place h (by simp [placeCount, hk])

theorem placeCount_of_busyq {s : State} (h : PoolOk s) {k : Token} (hk : k ∈ s.pool.busyq) :
    k.toNat < s.params.depth ∧ ∀ o', placeCount s.pool k o' = if Owner.busy = o' then 1 else 0 :=
  placeCount_of_place h (by simpa [placeCount, List.count_eq_zero] using hk)

theorem placeCount_of_freeq {s : State} (h : PoolOk s) {k : Token} (hk : k ∈ s.pool.freeq) :
    k.toNat < s.params.depth ∧ ∀ o', placeCount s.pool k o' = if Owner.free = o' then 1 else 0 :=
  placeCount_of_place h (by simpa [placeCount, List.count_eq_zero] using hk)

/-- Agent C's frame is neither agent M's nor published. -/
theorem chold_ne {s : State} (h : PoolOk s) {k j : Token} (hk : s.pool.chold = some k)
    (hj : s.pool.mhold = some j ∨ j ∈ s.pool.busyq) : j ≠ k := by
  rintro rfl
  have hc := (placeCount_of_chold h hk).2
  rcases hj with hj | hj
  · have := (placeCount_of_mhold h hj).2 .cap
    simp [hc] at this
  · have := (placeCount_of_busyq h hj).2 .cap
    simp [hc] at this

/-- One token moved to another place, in the queues and holds and in OWN. -/
theorem poolOk_of_move {s : State} {pl : Pool} {k : Token} {o : Owner} (h : PoolOk s) (hk : k.toNat < s.params.depth)
    (hs : Memory.sorted s.pool.own) (hown : pl.own = putOwner s.pool.own k o)
    (hsame : placeCount pl k = fun o' => if o = o' then 1 else 0)
    (hother : ∀ u ≠ k, placeCount pl u = placeCount s.pool u) : PoolOk { s with pool := pl } := by
  rw [poolOk_iff] at h ⊢
  intro u o'
  have hu : ownerOf pl u = if u = k then o else ownerOf s.pool u := by
    rw [ownerOf, hown, read_putOwner hs, ownerOf]
  change placeCount pl u o' = if u.toNat < s.params.depth ∧ ownerOf pl u = o' then 1 else 0
  by_cases huk : u = k
  · subst huk
    simp [hu, hsame, hk]
  · rw [hother u huk, h, hu, if_neg huk]

/-- A token that no queue and no hold tells apart stands in the same places. -/
theorem placeCount_congr {pl pl' : Pool} {u : Token} (hf : pl'.freeq.count u = pl.freeq.count u)
    (hc : pl'.chold = some u ↔ pl.chold = some u) (hb : pl'.busyq.count u = pl.busyq.count u)
    (hm : pl'.mhold = some u ↔ pl.mhold = some u) : placeCount pl' u = placeCount pl u := by
  funext o
  cases o with
  | free => exact hf
  | cap => simp [placeCount, hc]
  | busy => exact hb
  | mix => simp [placeCount, hm]

/-- ACQF keeps the pool invariant (R121). -/
theorem poolOk_acquire {s : State} (h : PoolOk s) (hs : Memory.sorted s.pool.own) {k : Token} {q : List Token}
    (hq : s.pool.freeq = k :: q) (hc : s.pool.chold = none) : PoolOk { s with pool := s.pool.acquire k q } := by
  obtain ⟨hk, hplace⟩ := placeCount_of_freeq h (k := k) (by simp [hq])
  refine poolOk_of_move h hk hs rfl (funext fun o' => ?_) fun u hu => ?_
  · have := hplace o'
    cases o' <;> simp_all [placeCount]
  · apply placeCount_congr <;> simp [hq, hc, Ne.symm hu]

/-- PUBB keeps it (R122). -/
theorem poolOk_publish {s : State} (h : PoolOk s) (hs : Memory.sorted s.pool.own) {k : Token}
    (hc : s.pool.chold = some k) : PoolOk { s with pool := s.pool.publish k } := by
  obtain ⟨hk, hplace⟩ := placeCount_of_chold h hc
  refine poolOk_of_move h hk hs rfl (funext fun o' => ?_) fun u hu => ?_
  · have := hplace o'
    cases o' <;> simp_all [placeCount]
  · apply placeCount_congr <;> simp [hc, Ne.symm hu]

/-- TAKB keeps it (R123). -/
theorem poolOk_take {s : State} (h : PoolOk s) (hs : Memory.sorted s.pool.own) {k : Token} {q : List Token}
    (hq : s.pool.busyq = k :: q) (hm : s.pool.mhold = none) : PoolOk { s with pool := s.pool.take k q } := by
  obtain ⟨hk, hplace⟩ := placeCount_of_busyq h (k := k) (by simp [hq])
  refine poolOk_of_move h hk hs rfl (funext fun o' => ?_) fun u hu => ?_
  · have := hplace o'
    cases o' <;> simp_all [placeCount]
  · apply placeCount_congr <;> simp [hq, hm, Ne.symm hu]

/-- RELF keeps it (R124). -/
theorem poolOk_release {s : State} (h : PoolOk s) (hs : Memory.sorted s.pool.own) {ag : Agent} {k : Token}
    (hk : s.pool.heldBy ag = some k) : PoolOk { s with pool := s.pool.release ag k } := by
  cases ag with
  | C =>
    have hc : s.pool.chold = some k := hk
    obtain ⟨hlt, hplace⟩ := placeCount_of_chold h hc
    refine poolOk_of_move h hlt hs rfl (funext fun o' => ?_) fun u hu => ?_
    · have := hplace o'
      cases o' <;> simp_all [placeCount]
    · apply placeCount_congr <;> simp [hc, Ne.symm hu]
  | M =>
    have hm : s.pool.mhold = some k := hk
    obtain ⟨hlt, hplace⟩ := placeCount_of_mhold h hm
    refine poolOk_of_move h hlt hs rfl (funext fun o' => ?_) fun u hu => ?_
    · have := hplace o'
      cases o' <;> simp_all [placeCount]
    · apply placeCount_congr <;> simp [hm, Ne.symm hu]
  | H | R | S => cases hk

theorem count_tokensBelow {n : Nat} (hn : n ≤ 16) (t : Token) :
    (tokensBelow n).count t = if t.toNat < n then 1 else 0 := by
  induction n with
  | zero => simp [tokensBelow]
  | succ n ih =>
    have hstep : tokensBelow (n + 1) = tokensBelow n ++ [BitVec.ofNat 4 n] := by simp [tokensBelow, List.range_succ]
    have heq : BitVec.ofNat 4 n = t ↔ n = t.toNat := by
      constructor
      · rintro rfl; simp; omega
      · rintro rfl; simp
    rw [hstep, List.count_append, ih (by omega), List.count_singleton]
    by_cases ht : n = t.toNat
    · simp [heq.2 ht, ← ht]
    · simp [mt heq.1 ht]
      grind

/-- The pool after reset or START (R50, R254). -/
theorem poolOk_seeded {s : State} (hn : s.params.depth ≤ 16) : PoolOk { s with pool := Pool.seeded s.params.depth } := by
  rw [poolOk_iff]
  intro t o
  change placeCount _ t o = if t.toNat < s.params.depth ∧ Owner.free = o then 1 else 0
  cases o with
  | free => exact (count_tokensBelow hn t).trans (by simp)
  | cap | busy | mix => simp [placeCount, Pool.seeded]

end Sys2Proof.Proofs
end

section
/-! SUPPORT. The storage spaces (spec/20_memory.md R60): the canonical form within bounds, kept by every write, and what a
write leaves of a frame. -/

namespace Sys2Proof.Proofs

open Sys2Proof.Machine Sys2Proof.Safety Sys2Proof.Laws

/-- A space in canonical form, every entry of which is allowed. -/
def Within {α : Type} (P : Nat × α → Prop) (m : Memory α) : Prop := Memory.sorted m ∧ ∀ c ∈ m, P c

theorem within_nil {α : Type} (P : Nat × α → Prop) : Within P [] := ⟨List.Pairwise.nil, by simp⟩

theorem within_put {α : Type} {P : Nat × α → Prop} {m : Memory α} (h : Within P m) {a : Nat} {o : Option α}
    (ho : ∀ v, o = some v → P (a, v)) : Within P (Memory.put m a o) := by
  obtain ⟨hs, hall⟩ := h
  refine ⟨Memory.sorted_put hs a o, fun c hc => ?_⟩
  rcases Memory.mem_put hc with hm | ⟨rfl, hv⟩
  · exact hall c hm
  · exact ho c.2 hv

theorem within_putAll {α : Type} {P : Nat × α → Prop} {m : Memory α} (h : Within P m) {a : Nat} {os : List (Option α)}
    (ho : ∀ j < os.length, ∀ v, some v ∈ os → P (a + j, v)) : Within P (Memory.putAll m a os) := by
  obtain ⟨hs, hall⟩ := h
  refine ⟨Memory.sorted_putAll hs a os, fun c hc => ?_⟩
  rcases Memory.mem_putAll hc with hm | ⟨hle, hlt, hv⟩
  · exact hall c hm
  · obtain ⟨j, hj⟩ := Nat.exists_eq_add_of_le hle
    have := ho j (by omega) c.2 hv
    rwa [← hj] at this

/-- What may stand in frame memory (R21), the ownership map (R22), the ring (R27) and the Output Frame (R28). -/
def slotEntryOk (p : Params) (c : Nat × Slot) : Prop := c.1 < p.depth * p.frameLen ∧ c.2.toNat < 2 ^ slotBits p.slotW
def ownEntryOk (p : Params) (c : Nat × Owner) : Prop := c.1 < p.depth ∧ c.2 ≠ .free
def ringEntryOk (p : Params) (c : Nat × Byte) : Prop := c.1 < p.ringCap
def pairEntryOk (p : Params) (c : Nat × Pair) : Prop := c.1 < p.frameLen ∧ c.2 ≠ ⟨0, 0⟩

/-- The canonical form of a state's memories, space by space. -/
theorem memory_wf_iff {s : State} :
    Memory.wf s ↔ Within (slotEntryOk s.params) s.fm ∧ Within (ownEntryOk s.params) s.pool.own ∧
      Within (ringEntryOk s.params) s.ring.rb ∧ Within (pairEntryOk s.params) s.out := by
  constructor
  · rintro ⟨hfm, hfm', hown, hown', hrb, hrb', hout, hout'⟩
    exact ⟨⟨hfm, hfm'⟩, ⟨hown, hown'⟩, ⟨hrb, hrb'⟩, ⟨hout, hout'⟩⟩
  · rintro ⟨⟨hfm, hfm'⟩, ⟨hown, hown'⟩, ⟨hrb, hrb'⟩, ⟨hout, hout'⟩⟩
    exact ⟨hfm, hfm', hown, hown', hrb, hrb', hout, hout'⟩

/-! ### Frame memory -/

/-- A slot of a frame lies in frame memory. -/
theorem slotAddr_lt {s : State} {k : Token} {j : Nat} (hk : k.toNat < s.params.depth) (hj : j < s.params.frameLen) :
    slotAddr s k j < s.params.depth * s.params.frameLen := by
  have : (k.toNat + 1) * s.params.frameLen ≤ s.params.depth * s.params.frameLen := Nat.mul_le_mul_right _ hk
  rw [Nat.succ_mul] at this
  simp only [slotAddr]
  omega

/-- Frames do not overlap. -/
theorem slotAddr_outside {s : State} {k k' : Token} (hne : k ≠ k') {j : Nat} (hj : j < s.params.frameLen) :
    slotAddr s k j < slotAddr s k' 0 ∨ slotAddr s k' 0 + s.params.frameLen ≤ slotAddr s k j := by
  simp only [slotAddr]
  rcases Nat.lt_or_gt_of_ne fun h => hne (BitVec.eq_of_toNat_eq h) with h | h
  · have : (k.toNat + 1) * s.params.frameLen ≤ k'.toNat * s.params.frameLen := Nat.mul_le_mul_right _ h
    rw [Nat.succ_mul] at this
    omega
  · have : (k'.toNat + 1) * s.params.frameLen ≤ k.toNat * s.params.frameLen := Nat.mul_le_mul_right _ h
    rw [Nat.succ_mul] at this
    omega

theorem toNat_slotOfWord_lt (sw : SlotWidth) (w : Word) : (slotOfWord sw w).toNat < 2 ^ slotBits sw := by
  cases sw <;> simp [slotOfWord, slotBits] <;> omega

theorem within_withSlot {s : State} (h : Within (slotEntryOk s.params) s.fm) {k : Token} {j : Nat} {v : Slot}
    (hk : k.toNat < s.params.depth) (hj : j < s.params.frameLen) (hv : v.toNat < 2 ^ slotBits s.params.slotW) :
    Within (slotEntryOk s.params) (s.withSlot k j v).fm :=
  within_put h fun w hw => by
    cases hw
    exact ⟨slotAddr_lt hk hj, hv⟩

theorem within_withFrame {s : State} (h : Within (slotEntryOk s.params) s.fm) {k : Token} {d : List (Option Slot)}
    (hk : k.toNat < s.params.depth) (hd : d.length = s.params.frameLen)
    (hv : ∀ v, some v ∈ d → v.toNat < 2 ^ slotBits s.params.slotW) :
    Within (slotEntryOk s.params) (s.withFrame k d).fm :=
  within_putAll h fun j hj v hm => ⟨slotAddr_lt (j := j) hk (hd ▸ hj), hv v hm⟩

theorem drawnFrame_length (p : Params) (d : List Slot) : (drawnFrame p d).length = p.frameLen := by simp [drawnFrame]

theorem toNat_lt_of_mem_drawnFrame {p : Params} {d : List Slot} {v : Slot} (h : some v ∈ drawnFrame p d) :
    v.toNat < 2 ^ slotBits p.slotW := by
  obtain ⟨j, -, hj⟩ := List.mem_map.1 h
  cases hj
  exact toNat_slotOfWord_lt _ _

/-- A frame is defined exactly when each of its slots is (R21). -/
theorem frameDefined_iff {s : State} {k : Token} :
    frameDefined s k ↔ ∀ j < s.params.frameLen, (Memory.read s.fm (slotAddr s k j)).isSome = true := by
  simp [frameDefined, frameSlots, Memory.readAll_isSome, slotAddr]

/-- A frame that is drawn from the source is defined (R150). -/
theorem frameDefined_withFrame {s : State} (hs : Memory.sorted s.fm) (k : Token) (d : List Slot) :
    frameDefined (s.withFrame k (drawnFrame s.params d)) k := by
  refine frameDefined_iff.2 fun j hj => ?_
  have hin : slotAddr s k 0 ≤ slotAddr s k j ∧ slotAddr s k j < slotAddr s k 0 + s.params.frameLen := by
    simp only [slotAddr, State.withFrame_params] at hj ⊢
    omega
  change (Memory.read (s.withFrame k (drawnFrame s.params d)).fm (slotAddr s k j)).isSome = true
  rw [State.withFrame_fm, Memory.read_putAll hs, drawnFrame_length, if_pos hin]
  have hj' : slotAddr s k j - slotAddr s k 0 = j := by simp [slotAddr]
  have hlt : j < s.params.frameLen := hj
  simp [hj', drawnFrame, hlt]

/-- A write of one frame leaves every other frame defined. -/
theorem frameDefined_withFrame_other {s : State} {k k' : Token} {d : List (Option Slot)} (hne : k ≠ k')
    (hd : d.length = s.params.frameLen) (h : frameDefined s k) : frameDefined (s.withFrame k' d) k := by
  rw [frameDefined_iff] at h ⊢
  intro j hj
  change (Memory.read (s.withFrame k' d).fm (slotAddr s k j)).isSome = true
  rw [State.withFrame_fm, read_putAll_outside _ _ _ (by rw [hd]; exact slotAddr_outside hne hj)]
  exact h j hj

/-- A write of one slot leaves every frame defined. -/
theorem frameDefined_withSlot {s : State} (hs : Memory.sorted s.fm) {k k' : Token} {j : Nat} {v : Slot}
    (h : frameDefined s k) : frameDefined (s.withSlot k' j v) k := by
  rw [frameDefined_iff] at h ⊢
  intro i hi
  change (Memory.read (s.withSlot k' j v).fm (slotAddr s k i)).isSome = true
  rw [State.withSlot_fm, Memory.read_put hs]
  split
  · rfl
  · exact h i hi

/-! ### The ownership map and the Output Frame -/

theorem within_putOwner {p : Params} {own : Memory Owner} (h : Within (ownEntryOk p) own) {k : Token}
    (hk : k.toNat < p.depth) (o : Owner) : Within (ownEntryOk p) (putOwner own k o) :=
  within_put h fun v hv => by
    split at hv
    · cases hv
    · next ho =>
      cases hv
      exact ⟨hk, ho⟩

theorem within_putPair {p : Params} {out : Memory Pair} (h : Within (pairEntryOk p) out) {j : Nat}
    (hj : j < p.frameLen) (x : Pair) : Within (pairEntryOk p) (putPair out j x) :=
  within_put h fun v hv => by
    split at hv
    · cases hv
    · next hx =>
      cases hv
      exact ⟨hj, hx⟩

theorem within_putPairs {p : Params} (xs : List Pair) : ∀ {out : Memory Pair} {j : Nat}, Within (pairEntryOk p) out →
    j + xs.length ≤ p.frameLen → Within (pairEntryOk p) (putPairs out j xs) := by
  induction xs with
  | nil => exact fun h _ => h
  | cons x xs ih =>
    intro out j h hj
    rw [List.length_cons] at hj
    exact ih (within_putPair h (by omega) x) (by omega)

theorem within_mixSlots {p : Params} {c : Cfg} (xs : List Slot) : ∀ {out : Memory Pair} {f : Filter} {j : Nat},
    Within (pairEntryOk p) out → j + xs.length ≤ p.frameLen → Within (pairEntryOk p) (mixSlots c out f j xs).1 := by
  induction xs with
  | nil => exact fun h _ => h
  | cons x xs ih =>
    intro out f j h hj
    rw [List.length_cons] at hj
    exact ih (within_putPair h (by omega) _) (by omega)

/-- Four bytes make a pair (R63). -/
theorem pairsOfBytes_length : ∀ bs : List Byte, 4 * (pairsOfBytes bs).length ≤ bs.length
  | _ :: _ :: _ :: _ :: bs => by
    have := pairsOfBytes_length bs
    simp only [pairsOfBytes, List.length_cons]
    omega
  | [] | [_] | [_, _] | [_, _, _] => by simp [pairsOfBytes]

/-! ### The ring -/

theorem within_ringStore {p : Params} (hcap : 0 < p.ringCap) (bs : List Byte) : ∀ {rb : Memory Byte} {pos : Nat},
    Within (ringEntryOk p) rb → Within (ringEntryOk p) (ringStore rb p.ringCap pos bs) := by
  induction bs with
  | nil => exact fun h => h
  | cons b bs ih => exact fun h => ih (within_put h fun v _ => Nat.mod_lt _ hcap)

theorem chunkOf_length {len : BitVec 16} {payload : List Word} (h : payload.length = payloadWords len) :
    (chunkOf len payload).length = len.toNat := by
  have hbytes : (payload.flatMap wordBytes).length = 4 * payload.length := by
    simp [List.length_flatMap, wordBytes, Nat.mul_comm]
  rw [chunkOf, List.length_take, hbytes, h, payloadWords]
  omega

/-- RPOP keeps the ring's indices and its written window (R191). -/
theorem ringOk_popped {s : State} (h : RingOk s) : RingOk s.popped := by
  obtain ⟨hrd, hle, hmod, hwin⟩ := h
  have hcount : popCount s ≤ s.ring.rfill := popCount_le s
  have hfour : popCount s % 4 = 0 := by
    simp only [popCount, outputFrameBytes]
    omega
  refine ⟨Nat.mod_lt _ (Nat.zero_lt_of_lt hrd), (Nat.sub_le _ _).trans hle, ?_, fun j hj => ?_⟩
  · simp only [State.popped_ring]
    omega
  · simp only [State.popped_ring] at hj
    have := hwin (popCount s + j) (by omega)
    simpa [Nat.mod_add_mod, Nat.add_assoc] using this

/-- RPUSH of whole pairs that fit keeps them (R170). -/
theorem ringOk_pushed {s : State} (hs : Memory.sorted s.ring.rb) (h : RingOk s) {c : List Byte} (hfour : c.length % 4 = 0)
    (hroom : s.ring.rfill + c.length ≤ s.params.ringCap) : RingOk (s.pushed c) := by
  obtain ⟨hrd, hle, hmod, hwin⟩ := h
  refine ⟨hrd, hroom, ?_, fun j hj => ?_⟩
  · simp only [State.pushed_ring]
    omega
  · simp only [State.pushed_ring, State.pushed_params] at hj ⊢
    by_cases hold : j < s.ring.rfill
    · rw [read_ringStore_other _ _ _ _ _ fun i hi => mod_ne_of_lt (by omega) (by omega)]
      exact hwin j hold
    · obtain ⟨i, rfl⟩ := Nat.exists_eq_add_of_le (Nat.not_lt.1 hold)
      rw [← Nat.add_assoc, read_ringStore hs _ _ _ (by omega) _ (by omega), List.getElem?_eq_getElem (by omega)]
      rfl

end Sys2Proof.Proofs
end

section
/-! SUPPORT. The part of the invariant that does not speak of the sequencers' steps: what each named update of the state
keeps of it, and that every command keeps it. -/

namespace Sys2Proof.Proofs

open Sys2Proof.Machine Sys2Proof.Safety Sys2Proof.Laws

/-- Parameters, memories, pool, ring, configuration and outstanding operations, in whatever phase. -/
structure PartsOk (s : State) : Prop where
  params : s.params.legal
  fm : Within (slotEntryOk s.params) s.fm
  own : Within (ownEntryOk s.params) s.pool.own
  rb : Within (ringEntryOk s.params) s.ring.rb
  out : Within (pairEntryOk s.params) s.out
  pool : PoolOk s
  ring : RingOk s
  cfg : CfgOk s
  waitC : waitingOkC s
  waitM : waitingOkM s

/-! ### What each update keeps -/

/-- The parts are parameters, memories, pool, ring, configuration and outstanding operations. -/
theorem PartsOk.of_agree {s t : State} (h : PartsOk s) (hparams : t.params = s.params) (hfm : t.fm = s.fm)
    (hpool : t.pool = s.pool) (hring : t.ring = s.ring) (hout : t.out = s.out) (hcfg : t.cfg = s.cfg)
    (hwait : t.waiting = s.waiting) : PartsOk t := by
  cases s
  cases t
  cases hparams
  cases hfm
  cases hpool
  cases hring
  cases hout
  cases hcfg
  cases hwait
  exact ⟨h.params, h.fm, h.own, h.rb, h.out, h.pool, h.ring, h.cfg, h.waitC, h.waitM⟩

section
variable {s : State}

theorem PartsOk.answered (h : PartsOk s) (ag : Agent) (st : Status) (v : Word) : PartsOk (s.answered ag st v) :=
  h.of_agree rfl rfl rfl rfl rfl rfl rfl

theorem PartsOk.faulted (h : PartsOk s) (ag : Agent) (c : Cause) : PartsOk (s.faulted ag c) :=
  h.of_agree rfl rfl rfl rfl rfl rfl rfl

theorem PartsOk.withFm (h : PartsOk s) {m : Memory Slot} (hm : Within (slotEntryOk s.params) m) :
    PartsOk { s with fm := m } :=
  ⟨h.params, hm, h.own, h.rb, h.out, h.pool, h.ring, h.cfg, h.waitC, h.waitM⟩

theorem PartsOk.withOut (h : PartsOk s) {m : Memory Pair} (hm : Within (pairEntryOk s.params) m) :
    PartsOk { s with out := m } :=
  ⟨h.params, h.fm, h.own, h.rb, hm, h.pool, h.ring, h.cfg, h.waitC, h.waitM⟩

theorem PartsOk.withRing (h : PartsOk s) {r : Ring} (hr : Within (ringEntryOk s.params) r.rb)
    (hok : RingOk { s with ring := r }) : PartsOk { s with ring := r } :=
  ⟨h.params, h.fm, h.own, hr, h.out, h.pool, hok, h.cfg, h.waitC, h.waitM⟩

theorem PartsOk.withCfg (h : PartsOk s) {c : Cfg} (hc : CfgOk { s with cfg := c }) : PartsOk { s with cfg := c } :=
  ⟨h.params, h.fm, h.own, h.rb, h.out, h.pool, h.ring, hc, h.waitC, h.waitM⟩

theorem PartsOk.withPool (h : PartsOk s) {pl : Pool} (hown : Within (ownEntryOk s.params) pl.own)
    (hpool : PoolOk { s with pool := pl }) (hC : waitingOkC { s with pool := pl })
    (hM : waitingOkM { s with pool := pl }) : PartsOk { s with pool := pl } :=
  ⟨h.params, h.fm, hown, h.rb, h.out, hpool, h.ring, h.cfg, hC, hM⟩

theorem waitingOkC_of_none (h : s.waiting.opC = none) : waitingOkC s := by simp [waitingOkC, h]

theorem waitingOkM_of_none (h : s.waiting.opM = none) : waitingOkM s := by simp [waitingOkM, h]

/-- An outstanding operation that is looked at again is dropped first. -/
theorem PartsOk.dropped (h : PartsOk s) (ag : Agent) : PartsOk (s.withWaiting ag none) := by
  cases ag with
  | C =>
    exact ⟨h.params, h.fm, h.own, h.rb, h.out, h.pool, h.ring, h.cfg, waitingOkC_of_none rfl, h.waitM⟩
  | M =>
    exact ⟨h.params, h.fm, h.own, h.rb, h.out, h.pool, h.ring, h.cfg, h.waitC, waitingOkM_of_none rfl⟩
  | H | R | S => exact h

end

/-! ### Checks that passed -/

/-- With no failing check, none of steps 5 to 7 of R284 fails. -/
theorem late_checks_of_passed {i : Instr} {s : State} (hf : firstFault i s = none) :
    rangeFault i s = none ∧ ownFault i s = none ∧ contentFault i s = none := by
  obtain ⟨hc, hi, hp⟩ := mayIssue_of_firstFault hf
  simpa [firstFault, hc, hi, hp] using hf

/-- With no failing check the token of an operation is of the pool, and the agent holds it. -/
theorem token_of_passed {i : Instr} {s : State} {k : Token} (hf : firstFault i s = none) (hk : tokenOf i = some k) :
    k.toNat < s.params.depth ∧ s.pool.heldBy i.agent = some k := by
  obtain ⟨hr, ho, -⟩ := late_checks_of_passed hf
  cases i <;> simp_all [rangeFault, ownFault, tokenOf, indexOf]

/-- With no failing check ACQF finds no frame with agent C, and TAKB none with agent M. -/
theorem chold_of_acqf_passed {ag : Agent} {wm : WaitMode} {s : State} (hf : firstFault (.acqf ag wm) s = none) :
    s.pool.chold = none := by
  obtain ⟨-, ho, -⟩ := late_checks_of_passed hf
  simpa [ownFault] using ho

theorem mhold_of_takb_passed {ag : Agent} {wm : WaitMode} {s : State} (hf : firstFault (.takb ag wm) s = none) :
    s.pool.mhold = none := by
  obtain ⟨-, ho, -⟩ := late_checks_of_passed hf
  simpa [ownFault] using ho

/-- With no failing check the index of FST is one of the frame's. -/
theorem index_of_fst_passed {ag : Agent} {k : Token} {j : BitVec 12} {v : Word} {s : State}
    (hf : firstFault (.fst ag k j v) s = none) : j.toNat < s.params.frameLen := by
  obtain ⟨hr, -⟩ := late_checks_of_passed hf
  by_contra hj
  simp [rangeFault, tokenOf, indexOf, hj] at hr

/-- With no failing check the value of CFGW is in the table of R252. -/
theorem legalWrite_of_cfgw_passed {ag : Agent} {r : BitVec 8} {v : Word} {s : State}
    (hf : firstFault (.cfgw ag r v) s = none) : legalWrite s.params.slotW r.toNat v.toNat := by
  obtain ⟨hr, -⟩ := late_checks_of_passed hf
  by_contra hno
  rw [rangeFault, if_neg hno] at hr
  cases hr

/-- With no failing check START finds nothing outstanding, and the unsigned path calibrated or to be calibrated
(R255). -/
theorem startable_of_start_passed {ag : Agent} {s : State} (hf : firstFault (.start ag) s = none) :
    s.waiting.opC = none ∧ s.waiting.opM = none ∧
      (s.cfg.convcfg.sgn = false → s.cfg.pathcfg.calEn = false →
        s.caldone = true ∧ s.cfg.idle.toNat ≤ maxCode s.cfg.convcfg) := by
  obtain ⟨-, -, hc⟩ := late_checks_of_passed hf
  have hs : ¬ notStartable s := fun hs => by
    rw [contentFault, if_pos hs] at hc
    cases hc
  simp only [notStartable, not_or, not_not, not_and, Nat.not_lt, Bool.not_eq_false] at hs
  obtain ⟨hC, hM, hdone, hidle⟩ := hs
  exact ⟨hC, hM, fun h1 h2 => ⟨hdone h1 h2, hidle h1 h2⟩⟩

/-- An operation that becomes outstanding is one that waits, of its agent, and passed its checks (R14, R284). -/
theorem PartsOk.waits {s : State} (h : PartsOk s) {i : Instr} (hf : firstFault i s = none)
    (hw : (waitModeOf i).isSome = true) : PartsOk (s.withWaiting i.agent (some i)) := by
  obtain ⟨-, hi, -⟩ := mayIssue_of_firstFault hf
  have hC : i.agent = .C → waitingOkC { s with waiting := { s.waiting with opC := some i } } →
      PartsOk (s.withWaiting i.agent (some i)) := fun ha hC => by
    rw [ha]
    exact ⟨h.params, h.fm, h.own, h.rb, h.out, h.pool, h.ring, h.cfg, hC, h.waitM⟩
  have hM : i.agent = .M → waitingOkM { s with waiting := { s.waiting with opM := some i } } →
      PartsOk (s.withWaiting i.agent (some i)) := fun ha hM => by
    rw [ha]
    exact ⟨h.params, h.fm, h.own, h.rb, h.out, h.pool, h.ring, h.cfg, h.waitC, hM⟩
  cases i with
  | acqf ag wm =>
    obtain rfl : ag = .C := List.mem_singleton.1 hi
    exact hC rfl (chold_of_acqf_passed hf)
  | pubb ag wm k | caprd ag wm k =>
    obtain rfl : ag = .C := List.mem_singleton.1 hi
    exact hC rfl (token_of_passed hf rfl).2
  | takb ag wm =>
    obtain rfl : ag = .M := List.mem_singleton.1 hi
    exact hM rfl (mhold_of_takb_passed hf)
  | rpop ag wm | sinkw ag wm =>
    obtain rfl : ag = .M := List.mem_singleton.1 hi
    exact hM rfl trivial
  | _ => cases hw

theorem PartsOk.notReady {s late t : State} (h : PartsOk s) (hl : PartsOk late) {i : Instr} {wm : WaitMode}
    (hf : firstFault i s = none) (hw : (waitModeOf i).isSome = true) (he : notReady s late i wm = .next t) :
    PartsOk t := by
  rcases notReady_eq_next.1 he with ⟨-, rfl⟩ | ⟨-, -, rfl⟩ | ⟨-, rfl⟩
  · exact h.answered _ _ _
  · exact hl.answered _ _ _
  · exact h.waits hf hw

/-! ### The operations -/

section
variable {s : State}

theorem PartsOk.withFrame (h : PartsOk s) {k : Token} {d : List (Option Slot)} (hk : k.toNat < s.params.depth)
    (hd : d.length = s.params.frameLen) (hv : ∀ v, some v ∈ d → v.toNat < 2 ^ slotBits s.params.slotW) :
    PartsOk (s.withFrame k d) :=
  h.withFm (within_withFrame h.fm hk hd hv)

theorem PartsOk.withUndefFrame (h : PartsOk s) {k : Token} (hk : k.toNat < s.params.depth) :
    PartsOk (s.withUndefFrame k) :=
  h.withFrame hk (by simp) fun v hv => by simp [List.mem_replicate] at hv

theorem PartsOk.acquire (h : PartsOk s) {k : Token} {q : List Token} (hq : s.pool.freeq = k :: q)
    (hc : s.pool.chold = none) (hw : s.waiting.opC = none) : PartsOk { s with pool := s.pool.acquire k q } :=
  h.withPool (within_putOwner h.own (placeCount_of_freeq h.pool (by simp [hq])).1 _)
    (poolOk_acquire h.pool h.own.1 hq hc) (waitingOkC_of_none hw) h.waitM

theorem PartsOk.publish (h : PartsOk s) {k : Token} (hc : s.pool.chold = some k) (hw : s.waiting.opC = none) :
    PartsOk { s with pool := s.pool.publish k } :=
  h.withPool (within_putOwner h.own (placeCount_of_chold h.pool hc).1 _) (poolOk_publish h.pool h.own.1 hc)
    (waitingOkC_of_none hw) h.waitM

theorem PartsOk.take (h : PartsOk s) {k : Token} {q : List Token} (hq : s.pool.busyq = k :: q)
    (hm : s.pool.mhold = none) (hw : s.waiting.opM = none) : PartsOk { s with pool := s.pool.take k q } :=
  h.withPool (within_putOwner h.own (placeCount_of_busyq h.pool (by simp [hq])).1 _) (poolOk_take h.pool h.own.1 hq hm)
    h.waitC (waitingOkM_of_none hw)

theorem PartsOk.release (h : PartsOk s) {ag : Agent} {k : Token} (hk : s.pool.heldBy ag = some k)
    (hw : s.waiting.of ag = none) : PartsOk { s with pool := s.pool.release ag k } := by
  have hpool := poolOk_release h.pool h.own.1 hk
  cases ag with
  | C =>
    exact h.withPool (within_putOwner h.own (placeCount_of_chold h.pool hk).1 _) hpool (waitingOkC_of_none hw) h.waitM
  | M =>
    exact h.withPool (within_putOwner h.own (placeCount_of_mhold h.pool hk).1 _) hpool h.waitC (waitingOkM_of_none hw)
  | H | R | S => cases hk

theorem PartsOk.popped (h : PartsOk s) : PartsOk s.popped := by
  have hlen := pairsOfBytes_length (ringBytes s.ring.rb s.params.ringCap s.ring.rrd (popCount s))
  have hcount : popCount s ≤ 4 * s.params.frameLen := Nat.min_le_right _ _
  rw [ringBytes_length] at hlen
  exact (h.withOut (within_putPairs _ h.out (by omega))).withRing h.rb (ringOk_popped h.ring)

theorem PartsOk.pushed (h : PartsOk s) {c : List Byte} (hfour : c.length % 4 = 0)
    (hroom : s.ring.rfill + c.length ≤ s.params.ringCap) : PartsOk (s.pushed c) := by
  obtain ⟨hrd, -⟩ := h.ring
  exact h.withRing (within_ringStore (by omega) c h.rb) (ringOk_pushed h.rb.1 h.ring hfour hroom)

theorem PartsOk.afterEvent (h : PartsOk s) (ev : SessionEvent) : PartsOk (s.afterEvent ev) := by
  cases ev with
  | connected =>
    obtain ⟨hrd, -⟩ := h.ring
    have hempty : PartsOk { s with ring := { s.ring with rrd := 0, rfill := 0 } } :=
      h.withRing h.rb ⟨Nat.zero_lt_of_lt hrd, Nat.zero_le _, rfl, fun j hj => absurd hj (Nat.not_lt_zero j)⟩
    exact hempty.of_agree rfl rfl rfl rfl rfl rfl rfl
  | disconnected | playing | paused => exact h.of_agree rfl rfl rfl rfl rfl rfl rfl

theorem PartsOk.mixed (h : PartsOk s) {xs : List Slot} (hxs : xs.length = s.params.frameLen) : PartsOk (s.mixed xs) :=
  (h.withOut (m := (s.mixed xs).out) (within_mixSlots xs h.out (by omega))).of_agree rfl rfl rfl rfl rfl rfl rfl

/-- A legal write leaves legal values in CONVCFG and CALMAX (R31, R36, R252). -/
theorem cfgOk_csrWrite {c : Csr} {v : Word} (h : CfgOk s) (hv : csrLegal s.params.slotW c v = true) :
    CfgOk (csrWrite s c v) := by
  cases c with
  | convcfg =>
    simp only [csrLegal, Bool.and_eq_true, decide_eq_true_eq] at hv
    exact ⟨hv.2, h.2⟩
  | calmax =>
    simp only [csrLegal, decide_eq_true_eq] at hv
    refine ⟨h.1, ?_⟩
    simp only [csrWrite, BitVec.toNat_setWidth]
    omega
  | _ => exact h

theorem PartsOk.csrWrite (h : PartsOk s) {c : Csr} {v : Word} (hv : csrLegal s.params.slotW c v = true) :
    PartsOk (csrWrite s c v) := by
  have hc : PartsOk { s with cfg := (Machine.csrWrite s c v).cfg } := h.withCfg (by
    have := cfgOk_csrWrite h.cfg hv
    simpa only [CfgOk, csrWrite_params] using this)
  exact hc.of_agree (by simp) (by simp) (by simp) (by simp) (by simp) rfl (by simp)

theorem PartsOk.withIdle (h : PartsOk s) (v : BitVec 16) : PartsOk (s.withIdle v) :=
  (h.withCfg (c := { s.cfg with idle := v }) h.cfg).of_agree rfl rfl rfl rfl rfl rfl rfl

theorem PartsOk.started (h : PartsOk s) (hC : s.waiting.opC = none) (hM : s.waiting.opM = none) : PartsOk s.started := by
  obtain ⟨-, -, -, hdepth, -⟩ := h.params
  have hpool : PartsOk { s with pool := Pool.seeded s.params.depth } :=
    h.withPool (within_nil _) (poolOk_seeded hdepth) (waitingOkC_of_none hC) (waitingOkM_of_none hM)
  have hboth : PartsOk { s with pool := Pool.seeded s.params.depth, out := [] } := hpool.withOut (within_nil _)
  exact hboth.of_agree (by simp) (by simp) (by simp) (by simp) (by simp) (by simp) (by simp)

/-- A waiting operation from its ready condition on keeps the parts. -/
theorem PartsOk.completeOp {t : State} (h : PartsOk s) {i : Instr} (hf : firstFault i s = none)
    (hw : (waitModeOf i).isSome = true) (hfree : s.waiting.of i.agent = none) (he : completeOp i s = .next t) :
    PartsOk t := by
  obtain ⟨-, hi, -⟩ := mayIssue_of_firstFault hf
  cases i with
  | acqf ag wm =>
    obtain rfl : ag = .C := List.mem_singleton.1 hi
    rcases acqfReady_eq_next.1 he with ⟨-, hn⟩ | ⟨k, q, hq, rfl⟩
    · exact h.notReady h hf hw hn
    · exact (h.acquire hq (chold_of_acqf_passed hf) hfree).answered _ _ _
  | pubb ag wm k =>
    obtain rfl : ag = .C := List.mem_singleton.1 hi
    rcases pubbReady_eq_next.1 he with ⟨-, hn⟩ | ⟨-, rfl⟩
    · exact h.notReady h hf hw hn
    · exact (h.publish (token_of_passed hf rfl).2 hfree).answered _ _ _
  | takb ag wm =>
    obtain rfl : ag = .M := List.mem_singleton.1 hi
    rcases takbReady_eq_next.1 he with ⟨-, hn⟩ | ⟨k, q, hq, rfl⟩
    · exact h.notReady h hf hw hn
    · exact (h.take hq (mhold_of_takb_passed hf) hfree).answered _ _ _
  | caprd ag wm k =>
    have hk := (token_of_passed hf rfl).1
    rcases caprdReady_eq_next.1 he with ⟨-, hn⟩ | ⟨-, rfl⟩ | ⟨d, -, rfl⟩
    · exact h.notReady (h.withUndefFrame hk) hf hw hn
    · exact (h.withUndefFrame hk).of_agree rfl rfl rfl rfl rfl rfl rfl
    · have hframe := h.withFrame hk (drawnFrame_length s.params d) fun v hv => toNat_lt_of_mem_drawnFrame hv
      exact hframe.of_agree rfl rfl rfl rfl rfl rfl rfl
  | rpop ag wm =>
    rcases rpopReady_eq_next.1 he with ⟨-, rfl⟩ | ⟨-, -, hn⟩ | ⟨-, -, rfl⟩
    · exact h.answered _ _ _
    · exact h.notReady h hf hw hn
    · exact h.popped.answered _ _ _
  | sinkw ag wm =>
    rcases sinkwReady_eq_next.1 he with ⟨-, hn⟩ | ⟨-, rfl⟩ | ⟨-, rfl⟩
    · exact h.notReady h hf hw hn
    · exact h.answered _ _ _
    · exact h.of_agree rfl rfl rfl rfl rfl rfl rfl
  | _ => cases hw

/-- Every command keeps the parts, if its agent has nothing outstanding when it takes effect (R13). -/
theorem PartsOk.exec {t : State} (h : PartsOk s) {i : Instr}
    (hfree : firstFault i s = none → s.waiting.of i.agent = none) (he : exec i s = .next t) : PartsOk t := by
  rcases exec_decides he with ⟨c, -, rfl⟩ | ⟨hf, heff⟩
  · exact h.faulted _ _
  · obtain ⟨hrange, -⟩ := late_checks_of_passed hf
    cases i with
    | acqf | pubb | takb | caprd | rpop | sinkw => exact h.completeOp hf rfl (hfree hf) heff
    | cfgr | fld =>
      obtain ⟨x, -, rfl⟩ := heff
      exact h.answered _ _ _
    | cfgw ag r v =>
      obtain ⟨c, hc, rfl⟩ := heff
      exact (h.csrWrite ((csrLegal_iff hc).1 (legalWrite_of_cfgw_passed hf)).2).answered _ _ _
    | start ag =>
      cases heff
      obtain ⟨hC, hM, -⟩ := startable_of_start_passed hf
      exact (h.started hC hM).answered _ _ _
    | relf ag k =>
      cases heff
      exact (h.release (token_of_passed hf rfl).2 (hfree hf)).answered _ _ _
    | fst ag k j v =>
      cases heff
      have hk := (token_of_passed hf rfl).1
      exact (h.withFm (within_withSlot h.fm hk (index_of_fst_passed hf) (toNat_slotOfWord_lt _ v))).of_agree rfl rfl rfl rfl rfl rfl rfl
    | fidle ag k =>
      obtain ⟨xs, -, rfl⟩ := heff
      exact (h.withIdle _).answered _ _ _
    | mixf ag k =>
      obtain ⟨xs, hxs, rfl⟩ := heff
      exact (h.mixed (Memory.readAll_eq_some.1 hxs).1).answered _ _ _
    | oclr ag =>
      cases heff
      exact (h.withOut (within_nil _)).answered _ _ _
    | rpush ag len payload =>
      rcases heff with ⟨-, rfl⟩ | ⟨hroom, rfl⟩
      · exact h.answered _ _ _
      · have hlen : payload.length = payloadWords len := by simpa [Instr.wellFormed] using wellFormed_of_exec he
        have hfour : ¬ (len.toNat = 0 ∨ len.toNat % 4 ≠ 0) := by
          simpa only [rangeFault, ite_eq_right_iff, reduceCtorEq, imp_false] using hrange
        obtain ⟨-, hle, -⟩ := h.ring
        have hchunk := chunkOf_length hlen
        exact (h.pushed (by omega) (by omega)).answered _ _ _
    | sevt ag ev =>
      cases heff
      exact (h.afterEvent ev).answered _ _ _
    | nop | conv | scale | lpf | gate | old =>
      cases heff
      exact h.of_agree rfl rfl rfl rfl rfl rfl rfl

end

end Sys2Proof.Proofs
end

section
/-! SUPPORT. The part of the invariant that speaks of phases and steps (spec/41_capture.md R157, spec/43_mixer.md R208,
spec/45_host.md R256, R257): phase by phase, and what leaves it alone. -/

namespace Sys2Proof.Proofs

open Sys2Proof.Machine Sys2Proof.Safety Sys2Proof.Laws

/-- Phase, steps, stops and calibration. -/
structure ControlOk (s : State) : Prop where
  waitSeq : waitingOkSeq s
  steps : StepsOk s
  running : RunningOk s
  calibrated : CalibratedOk s
  boot : BootOk s

theorem inv_iff {s : State} : Inv s ↔ PartsOk s ∧ ControlOk s := by
  constructor
  · intro h
    obtain ⟨hfm, hown, hrb, hout⟩ := memory_wf_iff.1 h.memory
    exact ⟨⟨h.params, hfm, hown, hrb, hout, h.pool, h.ring, h.cfg, h.waitC, h.waitM⟩,
      ⟨h.waitSeq, h.steps, h.running, h.calibrated, h.boot⟩⟩
  · rintro ⟨hp, hc⟩
    exact ⟨hp.params, memory_wf_iff.2 ⟨hp.fm, hp.own, hp.rb, hp.out⟩, hp.pool, hp.ring, hp.cfg, hp.waitC, hp.waitM,
      hc.waitSeq, hc.steps, hc.running, hc.calibrated, hc.boot⟩

/-- What the control part reads of a state. -/
theorem ControlOk.of_agree {s t : State} (h : ControlOk s) (hparams : t.params = s.params) (hfm : t.fm = s.fm)
    (hpool : t.pool = s.pool) (hcfg : t.cfg = s.cfg) (hdone : t.caldone = s.caldone) (hphase : t.phase = s.phase)
    (hseq : t.seq = s.seq) (hwait : t.waiting = s.waiting) : ControlOk t := by
  cases s
  cases t
  cases hparams
  cases hfm
  cases hpool
  cases hcfg
  cases hdone
  cases hphase
  cases hseq
  cases hwait
  exact ⟨h.waitSeq, h.steps, h.running, h.calibrated, h.boot⟩

/-- In SETUP the sequencers stand at their first steps. -/
theorem controlOk_setup_iff {s : State} (hp : s.phase = .setup) :
    ControlOk s ↔ (s.seq.bstep = .off ∧ s.seq.cstep = .acq ∧ s.seq.mstep = .clr) ∧ RunningOk s := by
  constructor
  · intro h
    have := h.steps
    simp only [StepsOk, hp] at this
    exact ⟨this, h.running⟩
  · rintro ⟨hs, hr⟩
    exact ⟨by simp [waitingOkSeq, hp], by simpa [StepsOk, hp] using hs, hr, by simp [CalibratedOk, hp],
      by simp [BootOk, hp]⟩

/-- The unsigned path is calibrated (R255, R323). -/
def IdleOk (s : State) : Prop :=
  s.cfg.convcfg.sgn = false → s.caldone = true ∧ s.cfg.idle.toNat ≤ maxCode s.cfg.convcfg

/-- The capture sequencer's step against agent C's hold and outstanding operation (R156, R157). -/
structure CaptureOk (s : State) : Prop where
  hold : s.pool.chold = none ↔ s.seq.cstep = .acq
  pub : s.seq.cstep = .pub → ∃ t, s.pool.chold = some t ∧ frameDefined s t
  wait : s.waiting.opC = none ∨ s.waiting.opC = captureCommand s
  going : s.seq.cstopped = false

/-- The mixer sequencer's step against agent M's hold and outstanding operation (R207, R208). -/
structure MixerOk (s : State) : Prop where
  hold : s.pool.mhold ≠ none ↔ s.seq.mstep = .mix ∨ s.seq.mstep = .rel
  mix : s.seq.mstep = .mix → ∃ t, s.pool.mhold = some t ∧ frameDefined s t
  wait : s.waiting.opM = none ∨ s.waiting.opM = mixerCommand s
  going : s.seq.mstopped = false

/-- Every published frame is defined (R157). -/
def BusyOk (s : State) : Prop := ∀ t ∈ s.pool.busyq, frameDefined s t

/-- In RUN: each of the two sequencers, the published frames, calibration, and the boot sequencer off. -/
theorem controlOk_run_iff {s : State} (hp : s.phase = .run) :
    ControlOk s ↔ CaptureOk s ∧ MixerOk s ∧ BusyOk s ∧ IdleOk s ∧ s.seq.bstep = .off ∧ s.seq.bstopped = false := by
  constructor
  · intro h
    have hw := h.waitSeq
    have hs := h.steps
    simp only [waitingOkSeq, StepsOk, hp] at hw hs
    obtain ⟨hwc, hwm⟩ := hw
    obtain ⟨hoff, hc, hm, hbusy, hpub, hmix⟩ := hs
    obtain ⟨hb, hcs, hms⟩ := h.running
    exact ⟨⟨hc, hpub, hwc, hcs⟩, ⟨hm, hmix, hwm, hms⟩, hbusy, h.calibrated hp, hoff, hb⟩
  · rintro ⟨⟨hc, hpub, hwc, hcs⟩, ⟨hm, hmix, hwm, hms⟩, hbusy, hidle, hoff, hb⟩
    exact ⟨by simpa only [waitingOkSeq, hp] using ⟨hwc, hwm⟩,
      by simpa only [StepsOk, hp] using ⟨hoff, hc, hm, hbusy, hpub, hmix⟩, ⟨hb, hcs, hms⟩, fun _ => hidle,
      by simp [BootOk, hp]⟩

/-- In BOOT: nothing but agent C's frame is out of the free queue, and agent M stands still. -/
structure BootQuiet (s : State) : Prop where
  opM : s.waiting.opM = none
  cstep : s.seq.cstep = .acq
  mstep : s.seq.mstep = .clr
  mhold : s.pool.mhold = none
  busyq : s.pool.busyq = []
  cgoing : s.seq.cstopped = false
  mgoing : s.seq.mstopped = false

/-- The boot sequencer's step against agent C's hold, CALCNT, calibration and the outstanding operation (R256, R257). -/
structure BootStepOk (s : State) : Prop where
  on : s.seq.bstep ≠ .off
  hold : s.pool.chold = none ↔ s.seq.bstep = .acq
  avg : s.seq.bstep = .avg → ∃ t, s.pool.chold = some t ∧ frameDefined s t
  failed : s.seq.bstep = .failrel → s.seq.calcnt.toNat = s.cfg.calmax.toNat
  tried : s.seq.bstep ≠ .failrel → s.seq.calcnt.toNat < s.cfg.calmax.toNat
  rel : s.seq.bstep = .rel → s.caldone = true ∧ (s.cfg.convcfg.sgn = false → s.cfg.idle.toNat ≤ maxCode s.cfg.convcfg)
  wait : s.waiting.opC = none ∨ s.waiting.opC = bootCommand s
  going : s.seq.bstopped = false

theorem controlOk_boot_iff {s : State} (hp : s.phase = .boot) : ControlOk s ↔ BootQuiet s ∧ BootStepOk s := by
  constructor
  · intro h
    have hw := h.waitSeq
    have hs := h.steps
    simp only [waitingOkSeq, StepsOk, hp] at hw hs
    obtain ⟨hwm, hwc⟩ := hw
    obtain ⟨hon, hc, hm, hmh, hbusy, hold, havg, hfail, htry⟩ := hs
    obtain ⟨hb, hcs, hms⟩ := h.running
    exact ⟨⟨hwm, hc, hm, hmh, hbusy, hcs, hms⟩, ⟨hon, hold, havg, hfail, htry, h.boot hp, hwc, hb⟩⟩
  · rintro ⟨⟨hwm, hc, hm, hmh, hbusy, hcs, hms⟩, ⟨hon, hold, havg, hfail, htry, hrel, hwc, hb⟩⟩
    exact ⟨by simpa only [waitingOkSeq, hp] using ⟨hwm, hwc⟩,
      by simpa only [StepsOk, hp] using ⟨hon, hc, hm, hmh, hbusy, hold, havg, hfail, htry⟩, ⟨hb, hcs, hms⟩,
      by simp [CalibratedOk, hp], fun _ => hrel⟩

/-- In FATAL the boot sequencer is off and no frame is out of the free queue. -/
theorem controlOk_fatal {s : State} (hp : s.phase = .fatal) (hq : BootQuiet s) (hC : s.waiting.opC = none)
    (hoff : s.seq.bstep = .off) (hc : s.pool.chold = none) (hb : s.seq.bstopped = false) : ControlOk s :=
  ⟨by simpa only [waitingOkSeq, hp] using ⟨hC, hq.opM⟩,
    by simpa only [StepsOk, hp] using ⟨hoff, hc, hq.mhold, hq.busyq⟩, ⟨hb, hq.cgoing, hq.mgoing⟩,
    by simp [CalibratedOk, hp], by simp [BootOk, hp]⟩

/-! ### What leaves the two sequencers' parts alone -/

theorem frameDefined_congr {s t : State} (hp : t.params = s.params) (hfm : t.fm = s.fm) (k : Token) :
    frameDefined t k ↔ frameDefined s k := by
  simp only [frameDefined, frameSlots, slotAddr, hp, hfm]

theorem CaptureOk.of_agree {s t : State} (h : CaptureOk s) (hc : t.pool.chold = s.pool.chold)
    (hstep : t.seq.cstep = s.seq.cstep) (hstop : t.seq.cstopped = s.seq.cstopped) (hw : t.waiting.opC = s.waiting.opC)
    (hf : ∀ k, s.pool.chold = some k → frameDefined s k → frameDefined t k) : CaptureOk t := by
  refine ⟨by rw [hc, hstep]; exact h.hold, fun hp => ?_, ?_, hstop.trans h.going⟩
  · obtain ⟨k, hk, hd⟩ := h.pub (hstep ▸ hp)
    exact ⟨k, hc.trans hk, hf k hk hd⟩
  · have hcmd : captureCommand t = captureCommand s := by simp only [captureCommand, hc, hstep]
    rw [hw, hcmd]
    exact h.wait

theorem MixerOk.of_agree {s t : State} (h : MixerOk s) (hm : t.pool.mhold = s.pool.mhold)
    (hstep : t.seq.mstep = s.seq.mstep) (hstop : t.seq.mstopped = s.seq.mstopped) (hw : t.waiting.opM = s.waiting.opM)
    (hf : ∀ k, s.pool.mhold = some k → frameDefined s k → frameDefined t k) : MixerOk t := by
  refine ⟨by rw [hm, hstep]; exact h.hold, fun hp => ?_, ?_, hstop.trans h.going⟩
  · obtain ⟨k, hk, hd⟩ := h.mix (hstep ▸ hp)
    exact ⟨k, hm.trans hk, hf k hk hd⟩
  · have hcmd : mixerCommand t = mixerCommand s := by simp only [mixerCommand, hm, hstep]
    rw [hw, hcmd]
    exact h.wait

/-! ### What a command of one agent leaves of the other's -/

theorem heldBy_of_mhold {pl pl' : Pool} {ag : Agent} (h : pl'.mhold = pl.mhold) (ha : ag ≠ .C) :
    pl'.heldBy ag = pl.heldBy ag := by
  cases ag with
  | C => exact absurd rfl ha
  | M => exact h
  | H | R | S => rfl

theorem heldBy_of_chold {pl pl' : Pool} {ag : Agent} (h : pl'.chold = pl.chold) (ha : ag ≠ .M) :
    pl'.heldBy ag = pl.heldBy ag := by
  cases ag with
  | M => exact absurd rfl ha
  | C => exact h
  | H | R | S => rfl

/-- The frame and the outstanding operation of an agent are as before. -/
def agentKept (ag : Agent) (s t : State) : Prop :=
  t.pool.heldBy ag = s.pool.heldBy ag ∧ t.waiting.of ag = s.waiting.of ag

/-- An operation that is not ready leaves every other agent's. -/
theorem agentKept_of_notReady {s late t : State} {i : Instr} {wm : WaitMode} {ag : Agent} (ha : ag ≠ i.agent)
    (hn : notReady s late i wm = .next t) (hl : agentKept ag s late) : agentKept ag s t := by
  rcases notReady_eq_next.1 hn with ⟨-, rfl⟩ | ⟨-, -, rfl⟩ | ⟨-, rfl⟩
  · exact ⟨rfl, rfl⟩
  · exact hl
  · refine ⟨by simp, ?_⟩
    cases hi : i.agent with
    | C =>
      cases ag with
      | C => exact absurd hi.symm ha
      | M | H | R | S => rfl
    | M =>
      cases ag with
      | M => exact absurd hi.symm ha
      | C | H | R | S => rfl
    | H | R | S => rfl

/-- A command but START leaves every other agent's frame and outstanding operation (R13, R131). -/
theorem agentKept_of_exec {i : Instr} {s t : State} {ag : Agent} (ha : ag ≠ i.agent) (hstart : ∀ a, i ≠ .start a)
    (hf : firstFault i s = none) (he : exec i s = .next t) : agentKept ag s t := by
  have heff := effect_of_passed hf he
  have hkeep := exec_keeps he
  obtain ⟨-, hi, -⟩ := mayIssue_of_firstFault hf
  cases i with
  | start a => exact absurd rfl (hstart a)
  | acqf a wm =>
    obtain rfl : a = .C := List.mem_singleton.1 hi
    rcases acqfReady_eq_next.1 heff with ⟨-, hn⟩ | ⟨k, q, -, rfl⟩
    · exact agentKept_of_notReady ha hn ⟨rfl, rfl⟩
    · exact ⟨heldBy_of_mhold rfl ha, rfl⟩
  | pubb a wm k =>
    obtain rfl : a = .C := List.mem_singleton.1 hi
    rcases pubbReady_eq_next.1 heff with ⟨-, hn⟩ | ⟨-, rfl⟩
    · exact agentKept_of_notReady ha hn ⟨rfl, rfl⟩
    · exact ⟨heldBy_of_mhold rfl ha, rfl⟩
  | takb a wm =>
    obtain rfl : a = .M := List.mem_singleton.1 hi
    rcases takbReady_eq_next.1 heff with ⟨-, hn⟩ | ⟨k, q, -, rfl⟩
    · exact agentKept_of_notReady ha hn ⟨rfl, rfl⟩
    · exact ⟨heldBy_of_chold rfl ha, rfl⟩
  | caprd a wm k =>
    rcases caprdReady_eq_next.1 heff with ⟨-, hn⟩ | ⟨-, rfl⟩ | ⟨d, -, rfl⟩
    · exact agentKept_of_notReady ha hn ⟨rfl, rfl⟩
    · exact ⟨rfl, rfl⟩
    · exact ⟨rfl, rfl⟩
  | rpop a wm =>
    rcases rpopReady_eq_next.1 heff with ⟨-, rfl⟩ | ⟨-, -, hn⟩ | ⟨-, -, rfl⟩
    · exact ⟨rfl, rfl⟩
    · exact agentKept_of_notReady ha hn ⟨rfl, rfl⟩
    · exact ⟨rfl, rfl⟩
  | sinkw a wm =>
    rcases sinkwReady_eq_next.1 heff with ⟨-, hn⟩ | ⟨-, rfl⟩ | ⟨-, rfl⟩
    · exact agentKept_of_notReady ha hn ⟨rfl, rfl⟩
    · exact ⟨rfl, rfl⟩
    · exact ⟨rfl, rfl⟩
  | relf a k =>
    cases heff
    have ha : ag ≠ a := ha
    rcases (by simpa [issuers, Instr.agent] using hi : a = .C ∨ a = .M) with rfl | rfl
    · exact ⟨heldBy_of_mhold rfl ha, rfl⟩
    · exact ⟨heldBy_of_chold rfl ha, rfl⟩
  | _ =>
    exact ⟨congrArg (·.heldBy ag) (keeps_part hkeep .pool (by simp [mayWrite])),
      congrArg (·.of ag) (keeps_part hkeep .waiting (by simp [mayWrite]))⟩

/-- A command leaves every defined frame defined, but for the frame that a CAPRD names. -/
theorem frameDefined_of_exec {i : Instr} {s t : State} {k : Token} (hs : Memory.sorted s.fm)
    (hf : firstFault i s = none) (he : exec i s = .next t) (hk : ∀ ag wm, i ≠ .caprd ag wm k) (hd : frameDefined s k) :
    frameDefined t k := by
  have hkeep := exec_keeps he
  have heff := effect_of_passed hf he
  cases i with
  | fst ag k' j v =>
    cases heff
    exact (frameDefined_congr (t := (s.withSlot k' j.toNat _).answered _ _ _) rfl rfl k).2 (frameDefined_withSlot hs hd)
  | caprd ag wm k' =>
    have hne : k ≠ k' := fun h => hk ag wm (h ▸ rfl)
    have hundef : frameDefined (s.withUndefFrame k') k := frameDefined_withFrame_other hne (by simp) hd
    rcases caprdReady_eq_next.1 heff with ⟨-, hn⟩ | ⟨-, rfl⟩ | ⟨d, -, rfl⟩
    · rcases notReady_eq_next.1 hn with ⟨-, rfl⟩ | ⟨-, -, rfl⟩ | ⟨-, rfl⟩
      · exact hd
      · exact hundef
      · exact (frameDefined_congr (by simp) (by simp) k).2 hd
    · exact hundef
    · exact frameDefined_withFrame_other hne (drawnFrame_length _ _) hd
  | _ => exact (frameDefined_congr hkeep.1 (keeps_part hkeep .fm (by simp [mayWrite])) k).2 hd

end Sys2Proof.Proofs
end

section
/-! SUPPORT. A sequencer's move from a state that meets the invariant: its command passes its checks, is carried out, and
the table acts once it is answered (spec/41_capture.md R156, spec/43_mixer.md R207, spec/45_host.md R256). -/

namespace Sys2Proof.Proofs

open Sys2Proof.Machine Sys2Proof.Safety Sys2Proof.Laws

/-- The state in which a sequencer's command is carried out: its own origin, and its outstanding operation, if any,
dropped to be looked at again. -/
def issuing (o : Origin) (ag : Agent) (s : State) : State :=
  { s with now := { s.now with origin := o } }.withWaiting ag none

section
variable (o : Origin) (ag : Agent) (s : State)

@[simp] theorem issuing_params : (issuing o ag s).params = s.params := by simp [issuing]
@[simp] theorem issuing_fm : (issuing o ag s).fm = s.fm := by simp [issuing]
@[simp] theorem issuing_pool : (issuing o ag s).pool = s.pool := by simp [issuing]
@[simp] theorem issuing_cfg : (issuing o ag s).cfg = s.cfg := by simp [issuing]
@[simp] theorem issuing_caldone : (issuing o ag s).caldone = s.caldone := by simp [issuing]
@[simp] theorem issuing_phase : (issuing o ag s).phase = s.phase := by simp [issuing]
@[simp] theorem issuing_seq : (issuing o ag s).seq = s.seq := by simp [issuing]
@[simp] theorem issuing_play : (issuing o ag s).play = s.play := by simp [issuing]
@[simp] theorem issuing_evt : (issuing o ag s).evt = s.evt := by simp [issuing]
@[simp] theorem issuing_fault : (issuing o ag s).fault = s.fault := by simp [issuing]
@[simp] theorem issuing_origin : (issuing o ag s).now.origin = o := by simp [issuing]
@[simp] theorem issuing_of_self : (issuing o ag s).waiting.of ag = none := by cases ag <;> rfl
@[simp] theorem issuing_C_opM : (issuing o .C s).waiting.opM = s.waiting.opM := rfl
@[simp] theorem issuing_M_opC : (issuing o .M s).waiting.opC = s.waiting.opC := rfl

end

theorem PartsOk.issuing {s : State} (h : PartsOk s) (o : Origin) (ag : Agent) : PartsOk (issuing o ag s) :=
  (h.of_agree (t := { s with now := { s.now with origin := o } }) rfl rfl rfl rfl rfl rfl rfl).dropped ag

/-- An outstanding operation is one that waits. -/
theorem waits_of_outstanding {s : State} (h : PartsOk s) {ag : Agent} {i : Instr} (hi : s.waiting.of ag = some i) :
    (waitModeOf i).isSome = true := by
  cases ag with
  | C =>
    have hC := h.waitC
    have hi : s.waiting.opC = some i := hi
    rw [waitingOkC, hi] at hC
    split at hC <;> simp_all [waitModeOf]
  | M =>
    have hM := h.waitM
    have hi : s.waiting.opM = some i := hi
    rw [waitingOkM, hi] at hM
    split at hM <;> simp_all [waitModeOf]
  | H | R | S => cases hi

/-- What a sequencer's move leaves of the state in which its command was carried out (R285, log 21). -/
def afterTable (ag : Agent) (table : State → State) (v : State) : State :=
  if (v.waiting.of ag).isSome then v else table v

theorem afterTable_of_none {ag : Agent} {table : State → State} {v : State} (h : v.waiting.of ag = none) :
    afterTable ag table v = table v := by simp [afterTable, h]

theorem lastStatus_answered (s : State) (ag : Agent) (st : Status) (v : Word) :
    lastStatus (s.answered ag st v) = some st := lastStatus_of_responds rfl

/-- A sequencer's move whose command passes its checks: the command is carried out, at once or looked at again. -/
theorem sequencerMove_carries {o : Origin} {ag : Agent} {command : Option Instr} {table stop : State → State}
    {s t : State} {i : Instr} (h : PartsOk s) (hcmd : command = some i) (hag : i.agent = ag) (hwf : i.wellFormed = true)
    (hop : s.waiting.of ag = none ∨ s.waiting.of ag = command) (hf : firstFault i (issuing o ag s) = none)
    (he : sequencerMove o ag command table stop s = .next t) :
    ∃ v, exec i (issuing o ag s) = .next v ∧ PartsOk v ∧ t = afterTable ag table v := by
  obtain ⟨v, hv⟩ := exec_answers hwf (issuing o ag s)
  subst hcmd
  have hcarried : carriedOut (s.waiting.of ag) i (issuing o ag s) :=
    hop.imp_right fun hsome => ⟨hsome, waits_of_outstanding h hsome, hf⟩
  refine ⟨v, hv, (h.issuing o ag).exec (fun _ => hag ▸ issuing_of_self o ag s) hv, ?_⟩
  exact next_eq_next.1 ((sequencerMove_of_carriedOut rfl hcarried hv).symm.trans he)

/-- An operation that is not ready, under a BOUNDED wait, times out or becomes outstanding (R14). -/
theorem notReady_bounded {s late t : State} {i : Instr} (h : notReady s late i .bounded = .next t) :
    t = late.answered i.agent .timeout 0 ∨ t = s.withWaiting i.agent (some i) := by
  rcases notReady_eq_next.1 h with ⟨hm, -⟩ | ⟨-, -, rfl⟩ | ⟨-, rfl⟩
  · cases hm
  · exact Or.inl rfl
  · exact Or.inr rfl

/-! ### Commands that pass their checks -/

theorem firstFault_eq_none {i : Instr} {s : State} (hm : mayIssue i s) (hr : rangeFault i s = none)
    (ho : ownFault i s = none) (hc : contentFault i s = none) : firstFault i s = none := by
  obtain ⟨hcar, hi, hp⟩ := hm
  simp [firstFault, hcar, hi, hp, hr, ho, hc]

/-- ACQF passes when agent C holds no frame. -/
theorem acqf_passes {s : State} {wm : WaitMode} (hm : mayIssue (.acqf .C wm) s) (hc : s.pool.chold = none) :
    firstFault (.acqf .C wm) s = none :=
  firstFault_eq_none hm (by simp [rangeFault, tokenOf, indexOf]) (by simp [ownFault, hc]) rfl

/-- TAKB passes when agent M holds no frame. -/
theorem takb_passes {s : State} {wm : WaitMode} (hm : mayIssue (.takb .M wm) s) (hh : s.pool.mhold = none) :
    firstFault (.takb .M wm) s = none :=
  firstFault_eq_none hm (by simp [rangeFault, tokenOf, indexOf]) (by simp [ownFault, hh]) rfl

theorem heldBy_lt {s : State} (h : PoolOk s) {ag : Agent} {k : Token} (hk : s.pool.heldBy ag = some k) :
    k.toNat < s.params.depth := by
  cases ag with
  | C => exact (placeCount_of_chold h hk).1
  | M => exact (placeCount_of_mhold h hk).1
  | H | R | S => cases hk

/-- PUBB, CAPRD and RELF pass when the agent holds the frame. -/
theorem tokenOp_passes {s : State} (h : PoolOk s) {i : Instr} {k : Token}
    (hi : ∃ ag wm, i = .pubb ag wm k ∨ i = .caprd ag wm k ∨ i = .relf ag k) (hm : mayIssue i s)
    (hk : s.pool.heldBy i.agent = some k) : firstFault i s = none := by
  have hlt := heldBy_lt h hk
  obtain ⟨ag, wm, rfl | rfl | rfl⟩ := hi
  all_goals
    exact firstFault_eq_none hm (by simp [rangeFault, tokenOf, indexOf, hlt])
      (by simpa [ownFault, tokenOf] using hk) rfl

/-- FIDLE and MIXF pass when the agent holds the frame and the frame is defined. -/
theorem frameOp_passes {s : State} (h : PoolOk s) {i : Instr} {k : Token} (hi : ∃ ag, i = .fidle ag k ∨ i = .mixf ag k)
    (hm : mayIssue i s) (hk : s.pool.heldBy i.agent = some k) (hd : frameDefined s k) : firstFault i s = none := by
  have hlt := heldBy_lt h hk
  have hslots : ∀ j < s.params.frameLen, slotAt s k j ≠ none :=
    not_not.1 (frameSlots_eq_none_iff.not.1 (Option.isSome_iff_ne_none.1 hd))
  obtain ⟨ag, rfl | rfl⟩ := hi
  all_goals
    exact firstFault_eq_none hm (by simp [rangeFault, tokenOf, indexOf, hlt])
      (by simpa [ownFault, tokenOf] using hk) (if_pos hslots)

/-- OCLR, RPOP and SINKW have no check of their own. -/
theorem plainOp_passes {s : State} {i : Instr} (hi : ∃ ag wm, i = .oclr ag ∨ i = .rpop ag wm ∨ i = .sinkw ag wm)
    (hm : mayIssue i s) : firstFault i s = none := by
  obtain ⟨ag, wm, rfl | rfl | rfl⟩ := hi
  all_goals
    exact firstFault_eq_none hm (by simp [rangeFault, tokenOf, indexOf]) (by simp [ownFault, tokenOf]) rfl

/-! ### The published frames -/

/-- A published frame was published before, or is published now. -/
theorem mem_busyq_of_exec {i : Instr} {s t : State} {j : Token} (hf : firstFault i s = none) (he : exec i s = .next t)
    (hj : j ∈ t.pool.busyq) : j ∈ s.pool.busyq ∨ ∃ ag wm, i = .pubb ag wm j := by
  have heff := effect_of_passed hf he
  have hkeep := exec_keeps he
  have hwaits : ∀ {k : Instr} {wm : WaitMode}, notReady s s k wm = .next t → t.pool = s.pool := fun hn =>
    keeps_part (keeps_notReady (ps := [.waiting]) (by simp) (keeps_refl _ s) hn) .pool (by simp)
  cases i with
  | acqf ag wm =>
    rcases acqfReady_eq_next.1 heff with ⟨-, hn⟩ | ⟨k, q, -, rfl⟩
    · exact Or.inl (hwaits hn ▸ hj)
    · exact Or.inl hj
  | pubb ag wm k =>
    rcases pubbReady_eq_next.1 heff with ⟨-, hn⟩ | ⟨-, rfl⟩
    · exact Or.inl (hwaits hn ▸ hj)
    · rcases List.mem_append.1 hj with hj | hj
      · exact Or.inl hj
      · exact Or.inr ⟨ag, wm, by rw [List.mem_singleton.1 hj]⟩
  | takb ag wm =>
    rcases takbReady_eq_next.1 heff with ⟨-, hn⟩ | ⟨k, q, hq, rfl⟩
    · exact Or.inl (hwaits hn ▸ hj)
    · exact Or.inl (hq ▸ List.mem_cons_of_mem _ hj)
  | relf ag k =>
    cases heff
    refine Or.inl ?_
    cases ag <;> exact hj
  | start ag =>
    cases heff
    simp [Pool.seeded] at hj
  | _ => exact Or.inl (keeps_part hkeep .pool (by simp [mayWrite]) ▸ hj)

/-- A command leaves the published frames, and agent M's, as defined as they were: it writes no frame but agent C's. -/
theorem frameDefined_of_exec_kept {i : Instr} {s t : State} {j : Token} (h : PartsOk s) (hf : firstFault i s = none)
    (he : exec i s = .next t) (hj : s.pool.mhold = some j ∨ j ∈ s.pool.busyq) (hd : frameDefined s j) :
    frameDefined t j := by
  refine frameDefined_of_exec h.fm.1 hf he (fun ag wm hi => ?_) hd
  subst hi
  obtain ⟨-, hag, -⟩ := mayIssue_of_firstFault hf
  obtain rfl : ag = .C := List.mem_singleton.1 hag
  exact chold_ne h.pool (token_of_passed hf rfl).2 hj rfl

/-- A command that publishes none but a defined frame keeps the published frames defined. -/
theorem busyOk_of_exec {i : Instr} {s t : State} (h : PartsOk s) (hb : BusyOk s)
    (hpub : ∀ ag wm k, i = .pubb ag wm k → frameDefined s k) (hf : firstFault i s = none) (he : exec i s = .next t) :
    BusyOk t := by
  intro j hj
  rcases mem_busyq_of_exec hf he hj with hold | ⟨ag, wm, hi⟩
  · exact frameDefined_of_exec_kept h hf he (Or.inr hold) (hb j hold)
  · refine frameDefined_of_exec h.fm.1 hf he (fun a w hi' => ?_) (hpub ag wm j hi)
    cases hi.symm.trans hi'

end Sys2Proof.Proofs
end

section
/-! SUPPORT. The capture and the mixer sequencer keep the invariant (spec/41_capture.md R156, R157; spec/43_mixer.md R207,
R208): row by row for their own part, and by frames for the rest. -/

namespace Sys2Proof.Proofs

open Sys2Proof.Machine Sys2Proof.Safety Sys2Proof.Laws

theorem MixerOk.issuing {s : State} (h : MixerOk s) : MixerOk (issuing .capture .C s) :=
  h.of_agree rfl rfl rfl rfl fun _ _ hd => hd

theorem CaptureOk.issuing {s : State} (h : CaptureOk s) : CaptureOk (issuing .mixer .M s) :=
  h.of_agree rfl rfl rfl rfl fun _ _ hd => hd

theorem BusyOk.issuing {s : State} (h : BusyOk s) {o : Origin} {ag : Agent} : BusyOk (issuing o ag s) := fun k hk =>
  (frameDefined_congr (by simp) (by simp) k).2 (h k (by simpa using hk))

/-! ### The capture sequencer -/

/-- The table of the capture sequencer writes its step, its stop and EVT. -/
theorem afterTable_capture_eq (v : State) : ∃ c b e,
    afterTable .C captureTable v = { v with seq := { v.seq with cstep := c, cstopped := b }, evt := e } := by
  unfold afterTable captureTable
  split
  · exact ⟨_, _, _, rfl⟩
  · split <;> exact ⟨_, _, _, rfl⟩

/-- A row of R156 applied to a command just answered. -/
theorem captureOk_answered {x : State} {st : Status} {w : Word} {b c : CStep} {miss : Bool} (hx : x.waiting.opC = none)
    (hgo : x.seq.cstopped = false) (hstep : x.seq.cstep = b) (hrow : captureRow b st = some (c, miss))
    (hhold : x.pool.chold = none ↔ c = .acq)
    (hpub : c = .pub → ∃ k, x.pool.chold = some k ∧ frameDefined x k) :
    CaptureOk (afterTable .C captureTable (x.answered .C st w)) := by
  rw [afterTable_of_none (ag := .C) (v := x.answered .C st w) hx,
    captureTable_of_row (v := x.answered .C st w) hstep (lastStatus_answered _ _ _ _) hrow]
  exact ⟨hhold, hpub, Or.inl hx, hgo⟩

/-- The command of the step becomes outstanding. -/
theorem captureOk_waits {s : State} {i : Instr} (h : CaptureOk s) (hi : captureCommand s = some i) :
    CaptureOk (afterTable .C captureTable ((issuing .capture .C s).withWaiting .C (some i))) :=
  ⟨h.hold, h.pub, Or.inr hi.symm, h.going⟩

/-- The command of the capture sequencer's step, which passes its checks in RUN (R157). -/
theorem captureCommand_passes {s : State} (h : PoolOk s) (hc : CaptureOk s) (hrun : s.phase = .run) :
    ∃ i, captureCommand s = some i ∧ firstFault i (issuing .capture .C s) = none ∧
      (i = .acqf .C .bounded ∨
        ∃ k, s.pool.chold = some k ∧ (i = .caprd .C .bounded k ∨ i = .pubb .C .bounded k ∨ i = .relf .C k)) := by
  have hmay : ∀ i : Instr, i.agent = .C → Agent.C ∈ issuers i → Phase.run ∈ legalPhases i →
      mayIssue i (issuing .capture .C s) := fun i ha hi hp => by simp [mayIssue, carries, ha, hi, hp, hrun]
  have hpool : PoolOk (issuing .capture .C s) := h
  have hold : s.seq.cstep ≠ .acq → ∃ k, s.pool.chold = some k := fun hne =>
    Option.ne_none_iff_exists'.1 (mt hc.hold.1 hne)
  cases hstep : s.seq.cstep with
  | acq =>
    refine ⟨.acqf .C .bounded, by simp [captureCommand, hstep], ?_, Or.inl rfl⟩
    exact acqf_passes (hmay _ rfl (by simp [issuers]) (by simp [legalPhases])) (hc.hold.2 hstep)
  | read =>
    obtain ⟨k, hk⟩ := hold (by simp [hstep])
    refine ⟨.caprd .C .bounded k, by simp [captureCommand, hstep, hk], ?_, Or.inr ⟨k, hk, Or.inl rfl⟩⟩
    exact tokenOp_passes hpool ⟨_, _, Or.inr (Or.inl rfl)⟩
      (hmay _ rfl (by simp [issuers]) (by simp [legalPhases])) hk
  | pub =>
    obtain ⟨k, hk⟩ := hold (by simp [hstep])
    refine ⟨.pubb .C .bounded k, by simp [captureCommand, hstep, hk], ?_, Or.inr ⟨k, hk, Or.inr (Or.inl rfl)⟩⟩
    exact tokenOp_passes hpool ⟨_, _, Or.inl rfl⟩ (hmay _ rfl (by simp [issuers]) (by simp [legalPhases])) hk
  | rel =>
    obtain ⟨k, hk⟩ := hold (by simp [hstep])
    refine ⟨.relf .C k, by simp [captureCommand, hstep, hk], ?_, Or.inr ⟨k, hk, Or.inr (Or.inr rfl)⟩⟩
    exact tokenOp_passes hpool ⟨_, .poll, Or.inr (Or.inr rfl)⟩
      (hmay _ rfl (by simp [issuers]) (by simp [legalPhases])) hk

/-- Each row of R156 keeps the capture sequencer's part. -/
theorem captureOk_of_exec {s v : State} {i : Instr} (h : PartsOk s) (hc : CaptureOk s) (hi : captureCommand s = some i)
    (hf : firstFault i (issuing .capture .C s) = none) (he : exec i (issuing .capture .C s) = .next v) :
    CaptureOk (afterTable .C captureTable v) := by
  have heff := effect_of_passed hf he
  have hwait : (issuing .capture .C s).waiting.opC = none := rfl
  have hgo : (issuing .capture .C s).seq.cstopped = false := hc.going
  have hwaits := captureOk_waits hc hi
  cases hstep : s.seq.cstep with
  | acq =>
    obtain rfl : i = .acqf .C .bounded := by simpa [captureCommand, hstep] using hi.symm
    rcases acqfReady_eq_next.1 heff with ⟨-, hn⟩ | ⟨k, q, -, rfl⟩
    · rcases notReady_bounded hn with rfl | rfl
      · exact captureOk_answered hwait hgo hstep rfl (by simpa [hstep] using hc.hold)
          (by simp)
      · exact hwaits
    · exact captureOk_answered hwait hgo hstep rfl (by simp) (by simp)
  | read =>
    obtain ⟨k, hk, rfl⟩ : ∃ k, s.pool.chold = some k ∧ i = .caprd .C .bounded k := by
      simpa [captureCommand, hstep, eq_comm] using hi
    rcases caprdReady_eq_next.1 heff with ⟨-, hn⟩ | ⟨-, rfl⟩ | ⟨d, -, rfl⟩
    · rcases notReady_bounded hn with rfl | rfl
      · exact captureOk_answered hwait hgo hstep rfl (by simp [hk]) (by simp)
      · exact hwaits
    · exact captureOk_answered hwait hgo hstep rfl (by simp [hk]) (by simp)
    · exact captureOk_answered hwait hgo hstep rfl (by simp [hk])
        fun _ => ⟨k, hk, frameDefined_withFrame (h.issuing _ _).fm.1 k d⟩
  | pub =>
    obtain ⟨k, hk, rfl⟩ : ∃ k, s.pool.chold = some k ∧ i = .pubb .C .bounded k := by
      simpa [captureCommand, hstep, eq_comm] using hi
    rcases pubbReady_eq_next.1 heff with ⟨-, hn⟩ | ⟨-, rfl⟩
    · rcases notReady_bounded hn with rfl | rfl
      · exact captureOk_answered hwait hgo hstep rfl (by simp [hk]) (by simp)
      · exact hwaits
    · exact captureOk_answered hwait hgo hstep rfl (by simp) (by simp)
  | rel =>
    obtain ⟨k, hk, rfl⟩ : ∃ k, s.pool.chold = some k ∧ i = .relf .C k := by
      simpa [captureCommand, hstep, eq_comm] using hi
    cases heff
    exact captureOk_answered hwait hgo hstep rfl (by simp) (by simp)

/-- A command of agent C leaves the mixer sequencer's part. -/
theorem mixerOk_of_exec_C {u v : State} {i : Instr} (h : PartsOk u) (hm : MixerOk u) (ha : i.agent = .C)
    (hf : firstFault i u = none) (he : exec i u = .next v) : MixerOk v := by
  have hstart : ∀ a, i ≠ .start a := by
    rintro a rfl
    obtain ⟨-, hi, -⟩ := mayIssue_of_firstFault hf
    simp [ha, issuers] at hi
  obtain ⟨hhold, hwait⟩ := agentKept_of_exec (ag := .M) (by simp [ha]) hstart hf he
  obtain ⟨-, hseq⟩ := phase_seq_of_exec hstart he
  exact hm.of_agree hhold (by rw [hseq]) (by rw [hseq]) hwait
    fun k hk hd => frameDefined_of_exec_kept h hf he (Or.inl hk) hd

/-- The capture sequencer publishes its own defined frame (R157). -/
theorem published_defined {s : State} {i : Instr} (hc : CaptureOk s) (hi : captureCommand s = some i) (ag : Agent)
    (wm : WaitMode) (k : Token) (hpub : i = .pubb ag wm k) : frameDefined (issuing .capture .C s) k := by
  subst hpub
  cases hstep : s.seq.cstep with
  | pub =>
    obtain ⟨j, hj, hd⟩ := hc.pub hstep
    obtain rfl : j = k := by
      simp only [captureCommand, hstep, hj, Option.map_some, Option.some.injEq, Instr.pubb.injEq] at hi
      exact hi.2.2
    exact (frameDefined_congr (by simp) (by simp) _).2 hd
  | acq | read | rel => simp [captureCommand, hstep] at hi

/-- A command that writes no configuration and no steps keeps calibration, the boot sequencer off, and the phase. -/
theorem run_kept_of_exec {s v : State} {i : Instr} {o : Origin} {ag : Agent}
    (hi : Part.cfg ∉ mayWrite i ∧ Part.caldone ∉ mayWrite i ∧ Part.phase ∉ mayWrite i ∧ Part.seq ∉ mayWrite i)
    (hidle : IdleOk s) (hoff : s.seq.bstep = .off) (hb : s.seq.bstopped = false) (hrun : s.phase = .run)
    (he : exec i (issuing o ag s) = .next v) :
    IdleOk v ∧ v.seq.bstep = .off ∧ v.seq.bstopped = false ∧ v.phase = .run := by
  obtain ⟨hcfg, hdone, hphase, hseq⟩ := hi
  have hkeep := exec_keeps he
  have hcfgv : v.cfg = s.cfg := (keeps_part hkeep .cfg hcfg).trans (issuing_cfg _ _ _)
  have hdonev : v.caldone = s.caldone := (keeps_part hkeep .caldone hdone).trans (issuing_caldone _ _ _)
  have hphasev : v.phase = s.phase := (keeps_part hkeep .phase hphase).trans (issuing_phase _ _ _)
  have hseqv : v.seq = s.seq := (keeps_part hkeep .seq hseq).trans (issuing_seq _ _ _)
  exact ⟨by simpa only [IdleOk, hcfgv, hdonev] using hidle, hseqv ▸ hoff, hseqv ▸ hb, hphasev.trans hrun⟩

/-- The capture sequencer keeps the invariant. -/
theorem inv_of_captureMove {s t : State} (h : Inv s) (he : captureMove s = .next t) : Inv t := by
  unfold captureMove at he
  split at he
  · next hrun =>
    obtain ⟨hrun, -⟩ := hrun
    obtain ⟨hp, hctl⟩ := inv_iff.1 h
    obtain ⟨hc, hm, hbusy, hidle, hoff, hb⟩ := (controlOk_run_iff hrun).1 hctl
    obtain ⟨i, hcmd, hf, hshape⟩ := captureCommand_passes hp.pool hc hrun
    obtain ⟨ha, hwf, hkept⟩ : i.agent = .C ∧ i.wellFormed = true ∧ Part.cfg ∉ mayWrite i ∧ Part.caldone ∉ mayWrite i ∧
        Part.phase ∉ mayWrite i ∧ Part.seq ∉ mayWrite i := by
      rcases hshape with rfl | ⟨k, -, rfl | rfl | rfl⟩ <;> simp [Instr.agent, Instr.wellFormed, mayWrite]
    obtain ⟨v, hv, hpv, rfl⟩ := sequencerMove_carries hp hcmd ha hwf hc.wait hf he
    obtain ⟨c, b, e, heq⟩ := afterTable_capture_eq v
    have hcv := captureOk_of_exec hp hc hcmd hf hv
    have hmv := mixerOk_of_exec_C (hp.issuing _ _) hm.issuing ha hf hv
    have hbv := busyOk_of_exec (hp.issuing _ _) hbusy.issuing (published_defined hc hcmd) hf hv
    obtain ⟨hidlev, hoffv, hbv', hphasev⟩ := run_kept_of_exec hkept hidle hoff hb hrun hv
    rw [heq] at hcv ⊢
    refine inv_iff.2 ⟨hpv.of_agree rfl rfl rfl rfl rfl rfl rfl, (controlOk_run_iff (by exact hphasev)).2 ?_⟩
    exact ⟨hcv, hmv.of_agree rfl rfl rfl rfl fun _ _ hd => hd, hbv, hidlev, hoffv, hbv'⟩
  · cases he
    exact h

/-! ### The mixer sequencer -/

/-- The table of the mixer sequencer writes its step, its stop and EVT. -/
theorem afterTable_mixer_eq (v : State) : ∃ m b e,
    afterTable .M mixerTable v = { v with seq := { v.seq with mstep := m, mstopped := b }, evt := e } := by
  unfold afterTable mixerTable
  split
  · exact ⟨_, _, _, rfl⟩
  · split <;> exact ⟨_, _, _, rfl⟩

/-- A row of R207 applied to a command just answered. -/
theorem mixerOk_answered {x : State} {st : Status} {w : Word} {b m : MStep} {miss : Bool} (hx : x.waiting.opM = none)
    (hgo : x.seq.mstopped = false) (hstep : x.seq.mstep = b) (hrow : mixerRow b st = some (m, miss))
    (hhold : x.pool.mhold ≠ none ↔ m = .mix ∨ m = .rel)
    (hmix : m = .mix → ∃ k, x.pool.mhold = some k ∧ frameDefined x k) :
    MixerOk (afterTable .M mixerTable (x.answered .M st w)) := by
  rw [afterTable_of_none (ag := .M) (v := x.answered .M st w) hx,
    mixerTable_of_row (v := x.answered .M st w) hstep (lastStatus_answered _ _ _ _) hrow]
  exact ⟨hhold, hmix, Or.inl hx, hgo⟩

/-- The command of the step becomes outstanding. -/
theorem mixerOk_waits {s : State} {i : Instr} (h : MixerOk s) (hi : mixerCommand s = some i) :
    MixerOk (afterTable .M mixerTable ((issuing .mixer .M s).withWaiting .M (some i))) :=
  ⟨h.hold, h.mix, Or.inr hi.symm, h.going⟩

/-- The command of the mixer sequencer's step, which passes its checks in RUN (R208). -/
theorem mixerCommand_passes {s : State} (h : PoolOk s) (hm : MixerOk s) (hrun : s.phase = .run) :
    ∃ i, mixerCommand s = some i ∧ firstFault i (issuing .mixer .M s) = none ∧
      (i = .oclr .M ∨ i = .rpop .M .bounded ∨ i = .takb .M .bounded ∨ i = .sinkw .M .bounded ∨
        ∃ k, s.pool.mhold = some k ∧ (i = .mixf .M k ∨ i = .relf .M k)) := by
  have hmay : ∀ i : Instr, i.agent = .M → Agent.M ∈ issuers i → Phase.run ∈ legalPhases i →
      mayIssue i (issuing .mixer .M s) := fun i ha hi hp => by simp [mayIssue, carries, ha, hi, hp, hrun]
  have hpool : PoolOk (issuing .mixer .M s) := h
  cases hstep : s.seq.mstep with
  | clr =>
    refine ⟨.oclr .M, by simp [mixerCommand, hstep], ?_, Or.inl rfl⟩
    exact plainOp_passes ⟨_, .poll, Or.inl rfl⟩ (hmay _ rfl (by simp [issuers]) (by simp [legalPhases]))
  | pop =>
    refine ⟨.rpop .M .bounded, by simp [mixerCommand, hstep], ?_, by simp⟩
    exact plainOp_passes ⟨_, _, Or.inr (Or.inl rfl)⟩ (hmay _ rfl (by simp [issuers]) (by simp [legalPhases]))
  | take =>
    refine ⟨.takb .M .bounded, by simp [mixerCommand, hstep], ?_, by simp⟩
    have hnone : s.pool.mhold = none := by simpa [hstep] using hm.hold
    exact takb_passes (hmay _ rfl (by simp [issuers]) (by simp [legalPhases])) hnone
  | mix =>
    obtain ⟨k, hk, hd⟩ := hm.mix hstep
    refine ⟨.mixf .M k, by simp [mixerCommand, hstep, hk], ?_, by simp [hk]⟩
    exact frameOp_passes hpool ⟨_, Or.inr rfl⟩ (hmay _ rfl (by simp [issuers]) (by simp [legalPhases])) hk
      ((frameDefined_congr (by simp) (by simp) k).2 hd)
  | rel =>
    obtain ⟨k, hk⟩ := Option.ne_none_iff_exists'.1 (hm.hold.2 (Or.inr hstep))
    refine ⟨.relf .M k, by simp [mixerCommand, hstep, hk], ?_, by simp [hk]⟩
    exact tokenOp_passes hpool ⟨_, .poll, Or.inr (Or.inr rfl)⟩
      (hmay _ rfl (by simp [issuers]) (by simp [legalPhases])) hk
  | sink =>
    refine ⟨.sinkw .M .bounded, by simp [mixerCommand, hstep], ?_, by simp⟩
    exact plainOp_passes ⟨_, _, Or.inr (Or.inr rfl)⟩ (hmay _ rfl (by simp [issuers]) (by simp [legalPhases]))

/-- Each row of R207 keeps the mixer sequencer's part. -/
theorem mixerOk_of_exec {s v : State} {i : Instr} (hm : MixerOk s) (hbusy : BusyOk s) (hi : mixerCommand s = some i)
    (hf : firstFault i (issuing .mixer .M s) = none) (he : exec i (issuing .mixer .M s) = .next v) :
    MixerOk (afterTable .M mixerTable v) := by
  have heff := effect_of_passed hf he
  have hwait : (issuing .mixer .M s).waiting.opM = none := rfl
  have hgo : (issuing .mixer .M s).seq.mstopped = false := hm.going
  have hwaits := mixerOk_waits hm hi
  have hhold := hm.hold
  cases hstep : s.seq.mstep with
  | clr =>
    obtain rfl : i = .oclr .M := by simpa [mixerCommand, hstep] using hi.symm
    cases heff
    exact mixerOk_answered hwait hgo hstep rfl (by simpa [hstep] using hhold) (by simp)
  | pop =>
    obtain rfl : i = .rpop .M .bounded := by simpa [mixerCommand, hstep] using hi.symm
    rcases rpopReady_eq_next.1 heff with ⟨-, rfl⟩ | ⟨-, -, hn⟩ | ⟨-, -, rfl⟩
    · exact mixerOk_answered hwait hgo hstep rfl (by simpa [hstep] using hhold) (by simp)
    · rcases notReady_bounded hn with rfl | rfl
      · exact mixerOk_answered hwait hgo hstep rfl (by simpa [hstep] using hhold) (by simp)
      · exact hwaits
    · exact mixerOk_answered hwait hgo hstep rfl (by simpa [hstep] using hhold) (by simp)
  | take =>
    obtain rfl : i = .takb .M .bounded := by simpa [mixerCommand, hstep] using hi.symm
    rcases takbReady_eq_next.1 heff with ⟨-, hn⟩ | ⟨k, q, hq, rfl⟩
    · rcases notReady_bounded hn with rfl | rfl
      · exact mixerOk_answered hwait hgo hstep rfl (by simpa [hstep] using hhold) (by simp)
      · exact hwaits
    · have hq : s.pool.busyq = k :: q := hq
      exact mixerOk_answered hwait hgo hstep rfl (by simp) fun _ => ⟨k, rfl, hbusy k (by simp [hq])⟩
  | mix =>
    obtain ⟨k, hk, rfl⟩ : ∃ k, s.pool.mhold = some k ∧ i = .mixf .M k := by
      simpa [mixerCommand, hstep, eq_comm] using hi
    obtain ⟨xs, -, rfl⟩ := heff
    exact mixerOk_answered hwait hgo hstep rfl (by simp [hk]) (by simp)
  | rel =>
    obtain ⟨k, hk, rfl⟩ : ∃ k, s.pool.mhold = some k ∧ i = .relf .M k := by
      simpa [mixerCommand, hstep, eq_comm] using hi
    cases heff
    exact mixerOk_answered hwait hgo hstep rfl (by simp) (by simp)
  | sink =>
    obtain rfl : i = .sinkw .M .bounded := by simpa [mixerCommand, hstep] using hi.symm
    rcases sinkwReady_eq_next.1 heff with ⟨-, hn⟩ | ⟨-, rfl⟩ | ⟨-, rfl⟩
    · rcases notReady_bounded hn with rfl | rfl
      · exact mixerOk_answered hwait hgo hstep rfl (by simpa [hstep] using hhold) (by simp)
      · exact hwaits
    · exact mixerOk_answered hwait hgo hstep rfl (by simpa [hstep] using hhold) (by simp)
    · exact mixerOk_answered hwait hgo hstep rfl (by simpa [hstep] using hhold) (by simp)

/-- A command of agent M leaves the capture sequencer's part. -/
theorem captureOk_of_exec_M {u v : State} {i : Instr} (h : PartsOk u) (hc : CaptureOk u) (ha : i.agent = .M)
    (hf : firstFault i u = none) (he : exec i u = .next v) : CaptureOk v := by
  obtain ⟨-, hi, -⟩ := mayIssue_of_firstFault hf
  have hstart : ∀ a, i ≠ .start a := by
    rintro a rfl
    simp [ha, issuers] at hi
  obtain ⟨hhold, hwait⟩ := agentKept_of_exec (ag := .C) (by simp [ha]) hstart hf he
  obtain ⟨-, hseq⟩ := phase_seq_of_exec hstart he
  refine hc.of_agree hhold (by rw [hseq]) (by rw [hseq]) hwait fun k hk hd => ?_
  refine frameDefined_of_exec h.fm.1 hf he (fun ag wm hcap => ?_) hd
  subst hcap
  simp [ha, issuers] at hi

/-- The mixer sequencer keeps the invariant. -/
theorem inv_of_mixerMove {s t : State} (h : Inv s) (he : mixerMove s = .next t) : Inv t := by
  unfold mixerMove at he
  split at he
  · next hrun =>
    obtain ⟨hrun, -⟩ := hrun
    obtain ⟨hp, hctl⟩ := inv_iff.1 h
    obtain ⟨hc, hm, hbusy, hidle, hoff, hb⟩ := (controlOk_run_iff hrun).1 hctl
    obtain ⟨i, hcmd, hf, hshape⟩ := mixerCommand_passes hp.pool hm hrun
    obtain ⟨ha, hwf, hpub, hkept⟩ : i.agent = .M ∧ i.wellFormed = true ∧ (∀ ag wm k, i ≠ .pubb ag wm k) ∧
        Part.cfg ∉ mayWrite i ∧ Part.caldone ∉ mayWrite i ∧ Part.phase ∉ mayWrite i ∧ Part.seq ∉ mayWrite i := by
      rcases hshape with rfl | rfl | rfl | rfl | ⟨k, -, rfl | rfl⟩ <;> simp [Instr.agent, Instr.wellFormed, mayWrite]
    obtain ⟨v, hv, hpv, rfl⟩ := sequencerMove_carries hp hcmd ha hwf hm.wait hf he
    obtain ⟨m, b, e, heq⟩ := afterTable_mixer_eq v
    have hmv := mixerOk_of_exec hm hbusy hcmd hf hv
    have hcv := captureOk_of_exec_M (hp.issuing _ _) hc.issuing ha hf hv
    have hbv := busyOk_of_exec (hp.issuing _ _) hbusy.issuing (fun ag wm k hi => absurd hi (hpub ag wm k)) hf hv
    obtain ⟨hidlev, hoffv, hbv', hphasev⟩ := run_kept_of_exec hkept hidle hoff hb hrun hv
    rw [heq] at hmv ⊢
    refine inv_iff.2 ⟨hpv.of_agree rfl rfl rfl rfl rfl rfl rfl, (controlOk_run_iff (by exact hphasev)).2 ?_⟩
    exact ⟨hcv.of_agree rfl rfl rfl rfl fun _ _ hd => hd, hmv, hbv, hidlev, hoffv, hbv'⟩
  · cases he
    exact h

end Sys2Proof.Proofs
end

section
/-! SUPPORT. The boot sequencer keeps the invariant (spec/45_host.md R256, R257), its average being a code of the unsigned
path (spec/44_dsp.md R233). -/

namespace Sys2Proof.Proofs

open Sys2Proof.Machine Sys2Proof.Safety Sys2Proof.Laws

/-! ### The average of codes is a code (R233) -/

theorem convSlot_unsigned {c : ConvCfg} (hs : c.sgn = false) (x : Slot) :
    0 ≤ convSlot c x ∧ convSlot c x ≤ maxCode c := by
  have hlt : x.toNat / 2 ^ c.shift.toNat % 2 ^ c.nbits.toNat < 2 ^ c.nbits.toNat := Nat.mod_lt _ (Nat.two_pow_pos _)
  simp only [convSlot, hs, Bool.false_eq_true, if_false, maxCode]
  omega

theorem sum_convSlot_unsigned {c : ConvCfg} (hs : c.sgn = false) (xs : List Slot) :
    0 ≤ (xs.map (convSlot c)).sum ∧ (xs.map (convSlot c)).sum ≤ xs.length * maxCode c := by
  induction xs with
  | nil => simp
  | cons x xs ih =>
    have hx := convSlot_unsigned hs x
    simp only [List.map_cons, List.sum_cons, List.length_cons]
    push_cast
    constructor
    · omega
    · linarith

theorem toNat_idleAvg_le {c : ConvCfg} (hs : c.sgn = false) (hn : c.nbits.toNat ≤ 16) {xs : List Slot}
    (hlen : 1 ≤ xs.length) : (BitVec.ofInt 16 (idleAvg c xs xs.length)).toNat ≤ maxCode c := by
  obtain ⟨hnonneg, hle⟩ := sum_convSlot_unsigned hs xs
  have hmax : maxCode c ≤ 2 ^ 16 - 1 := Nat.sub_le_sub_right (Nat.pow_le_pow_right (by omega) hn) 1
  have havg : 0 ≤ idleAvg c xs xs.length ∧ idleAvg c xs xs.length ≤ maxCode c := by
    rw [idleAvg, tdiv, Int.tdiv_eq_ediv_of_nonneg hnonneg]
    exact ⟨Int.ediv_nonneg hnonneg (by omega), Int.ediv_le_of_le_mul (by omega) (by rwa [mul_comm])⟩
  rw [BitVec.toNat_ofInt]
  omega

/-! ### The rows of R256 -/

/-- The table of the boot sequencer writes its step, CALCNT, its stop, the phase and FAULT. -/
theorem afterTable_boot_eq (v : State) : ∃ b n d p f,
    afterTable .C bootTable v =
      { v with seq := { v.seq with bstep := b, calcnt := n, bstopped := d }, phase := p, fault := f } := by
  unfold afterTable bootTable
  split
  · exact ⟨_, _, _, _, _, rfl⟩
  · split <;> exact ⟨_, _, _, _, _, rfl⟩

/-- Calibration has ended: nothing is outstanding or held, and the sequencer is off. -/
def BootEnded (s : State) : Prop :=
  s.waiting.opC = none ∧ s.pool.chold = none ∧ s.seq.bstep = .off ∧ s.seq.bstopped = false

/-- Where a move of the boot sequencer leads: it stays in BOOT, or ends in RUN, calibrated, or in FATAL. -/
def BootMoved (t : State) : Prop :=
  (t.phase = .boot ∧ BootStepOk t) ∨ (BootEnded t ∧ (t.phase = .run ∧ IdleOk t ∨ t.phase = .fatal))

/-- A row of R256 that goes on to the step `b`, which is not B_FAILREL. -/
theorem bootMoved_of_step {y : State} {b : BStep} (hphase : y.phase = .boot) (hwait : y.waiting.opC = none)
    (hgo : y.seq.bstopped = false) (htry : y.seq.calcnt.toNat < y.cfg.calmax.toNat) (hon : b ≠ .off ∧ b ≠ .failrel)
    (hold : y.pool.chold = none ↔ b = .acq) (havg : b = .avg → ∃ k, y.pool.chold = some k ∧ frameDefined y k)
    (hrel : b = .rel → y.caldone = true ∧ (y.cfg.convcfg.sgn = false → y.cfg.idle.toNat ≤ maxCode y.cfg.convcfg)) :
    BootMoved (y.atBStep b) :=
  Or.inl ⟨hphase, hon.1, hold, havg, fun hb => absurd hb hon.2, fun _ => htry, hrel, Or.inl hwait, hgo⟩

/-- A failed read goes on to another read, or to B_FAILREL once CALMAX attempts are used. -/
theorem bootMoved_of_missed {y : State} {k : Token} (hphase : y.phase = .boot) (hwait : y.waiting.opC = none)
    (hgo : y.seq.bstopped = false) (htry : y.seq.calcnt.toNat < y.cfg.calmax.toNat) (hk : y.pool.chold = some k) :
    BootMoved y.calibrationMissed := by
  obtain ⟨hcnt, -⟩ := calibrationMissed_eq (v := y) (by omega)
  have hstep : y.calibrationMissed.seq.bstep =
      if y.seq.calcnt.toNat + 1 ≥ y.cfg.calmax.toNat then .failrel else .read := rfl
  refine Or.inl ⟨hphase, ?_⟩
  by_cases hlast : y.seq.calcnt.toNat + 1 ≥ y.cfg.calmax.toNat
  · rw [if_pos hlast] at hstep
    exact ⟨by simp [hlast], by simp [hk, hlast], by simp [hlast], fun _ => by rw [hcnt, State.calibrationMissed_cfg]; omega,
      fun hne => absurd hstep hne, by simp [hlast], Or.inl hwait, hgo⟩
  · rw [if_neg hlast] at hstep
    exact ⟨by simp [hlast], by simp [hk, hlast], by simp [hlast], by simp [hlast],
      fun _ => by rw [hcnt, State.calibrationMissed_cfg]; omega, by simp [hlast], Or.inl hwait, hgo⟩

/-- The command of the step becomes outstanding. -/
theorem bootMoved_waits {s : State} {i : Instr} (hphase : s.phase = .boot) (h : BootStepOk s)
    (hi : bootCommand s = some i) : BootMoved (afterTable .C bootTable ((issuing .boot .C s).withWaiting .C (some i))) :=
  Or.inl ⟨hphase, h.on, h.hold, h.avg, h.failed, h.tried, h.rel, Or.inr hi.symm, h.going⟩

/-- The command of the boot sequencer's step, which passes its checks in BOOT (R257). -/
theorem bootCommand_passes {s : State} (h : PoolOk s) (hb : BootStepOk s) (hboot : s.phase = .boot) :
    ∃ i, bootCommand s = some i ∧ firstFault i (issuing .boot .C s) = none ∧
      (i = .acqf .C .bounded ∨
        ∃ k, s.pool.chold = some k ∧ (i = .caprd .C .bounded k ∨ i = .fidle .C k ∨ i = .relf .C k)) := by
  have hmay : ∀ i : Instr, i.agent = .C → Agent.C ∈ issuers i → Phase.boot ∈ legalPhases i →
      mayIssue i (issuing .boot .C s) := fun i ha hi hp => by simp [mayIssue, carries, ha, hi, hp, hboot]
  have hpool : PoolOk (issuing .boot .C s) := h
  have hold : s.seq.bstep ≠ .acq → ∃ k, s.pool.chold = some k := fun hne =>
    Option.ne_none_iff_exists'.1 (mt hb.hold.1 hne)
  have hrelease : ∀ k, s.pool.chold = some k → firstFault (.relf .C k) (issuing .boot .C s) = none := fun k hk =>
    tokenOp_passes hpool ⟨_, .poll, Or.inr (Or.inr rfl)⟩ (hmay _ rfl (by simp [issuers]) (by simp [legalPhases])) hk
  cases hstep : s.seq.bstep with
  | off => exact absurd hstep hb.on
  | acq =>
    refine ⟨.acqf .C .bounded, by simp [bootCommand, hstep], ?_, Or.inl rfl⟩
    exact acqf_passes (hmay _ rfl (by simp [issuers]) (by simp [legalPhases])) (hb.hold.2 hstep)
  | read =>
    obtain ⟨k, hk⟩ := hold (by simp [hstep])
    refine ⟨.caprd .C .bounded k, by simp [bootCommand, hstep, hk], ?_, Or.inr ⟨k, hk, Or.inl rfl⟩⟩
    exact tokenOp_passes hpool ⟨_, _, Or.inr (Or.inl rfl)⟩
      (hmay _ rfl (by simp [issuers]) (by simp [legalPhases])) hk
  | avg =>
    obtain ⟨k, hk, hd⟩ := hb.avg hstep
    refine ⟨.fidle .C k, by simp [bootCommand, hstep, hk], ?_, Or.inr ⟨k, hk, Or.inr (Or.inl rfl)⟩⟩
    exact frameOp_passes hpool ⟨_, Or.inl rfl⟩ (hmay _ rfl (by simp [issuers]) (by simp [legalPhases])) hk
      ((frameDefined_congr (by simp) (by simp) k).2 hd)
  | rel | failrel =>
    obtain ⟨k, hk⟩ := hold (by simp [hstep])
    exact ⟨.relf .C k, by simp [bootCommand, hstep, hk], hrelease k hk, Or.inr ⟨k, hk, Or.inr (Or.inr rfl)⟩⟩

/-- The rows of R256 for a command answered with the status `st`, in the step `b`. -/
def bootRowOf (b : BStep) (st : Status) (y : State) : State :=
  match b, st with
  | .acq, .ok => y.atBStep .read
  | .acq, .timeout => y.atBStep .acq
  | .read, .ok => y.atBStep .avg
  | .read, .timeout | .read, .error => y.calibrationMissed
  | .avg, .ok => y.atBStep .rel
  | .rel, .ok => y.calibrated
  | .failrel, .ok => y.calibrationFailed
  | _, _ => y.bootStopped

/-- The table acts on a command just answered by the row of its step and status. -/
theorem bootMoved_of_row {x : State} {ag : Agent} {st : Status} {w : Word} {b : BStep} (hx : x.waiting.opC = none)
    (hstep : x.seq.bstep = b) (h : BootMoved (bootRowOf b st (x.answered ag st w))) :
    BootMoved (afterTable .C bootTable (x.answered ag st w)) := by
  have hrow : bootTable (x.answered ag st w) = bootRowOf b st (x.answered ag st w) := by
    rw [bootTable, lastStatus_answered, State.answered_seq, hstep]
    cases b <;> cases st <;> rfl
  rwa [afterTable_of_none (ag := .C) (v := x.answered ag st w) hx, hrow]

/-- Each row of R256 leads where it should. -/
theorem bootMoved_of_exec {s v : State} {i : Instr} (h : PartsOk s) (hboot : s.phase = .boot) (hb : BootStepOk s)
    (hi : bootCommand s = some i) (hf : firstFault i (issuing .boot .C s) = none)
    (he : exec i (issuing .boot .C s) = .next v) : BootMoved (afterTable .C bootTable v) := by
  have heff := effect_of_passed hf he
  have hwaits := bootMoved_waits hboot hb hi
  cases hstep : s.seq.bstep with
  | off => exact absurd hstep hb.on
  | acq =>
    obtain rfl : i = .acqf .C .bounded := by simpa [bootCommand, hstep] using hi.symm
    have htry := hb.tried (by simp [hstep])
    rcases acqfReady_eq_next.1 heff with ⟨-, hn⟩ | ⟨k, q, -, rfl⟩
    · rcases notReady_bounded hn with rfl | rfl
      · refine bootMoved_of_row rfl hstep ?_
        exact bootMoved_of_step hboot rfl hb.going htry (by simp) (by simpa [hstep] using hb.hold) (by simp) (by simp)
      · exact hwaits
    · refine bootMoved_of_row rfl hstep ?_
      exact bootMoved_of_step hboot rfl hb.going htry (by simp) (by simp) (by simp) (by simp)
  | read =>
    obtain ⟨k, hk, rfl⟩ : ∃ k, s.pool.chold = some k ∧ i = .caprd .C .bounded k := by
      simpa [bootCommand, hstep, eq_comm] using hi
    have htry := hb.tried (by simp [hstep])
    rcases caprdReady_eq_next.1 heff with ⟨-, hn⟩ | ⟨-, rfl⟩ | ⟨d, -, rfl⟩
    · rcases notReady_bounded hn with rfl | rfl
      · refine bootMoved_of_row rfl hstep ?_
        exact bootMoved_of_missed hboot rfl hb.going htry hk
      · exact hwaits
    · refine bootMoved_of_row rfl hstep ?_
      exact bootMoved_of_missed hboot rfl hb.going htry hk
    · refine bootMoved_of_row rfl hstep ?_
      exact bootMoved_of_step hboot rfl hb.going htry (by simp) (by simp [hk])
        (fun _ => ⟨k, hk, frameDefined_withFrame (h.issuing _ _).fm.1 k d⟩) (by simp)
  | avg =>
    obtain ⟨k, hk, rfl⟩ : ∃ k, s.pool.chold = some k ∧ i = .fidle .C k := by
      simpa [bootCommand, hstep, eq_comm] using hi
    obtain ⟨xs, hxs, rfl⟩ := heff
    have hlen : xs.length = s.params.frameLen := (Memory.readAll_eq_some.1 hxs).1
    obtain ⟨hL, -⟩ := h.params
    obtain ⟨⟨-, hn, -⟩, -⟩ := h.cfg
    refine bootMoved_of_row rfl hstep ?_
    refine bootMoved_of_step hboot rfl hb.going (hb.tried (by simp [hstep])) (by simp) (by simp [hk]) (by simp)
      fun _ => ⟨rfl, fun hs => ?_⟩
    have := toNat_idleAvg_le (c := s.cfg.convcfg) hs hn (xs := xs) (by omega)
    rwa [hlen] at this
  | rel =>
    obtain ⟨k, hk, rfl⟩ : ∃ k, s.pool.chold = some k ∧ i = .relf .C k := by
      simpa [bootCommand, hstep, eq_comm] using hi
    cases heff
    refine bootMoved_of_row rfl hstep ?_
    obtain ⟨hdone, hidle⟩ := hb.rel hstep
    exact Or.inr ⟨⟨rfl, rfl, rfl, hb.going⟩, Or.inl ⟨rfl, fun hs => ⟨hdone, hidle hs⟩⟩⟩
  | failrel =>
    obtain ⟨k, hk, rfl⟩ : ∃ k, s.pool.chold = some k ∧ i = .relf .C k := by
      simpa [bootCommand, hstep, eq_comm] using hi
    cases heff
    refine bootMoved_of_row rfl hstep ?_
    exact Or.inr ⟨⟨rfl, rfl, rfl, hb.going⟩, Or.inr rfl⟩

/-! ### The move -/

/-- In BOOT agent M stands still whatever agent C does. -/
theorem bootQuiet_of_exec {s v : State} {i : Instr} (h : BootQuiet s) (ha : i.agent = .C)
    (hpub : ∀ ag wm k, i ≠ .pubb ag wm k) (hf : firstFault i (issuing .boot .C s) = none)
    (he : exec i (issuing .boot .C s) = .next v) : BootQuiet v := by
  have hstart : ∀ a, i ≠ .start a := by
    rintro a rfl
    obtain ⟨-, hi, -⟩ := mayIssue_of_firstFault hf
    simp [ha, issuers] at hi
  obtain ⟨hhold, hwait⟩ := agentKept_of_exec (ag := .M) (by simp [ha]) hstart hf he
  have hhold : v.pool.mhold = s.pool.mhold := hhold
  have hwait : v.waiting.opM = s.waiting.opM := hwait
  have hseq : v.seq = s.seq := (phase_seq_of_exec hstart he).2
  have hbusy : v.pool.busyq = [] := List.eq_nil_iff_forall_not_mem.2 fun j hj => by
    rcases mem_busyq_of_exec hf he hj with hold | ⟨ag, wm, hi⟩
    · have hold : j ∈ s.pool.busyq := hold
      simp [h.busyq] at hold
    · exact hpub ag wm j hi
  exact ⟨hwait.trans h.opM, hseq ▸ h.cstep, hseq ▸ h.mstep, hhold.trans h.mhold, hbusy, hseq ▸ h.cgoing, hseq ▸ h.mgoing⟩

/-- When calibration ends, in RUN or in FATAL, the control part holds. -/
theorem controlOk_of_bootMoved {t : State} (hq : BootQuiet t) (h : BootMoved t) : ControlOk t := by
  rcases h with ⟨hboot, hstep⟩ | ⟨⟨hwait, hhold, hoff, hgo⟩, ⟨hrun, hidle⟩ | hfatal⟩
  · exact (controlOk_boot_iff hboot).2 ⟨hq, hstep⟩
  · have hcap : CaptureOk t :=
      ⟨by simp [hhold, hq.cstep], by simp [hq.cstep], Or.inl hwait, hq.cgoing⟩
    have hmix : MixerOk t :=
      ⟨by simp [hq.mhold, hq.mstep], by simp [hq.mstep], Or.inl hq.opM, hq.mgoing⟩
    have hbusy : BusyOk t := fun k hk => by simp [hq.busyq] at hk
    exact (controlOk_run_iff hrun).2 ⟨hcap, hmix, hbusy, hidle, hoff, hgo⟩
  · exact controlOk_fatal hfatal hq hwait hoff hhold hgo

/-- The boot sequencer keeps the invariant. -/
theorem inv_of_bootMove {s t : State} (h : Inv s) (he : bootMove s = .next t) : Inv t := by
  unfold bootMove at he
  split at he
  · next hboot =>
    obtain ⟨hboot, -⟩ := hboot
    obtain ⟨hp, hctl⟩ := inv_iff.1 h
    obtain ⟨hq, hb⟩ := (controlOk_boot_iff hboot).1 hctl
    obtain ⟨i, hcmd, hf, hshape⟩ := bootCommand_passes hp.pool hb hboot
    obtain ⟨ha, hwf, hpub⟩ : i.agent = .C ∧ i.wellFormed = true ∧ ∀ ag wm k, i ≠ .pubb ag wm k := by
      rcases hshape with rfl | ⟨k, -, rfl | rfl | rfl⟩ <;> simp [Instr.agent, Instr.wellFormed]
    obtain ⟨v, hv, hpv, rfl⟩ := sequencerMove_carries hp hcmd ha hwf hb.wait hf he
    have hqv := bootQuiet_of_exec hq ha hpub hf hv
    have hmoved := bootMoved_of_exec hp hboot hb hcmd hf hv
    obtain ⟨b, n, d, p, f, heq⟩ := afterTable_boot_eq v
    rw [heq] at hmoved ⊢
    refine inv_iff.2 ⟨hpv.of_agree rfl rfl rfl rfl rfl rfl rfl, controlOk_of_bootMoved ?_ hmoved⟩
    exact ⟨hqv.opM, hqv.cstep, hqv.mstep, hqv.mhold, hqv.busyq, hqv.cgoing, hqv.mgoing⟩
  · cases he
    exact h

end Sys2Proof.Proofs
end

section
/-! The invariant: O53 and O54 (spec/10_state.md R26, R27, R50; spec/70_reset_and_hazards.md R320). -/

namespace Sys2Proof.Proofs

open Sys2Proof.Machine Sys2Proof.Safety Sys2Proof.Laws

/-! ### Reset and START -/

/-- The state after reset meets the invariant (R50). -/
theorem inv_resetFor {p : Params} (hp : p.legal) : Inv (State.resetFor p) := by
  obtain ⟨-, -, -, hdepth, hcap, -⟩ := id hp
  refine inv_iff.2 ⟨⟨hp, within_nil _, within_nil _, within_nil _, within_nil _,
    poolOk_seeded (s := State.resetFor p) hdepth, ?_, ?_, trivial, trivial⟩, (controlOk_setup_iff rfl).2 ?_⟩
  · exact ⟨Nat.lt_of_lt_of_le (show 0 < 4 by decide) hcap, Nat.zero_le _, rfl, fun j hj => absurd hj (Nat.not_lt_zero j)⟩
  · change (1 ≤ 16 ∧ 16 ≤ 16 ∧ 0 + 16 ≤ slotBits p.slotW) ∧ 1 ≤ 8
    cases p.slotW <;> decide
  · exact ⟨⟨rfl, rfl, rfl⟩, rfl, rfl, rfl⟩

/-- Settles O53. -/
theorem resetStateMeetsTheInvariant : Obligations.ResetStateMeetsTheInvariant :=
  ⟨inv_resetFor (by decide), fun _ => inv_resetFor⟩

/-- START, when it is not refused, leaves the sequencers at their first steps (R253, R254, R255). -/
theorem controlOk_started {s : State} (hC : s.waiting.opC = none) (hM : s.waiting.opM = none) (hcfg : CfgOk s)
    (hidle : s.cfg.convcfg.sgn = false → s.cfg.pathcfg.calEn = false →
      s.caldone = true ∧ s.cfg.idle.toNat ≤ maxCode s.cfg.convcfg) : ControlOk s.started := by
  cases hcal : s.cfg.pathcfg.calEn with
  | false =>
    refine (controlOk_run_iff (by simp [hcal])).2 ⟨?_, ?_, ?_, ?_, by simp [hcal], by simp [Seq.reset]⟩
    · exact ⟨by simp [Pool.seeded, Seq.reset], by simp [Seq.reset], Or.inl (by simp [hC]), by simp [Seq.reset]⟩
    · exact ⟨by simp [Pool.seeded, Seq.reset], by simp [Seq.reset], Or.inl (by simp [hM]), by simp [Seq.reset]⟩
    · intro k hk
      simp [Pool.seeded] at hk
    · intro hs
      simpa using hidle (by simpa using hs) hcal
  | true =>
    obtain ⟨-, hmax⟩ := hcfg
    refine (controlOk_boot_iff (by simp [hcal])).2 ⟨?_, ?_⟩
    · exact ⟨by simp [hM], by simp [Seq.reset], by simp [Seq.reset], by simp [Pool.seeded], by simp [Pool.seeded],
        by simp [Seq.reset], by simp [Seq.reset]⟩
    · exact ⟨by simp [hcal], by simp [hcal, Pool.seeded], by simp [hcal], by simp [hcal],
        fun _ => by simpa [Seq.reset] using Nat.lt_of_succ_le hmax, by simp [hcal], Or.inl (by simp [hC]), by simp [Seq.reset]⟩

/-! ### Commands from the ports -/

/-- Outside SETUP the ports carry no command of the sequencers' agents (R293), and what they carry writes FAULT, the ring
and the Playing flag only (R294). -/
theorem mayWrite_of_port {i : Instr} {s : State} {p : CmdPort} (ho : s.now.origin = .port p) (hm : mayIssue i s)
    (hphase : s.phase ≠ .setup) : mayWrite i ⊆ [.fault, .ring, .play] := by
  obtain ⟨hc, hi, hp⟩ := hm
  have hag : i.agent ≠ .C ∧ i.agent ≠ .M := by
    constructor <;> intro ha <;> simp [carries, ho, ha, hphase] at hc
  cases i with
  | cfgw | start => exact absurd (List.mem_singleton.1 hp) hphase
  | acqf | pubb | takb | relf | fst | caprd | lpf | fidle | oclr | rpop | mixf | sinkw =>
    simp_all [issuers, Instr.agent]
  | _ => simp [mayWrite]

/-- A command from a port, its agent having nothing outstanding, keeps the invariant. -/
theorem inv_of_command {i : Instr} {s t : State} {p : CmdPort} (h : Inv s) (ho : s.now.origin = .port p)
    (hfree : firstFault i s = none → s.waiting.of i.agent = none) (he : exec i s = .next t) : Inv t := by
  obtain ⟨hp, hctl⟩ := inv_iff.1 h
  refine inv_iff.2 ⟨hp.exec hfree he, ?_⟩
  rcases exec_decides he with ⟨c, -, rfl⟩ | ⟨hf, heff⟩
  · exact hctl.of_agree rfl rfl rfl rfl rfl rfl rfl rfl
  · by_cases hphase : s.phase = .setup
    · by_cases hi : ∃ ag, i = .start ag
      · obtain ⟨ag, rfl⟩ := hi
        obtain ⟨hC, hM, hidle⟩ := startable_of_start_passed hf
        cases heff
        exact (controlOk_started hC hM hp.cfg hidle).of_agree rfl rfl rfl rfl rfl rfl rfl rfl
      · obtain ⟨hphase', hseq⟩ := phase_seq_of_exec (not_exists.1 hi) he
        rw [controlOk_setup_iff (hphase'.trans hphase)]
        simpa only [RunningOk, hseq] using (controlOk_setup_iff hphase).1 hctl
    · have hkeep := keeps_mono (exec_keeps he) (mayWrite_of_port ho (mayIssue_of_firstFault hf) hphase)
      exact hctl.of_agree hkeep.1 (keeps_part hkeep .fm (by simp)) (keeps_part hkeep .pool (by simp))
        (keeps_part hkeep .cfg (by simp)) (keeps_part hkeep .caldone (by simp)) (keeps_part hkeep .phase (by simp))
        (keeps_part hkeep .seq (by simp)) (keeps_part hkeep .waiting (by simp))

/-- The invariant reads neither the environment, nor the ports, nor the observation, nor the flags. -/
theorem inv_of_agree {s t : State} (h : Inv s) (hparams : t.params = s.params) (hfm : t.fm = s.fm)
    (hpool : t.pool = s.pool) (hring : t.ring = s.ring) (hout : t.out = s.out) (hcfg : t.cfg = s.cfg)
    (hwait : t.waiting = s.waiting) (hdone : t.caldone = s.caldone) (hphase : t.phase = s.phase)
    (hseq : t.seq = s.seq) : Inv t := by
  obtain ⟨hp, hc⟩ := inv_iff.1 h
  exact inv_iff.2 ⟨hp.of_agree hparams hfm hpool hring hout hcfg hwait,
    hc.of_agree hparams hfm hpool hcfg hdone hphase hseq hwait⟩

/-- The agent of a command that a port may carry and that is not held back has nothing outstanding (R13). -/
theorem free_of_not_held {s : State} {p : CmdPort} {i : Instr} (hheld : held s p i = false)
    (hc : carries (.port p) i.agent s.phase) : s.waiting.of i.agent = none := by
  cases ha : i.agent with
  | H | R | S => rfl
  | C | M =>
    obtain ⟨rfl, hphase⟩ : p = .hp ∧ s.phase = .setup := by simpa [carries, ha] using hc
    rw [← ha]
    simpa [held, hphase] using hheld

theorem inv_of_servePort {p : CmdPort} {s t : State} (h : Inv s) (he : servePort p s = .next t) : Inv t := by
  obtain ⟨kept, f, -, ⟨-, e⟩ | ⟨-, w, rest, -, e⟩ | ⟨i, rest, -, hheld, e⟩⟩ := servePort_cases p s
  · cases e.symm.trans he
    exact h
  · cases e.symm.trans he
    exact inv_of_agree h rfl rfl rfl rfl rfl rfl rfl rfl rfl rfl
  · have hserving : Inv (s.servingPort p (kept ++ rest)) := inv_of_agree h rfl rfl rfl rfl rfl rfl rfl rfl rfl rfl
    refine inv_of_command hserving rfl (fun hf => ?_) (e.symm.trans he)
    obtain ⟨hc, -⟩ := mayIssue_of_firstFault hf
    exact free_of_not_held hheld hc

/-! ### Outstanding operations in SETUP -/

/-- The outstanding operation of an agent, in SETUP, passes its checks again (R14, R284). -/
theorem outstanding_passes {s : State} {ag : Agent} {i : Instr} (h : PartsOk s) (hphase : s.phase = .setup)
    (hi : s.waiting.of ag = some i) : i.agent = ag ∧ firstFault i (issuing (.port .hp) ag s) = none := by
  have hmay : ∀ a : Agent, a = .C ∨ a = .M → i.agent = a → a ∈ issuers i → Phase.setup ∈ legalPhases i →
      mayIssue i (issuing (.port .hp) a s) := fun a hcm ha hi hp => by
    rcases hcm with rfl | rfl <;> simp [mayIssue, carries, ha, hi, hp, hphase]
  cases ag with
  | C =>
    have hC := h.waitC
    have hi : s.waiting.opC = some i := hi
    rw [waitingOkC, hi] at hC
    split at hC
    · next hnone => cases hnone
    · next wm heq =>
      cases heq
      exact ⟨rfl, acqf_passes (hmay .C (by simp) rfl (by simp [issuers]) (by simp [legalPhases])) hC⟩
    · next wm k heq =>
      cases heq
      exact ⟨rfl, tokenOp_passes (h.issuing _ _).pool ⟨_, _, Or.inl rfl⟩
        (hmay .C (by simp) rfl (by simp [issuers]) (by simp [legalPhases])) hC⟩
    · next wm k heq =>
      cases heq
      exact ⟨rfl, tokenOp_passes (h.issuing _ _).pool ⟨_, _, Or.inr (Or.inl rfl)⟩
        (hmay .C (by simp) rfl (by simp [issuers]) (by simp [legalPhases])) hC⟩
    · exact hC.elim
  | M =>
    have hM := h.waitM
    have hi : s.waiting.opM = some i := hi
    rw [waitingOkM, hi] at hM
    split at hM
    · next hnone => cases hnone
    · next wm heq =>
      cases heq
      exact ⟨rfl, takb_passes (hmay .M (by simp) rfl (by simp [issuers]) (by simp [legalPhases])) hM⟩
    · next wm heq =>
      cases heq
      exact ⟨rfl, plainOp_passes ⟨_, _, Or.inr (Or.inl rfl)⟩
        (hmay .M (by simp) rfl (by simp [issuers]) (by simp [legalPhases]))⟩
    · next wm heq =>
      cases heq
      exact ⟨rfl, plainOp_passes ⟨_, _, Or.inr (Or.inr rfl)⟩
        (hmay .M (by simp) rfl (by simp [issuers]) (by simp [legalPhases]))⟩
    · exact hM.elim
  | H | R | S => cases hi

theorem inv_of_resumeDirect {ag : Agent} {s t : State} (h : Inv s) (he : resumeDirect ag s = .next t) : Inv t := by
  unfold resumeDirect at he
  split at he
  · next hphase =>
    obtain ⟨hp, hctl⟩ := inv_iff.1 h
    cases hi : s.waiting.of ag with
    | none =>
      have hkeep : resumeAgent ag { s with now := { s.now with origin := .port .hp } } =
          .next { s with now := { s.now with origin := .port .hp } } := by simp [resumeAgent, hi]
      cases hkeep.symm.trans he
      exact inv_of_agree h rfl rfl rfl rfl rfl rfl rfl rfl rfl rfl
    | some i =>
      obtain ⟨hag, hf⟩ := outstanding_passes hp hphase hi
      have hagain : resumeAgent ag { s with now := { s.now with origin := .port .hp } } =
          completeOp i (issuing (.port .hp) ag s) := by simp [resumeAgent, hi, issuing]
      rw [hagain, completeOp_eq_exec (waits_of_outstanding hp hi) hf] at he
      have hissuing : Inv (issuing (.port .hp) ag s) := by
        refine inv_iff.2 ⟨hp.issuing _ _, (controlOk_setup_iff (by simpa using hphase)).2 ?_⟩
        simpa only [RunningOk, issuing_seq] using (controlOk_setup_iff hphase).1 hctl
      exact inv_of_command hissuing (issuing_origin _ _ _) (fun _ => hag ▸ issuing_of_self _ _ _) he
  · cases he
    exact h

/-! ### Every move -/

theorem inv_of_runMove {m : Move} {s t : State} (h : Inv s) (he : runMove m s = .next t) : Inv t := by
  cases m with
  | present p w =>
    cases he
    exact inv_of_agree h rfl rfl rfl rfl rfl rfl rfl rfl rfl rfl
  | serve p => exact inv_of_servePort h he
  | resumeC => exact inv_of_resumeDirect h he
  | resumeM => exact inv_of_resumeDirect h he
  | boot => exact inv_of_bootMove h he
  | capture => exact inv_of_captureMove h he
  | mixer => exact inv_of_mixerMove h he
  | reset =>
    cases he
    exact inv_of_agree (inv_resetFor h.params) rfl rfl rfl rfl rfl rfl rfl rfl rfl rfl

/-- Settles O54: a step is one move, in a state that differs in what the invariant does not read. -/
theorem everyStepKeepsTheInvariant : Obligations.EveryStepKeepsTheInvariant := by
  intro s t h he
  obtain ⟨ts, k, hn⟩ := nextTurn_state s
  rw [step, takeTurn, hn] at he
  refine inv_of_runMove ?_ he
  exact inv_of_agree h rfl rfl rfl rfl rfl rfl rfl rfl rfl rfl

end Sys2Proof.Proofs
end

section
/-! SUPPORT. What one move can do, said once (spec/60_exceptions.md R288, R303): a word presented, a command carried out, an
operation looked at again, a sequencer's table applied, or reset. -/

namespace Sys2Proof.Proofs

open Sys2Proof.Machine Sys2Proof.Safety Sys2Proof.Laws

/-- FAULT and EVT bits that are set stay set (R38, R39, R286). -/
def Sticky (s t : State) : Prop :=
  s.fault &&& t.fault = s.fault ∧ (s.evt.capfail = true → t.evt.capfail = true) ∧
    (s.evt.sinkmiss = true → t.evt.sinkmiss = true)

theorem Sticky.of_eq {s t : State} (hf : t.fault = s.fault) (he : t.evt = s.evt) : Sticky s t := by
  refine ⟨by rw [hf, BitVec.and_self], ?_, ?_⟩ <;> rw [he] <;> exact id

theorem and_or_self_left {n : Nat} (a b : BitVec n) : a &&& (a ||| b) = a := by
  refine BitVec.eq_of_getLsbD_eq fun i _ => ?_
  cases h : a.getLsbD i <;> simp [h]

theorem Sticky.of_or {s t : State} {m : BitVec 10} (hf : t.fault = s.fault ||| m) (he : t.evt = s.evt) : Sticky s t := by
  refine ⟨by rw [hf, and_or_self_left], ?_, ?_⟩ <;> rw [he] <;> exact id

theorem Sticky.trans {s t u : State} (h : Sticky s t) (h' : Sticky t u) : Sticky s u := by
  obtain ⟨hf, hc, hm⟩ := h
  obtain ⟨hf', hc', hm'⟩ := h'
  refine ⟨?_, hc' ∘ hc, hm' ∘ hm⟩
  calc s.fault &&& u.fault = s.fault &&& (t.fault &&& u.fault) := by rw [← BitVec.and_assoc, hf]
    _ = s.fault := by rw [hf', hf]

/-- What a sequencer's table or stop does: it writes steps and phase, and sets bits of EVT and FAULT. -/
def Tabled (v t : State) : Prop := Sticky v t ∧ ∃ q p e f, t = { v with seq := q, phase := p, evt := e, fault := f }

theorem Tabled.refl (v : State) : Tabled v v := ⟨.of_eq rfl rfl, _, _, _, _, rfl⟩

theorem Tabled.of_seq {v : State} (q : Seq) (p : Phase) : Tabled v { v with seq := q, phase := p } :=
  ⟨.of_eq rfl rfl, _, _, _, _, rfl⟩

theorem tabled_captureTable (v : State) : Tabled v (captureTable v) := by
  have hmiss : Tabled v (v.withCapfail.atCStep .rel) := ⟨⟨BitVec.and_self, fun _ => rfl, id⟩, _, _, _, _, rfl⟩
  unfold captureTable
  split
  case h_4 | h_5 => exact hmiss
  all_goals exact .of_seq _ _

theorem tabled_mixerTable (v : State) : Tabled v (mixerTable v) := by
  have hmiss : Tabled v (v.withSinkmiss.atMStep .clr) := ⟨⟨BitVec.and_self, id, fun _ => rfl⟩, _, _, _, _, rfl⟩
  unfold mixerTable
  split
  case h_11 | h_12 => exact hmiss
  all_goals exact .of_seq _ _

theorem tabled_bootTable (v : State) : Tabled v (bootTable v) := by
  have hfail : Tabled v v.calibrationFailed := ⟨.of_or rfl rfl, _, _, _, _, rfl⟩
  unfold bootTable
  split
  case h_8 => exact hfail
  all_goals exact .of_seq _ _

/-- What a move leaves of a state. -/
inductive Moved (s : State) : Move → State → Prop
  /-- Nothing is carried out; a sequencer may stop. -/
  | quiet {m : Move} {n : Now} {t : State} (ht : Tabled { s with now := n } t) : Moved s m t
  | presented (p : CmdPort) (w : Word) : Moved s (.present p w) { s with ports := s.ports.set p (s.ports.of p ++ [w]) }
  | illegal (p : CmdPort) (ws : List Word) (ag : BitVec 3) : Moved s (.serve p) ((s.servingPort p ws).illegalFaulted ag)
  /-- A command of a port is carried out. -/
  | served {p : CmdPort} {i : Instr} {kept rest : List Word} {t : State}
      (hfirst : firstServable (held s p) (s.ports.of p).length (s.ports.of p) = (kept, .command i rest))
      (he : exec i (s.servingPort p (kept ++ rest)) = .next t) : Moved s (.serve p) t
  /-- A sequencer's command is carried out, and its table may act. -/
  | issued {m : Move} {o : Origin} {i : Instr} {v t : State} (ho : ∀ p, o ≠ .port p)
      (he : exec i { s with now := { s.now with origin := o } } = .next v) (ht : Tabled v t) : Moved s m t
  /-- An outstanding operation is looked at again, and a table may act. -/
  | resumed {m : Move} {o : Origin} {ag : Agent} {i : Instr} {v t : State}
      (he : completeOp i (issuing o ag s) = .next v) (ht : Tabled v t) : Moved s m t
  | reset : Moved s .reset s.afterReset

theorem moved_of_servePort {p : CmdPort} {s t : State} (h : servePort p s = .next t) : Moved s (.serve p) t := by
  obtain ⟨kept, f, hk, ⟨-, e⟩ | ⟨-, w, rest, -, e⟩ | ⟨i, rest, rfl, -, e⟩⟩ := servePort_cases p s
  · cases e.symm.trans h
    exact .quiet (.refl s)
  · cases e.symm.trans h
    exact .illegal p _ _
  · exact .served hk (e.symm.trans h)

/-- An operation looked at again, and whatever a table makes of it. -/
theorem moved_of_resumeAgent {m : Move} {o : Origin} {ag : Agent} {s v t : State}
    (h : resumeAgent ag { s with now := { s.now with origin := o } } = .next v) (ht : Tabled v t) : Moved s m t := by
  unfold resumeAgent at h
  split at h
  · cases h
    exact .quiet ht
  · exact .resumed h ht

theorem moved_of_resumeDirect {m : Move} {ag : Agent} {s t : State} (h : resumeDirect ag s = .next t) : Moved s m t := by
  unfold resumeDirect at h
  split at h
  · exact moved_of_resumeAgent h (.refl t)
  · cases h
    exact .quiet (.refl s)

theorem moved_of_sequencerMove {m : Move} {o : Origin} {ag : Agent} {command : Option Instr} {table stop : State → State}
    {s t : State} (ho : ∀ p, o ≠ .port p) (htable : ∀ v, Tabled v (table v)) (hstop : ∀ v, Tabled v (stop v))
    (h : sequencerMove o ag command table stop s = .next t) : Moved s m t := by
  rcases sequencerMove_eq_next h with ⟨-, -, rfl⟩ | ⟨v, hgo, hend⟩
  · exact .quiet (hstop s)
  · have ht : Tabled v t := by
      rcases hend with ⟨-, rfl⟩ | ⟨-, rfl⟩
      · exact .refl _
      · exact htable v
    rcases hgo with ⟨-, hr⟩ | ⟨-, i, -, he⟩
    · exact moved_of_resumeAgent hr ht
    · exact .issued ho he ht

/-- Every move is one of these. -/
theorem moved_of_runMove {m : Move} {s t : State} (h : runMove m s = .next t) : Moved s m t := by
  have hskip : ∀ {u : State}, (Host.Outcome.next s : Result) = .next u → Moved s m u := fun hu => by
    cases hu
    exact .quiet (.refl s)
  cases m with
  | present p w => cases h; exact .presented p w
  | serve p => exact moved_of_servePort h
  | resumeC => exact moved_of_resumeDirect h
  | resumeM => exact moved_of_resumeDirect h
  | boot =>
    simp only [runMove, bootMove] at h
    split at h
    · exact moved_of_sequencerMove (by simp) tabled_bootTable (fun _ => .of_seq _ _) h
    · exact hskip h
  | capture =>
    simp only [runMove, captureMove] at h
    split at h
    · exact moved_of_sequencerMove (by simp) tabled_captureTable (fun _ => .of_seq _ _) h
    · exact hskip h
  | mixer =>
    simp only [runMove, mixerMove] at h
    split at h
    · exact moved_of_sequencerMove (by simp) tabled_mixerTable (fun _ => .of_seq _ _) h
    · exact hskip h
  | reset => cases h; exact .reset

/-- A step is a move of the turn that comes next, made in a state with that turn taken off. -/
theorem moved_of_step {s t : State} (h : step s = .next t) : ∃ ts k,
    Moved { s with
      now := { s.now with
        source := (nextTurn s).1.source, sink := (nextTurn s).1.sink, expire := (nextTurn s).1.expire }
      agenda := ts, tick := k } (nextTurn s).1.move t := by
  obtain ⟨ts, k, hn⟩ := nextTurn_state s
  rw [step, takeTurn, hn] at h
  exact ⟨ts, k, moved_of_runMove h⟩

/-! ### What an operation looked at again can write -/

/-- An operation looked at again writes what the six operations of R14 write, or nothing. -/
theorem completeOp_keeps_waiting {i : Instr} {s t : State} (h : completeOp i s = .next t) :
    keeps [.fm, .pool, .out, .ring, .sinkLog, .waiting] s t := by
  have hkeep := completeOp_keeps h
  cases i with
  | acqf | pubb | takb | caprd | rpop | sinkw => exact keeps_mono hkeep (by simp [mayEffect, mayWrite])
  | _ =>
    cases h
    exact keeps_refl _ _

end Sys2Proof.Proofs
end

section
/-! What a step does to the sticky bits, the Playing flag and the sink log: O57, O59 and O60 (spec/10_state.md R38, R39,
R47, R49). -/

namespace Sys2Proof.Proofs

open Sys2Proof.Machine Sys2Proof.Safety Sys2Proof.Laws

/-! ### FAULT and EVT -/

theorem sticky_of_exec {i : Instr} {s t : State} (h : exec i s = .next t) : Sticky s t := by
  have hevt : t.evt = s.evt := keeps_part (exec_keeps h) .evt (by cases i <;> simp [mayWrite])
  rcases exec_decides h with ⟨c, -, rfl⟩ | ⟨-, heff⟩
  · exact .of_or rfl rfl
  · exact .of_eq (keeps_part (effect_keeps heff) .fault (fault_not_mem_mayEffect i)) hevt

theorem sticky_of_completeOp {i : Instr} {s t : State} (h : completeOp i s = .next t) : Sticky s t :=
  .of_eq (keeps_part (completeOp_keeps_waiting h) .fault (by simp)) (keeps_part (completeOp_keeps_waiting h) .evt (by simp))

theorem sticky_of_moved {m : Move} {s t : State} (hm : m ≠ .reset) (h : Moved s m t) : Sticky s t := by
  cases h with
  | quiet ht => exact (ht.1 :)
  | presented p w => exact .of_eq rfl rfl
  | illegal p ws ag => exact .of_or rfl rfl
  | served hfirst he => exact (sticky_of_exec he :)
  | issued ho he ht => exact ((sticky_of_exec he).trans ht.1 :)
  | @resumed _ o ag _ _ _ he ht =>
    have hsame : Sticky s (issuing o ag s) := .of_eq (issuing_fault o ag s) (issuing_evt o ag s)
    exact (hsame.trans (sticky_of_completeOp he)).trans ht.1
  | reset => exact absurd rfl hm

/-- Settles O57. -/
theorem faultAndEventBitsAreSticky : Obligations.FaultAndEventBitsAreSticky := by
  intro s t h hm
  obtain ⟨ts, k, hmoved⟩ := moved_of_step h
  exact (sticky_of_moved hm hmoved :)

/-! ### The Playing flag -/

theorem play_of_tabled {v t : State} (h : Tabled v t) : t.play = v.play := by
  obtain ⟨-, q, p, e, f, rfl⟩ := h
  rfl

/-- A command changes PLAY only when it is SEVT of agent S on its port (R173, R293). -/
theorem play_of_exec {i : Instr} {s t : State} (h : exec i s = .next t) :
    t.play = s.play ∨ ∃ ev, i = .sevt .S ev ∧ s.now.origin = .port .sp := by
  cases i with
  | sevt ag ev =>
    rcases exec_decides h with ⟨c, -, rfl⟩ | ⟨hf, -⟩
    · exact Or.inl rfl
    · obtain ⟨hc, hi, -⟩ := mayIssue_of_firstFault hf
      obtain rfl : ag = .S := List.mem_singleton.1 hi
      exact Or.inr ⟨ev, rfl, by simpa [carries, Instr.agent] using hc⟩
  | _ => exact Or.inl (keeps_part (exec_keeps h) .play (by simp [mayWrite]))

/-- A move changes PLAY only when it is reset, or serves a SEVT that stands first on port SP. -/
theorem play_of_moved {m : Move} {s t : State} (h : Moved s m t) :
    t.play = s.play ∨ (m = .reset ∧ t.play = .idle) ∨
      ∃ ev rest, m = .serve .sp ∧ fetch (s.ports.of .sp) = .command (.sevt .S ev) rest := by
  cases h with
  | quiet ht => exact Or.inl (play_of_tabled ht :)
  | presented p w => exact Or.inl rfl
  | illegal p ws ag => exact Or.inl rfl
  | @served p i kept rest _ hfirst he =>
    rcases play_of_exec he with hsame | ⟨ev, rfl, ho⟩
    · exact Or.inl hsame
    · obtain rfl : p = .sp := by simpa using ho
      rw [firstServable_of_free fun _ _ _ => held_eq_false (Or.inl (by simp))] at hfirst
      exact Or.inr (Or.inr ⟨ev, rest, rfl, congrArg Prod.snd hfirst⟩)
  | issued ho he ht =>
    rcases play_of_exec he with hsame | ⟨ev, rfl, hport⟩
    · exact Or.inl ((play_of_tabled ht).trans hsame)
    · exact absurd hport (ho _)
  | resumed he ht =>
    have hsame := keeps_part (completeOp_keeps_waiting he) .play (by simp)
    exact Or.inl ((play_of_tabled ht).trans (hsame.trans (issuing_play _ _ s)))
  | reset => exact Or.inr (Or.inl ⟨rfl, rfl⟩)

/-- Settles O59. -/
theorem onlySessionEventsMoveThePlayingFlag : Obligations.OnlySessionEventsMoveThePlayingFlag := by
  intro s t h hne
  obtain ⟨ts, k, hmoved⟩ := moved_of_step h
  rcases play_of_moved hmoved with hsame | hreset | hevent
  · exact absurd hsame hne
  · exact Or.inl hreset
  · exact Or.inr hevent

/-! ### The sink log -/

/-- The sink log is as before, or the sink accepts and the log has the Output Frame more (R200, R301). -/
def SinkGrows (s t : State) : Prop :=
  t.log.sink = s.log.sink ∨ (s.now.sink = .accepting ∧ t.log.sink = s.log.sink ++ [outSamples s])

theorem sinkGrows_of_completeOp {i : Instr} {s t : State} (h : completeOp i s = .next t) : SinkGrows s t := by
  cases i with
  | sinkw ag wm =>
    rcases sinkwReady_eq_next.1 h with ⟨-, hn⟩ | ⟨-, rfl⟩ | ⟨hs, rfl⟩
    · exact Or.inl (keeps_part (keeps_notReady (ps := [.waiting]) (by simp) (keeps_refl _ s) hn) .sinkLog (by simp))
    · exact Or.inl rfl
    · exact Or.inr ⟨hs, rfl⟩
  | _ => exact Or.inl (keeps_part (completeOp_keeps h) .sinkLog (by simp [mayWrite]))

theorem sinkGrows_of_exec {i : Instr} {s t : State} (h : exec i s = .next t) : SinkGrows s t := by
  cases i with
  | sinkw ag wm =>
    rcases exec_decides h with ⟨c, -, rfl⟩ | ⟨-, heff⟩
    · exact Or.inl rfl
    · exact sinkGrows_of_completeOp heff
  | _ => exact Or.inl (keeps_part (exec_keeps h) .sinkLog (by simp [mayWrite]))

theorem SinkGrows.of_tabled {s v t : State} (h : SinkGrows s v) (ht : Tabled v t) : SinkGrows s t := by
  obtain ⟨-, q, p, e, f, rfl⟩ := ht
  exact h

theorem sinkGrows_of_moved {m : Move} {s t : State} (h : Moved s m t) : SinkGrows s t := by
  cases h with
  | quiet ht =>
    obtain ⟨-, q, p, e, f, rfl⟩ := ht
    exact Or.inl rfl
  | presented p w => exact Or.inl rfl
  | illegal p ws ag => exact Or.inl rfl
  | served hfirst he => exact (sinkGrows_of_exec he :)
  | issued ho he ht => exact ((sinkGrows_of_exec he).of_tabled ht :)
  | @resumed _ o ag _ _ _ he ht =>
    refine .of_tabled ?_ ht
    have hgrows := sinkGrows_of_completeOp he
    cases ag <;> exact hgrows
  | reset => exact Or.inl rfl

/-- Settles O60. -/
theorem sinkLogHoldsAcceptedFrames : Obligations.SinkLogHoldsAcceptedFrames := by
  intro s t h
  obtain ⟨ts, k, hmoved⟩ := moved_of_step h
  exact (sinkGrows_of_moved hmoved :)

end Sys2Proof.Proofs
end

section
/-! SUPPORT. Registers as numbers (spec/10_state.md R30 to R45): fields side by side in a word are a sum, each field times the
power of two of its place. -/

namespace Sys2Proof.Proofs

open Sys2Proof.Machine Sys2Proof.Safety Sys2Proof.Laws

/-- The word reads as the number `x`, and only its low `k` bits are used. -/
def Reads (w : Word) (x k : Nat) : Prop := w.toNat = x ∧ x < 2 ^ k

theorem toNat_placed {n lo : Nat} (v : BitVec n) (hn : lo + n ≤ 32) : (placed lo v).toNat = 2 ^ lo * v.toNat := by
  have hv : 2 ^ lo * v.toNat < 2 ^ 32 := calc
    2 ^ lo * v.toNat < 2 ^ lo * 2 ^ n := Nat.mul_lt_mul_of_pos_left v.isLt (Nat.two_pow_pos lo)
    _ = 2 ^ (lo + n) := (Nat.pow_add 2 lo n).symm
    _ ≤ 2 ^ 32 := Nat.pow_le_pow_right (by omega) hn
  rw [placed, BitVec.toNat_shiftLeft, BitVec.toNat_setWidth_of_le (by omega), Nat.shiftLeft_eq, Nat.mul_comm,
    Nat.mod_eq_of_lt hv]

theorem reads_placed {n : Nat} (v : BitVec n) (hn : n ≤ 32) : Reads (placed 0 v) v.toNat n :=
  ⟨by rw [toNat_placed v (by omega)]; simp, v.isLt⟩

/-- One field more, above those that are there. -/
theorem Reads.or {w : Word} {x k : Nat} (h : Reads w x k) {n : Nat} (lo : Nat) (v : BitVec n) (hk : k ≤ lo)
    (hn : lo + n ≤ 32) : Reads (w ||| placed lo v) (x + 2 ^ lo * v.toNat) (lo + n) := by
  obtain ⟨hw, hx⟩ := h
  have hlt : x < 2 ^ lo := Nat.lt_of_lt_of_le hx (Nat.pow_le_pow_right (by omega) hk)
  refine ⟨?_, ?_⟩
  · rw [BitVec.toNat_or, hw, toNat_placed v hn, Nat.or_comm, ← Nat.two_pow_add_eq_or_of_lt hlt, Nat.add_comm]
  · have hv : 2 ^ lo * (v.toNat + 1) ≤ 2 ^ lo * 2 ^ n := Nat.mul_le_mul_left _ v.isLt
    rw [Nat.mul_add, ← Nat.pow_add] at hv
    omega

theorem toNat_bit (b : Bool) : (bit b).toNat = bitNat b := by cases b <;> rfl

/-! ### The registers of several fields -/

theorem param0Word_toNat {p : Params} (hp : p.legal) :
    (param0Word p).toNat = p.frameLen + 2 ^ 16 * p.depth + 2 ^ 24 * bitNat (p.slotW == .w32) := by
  obtain ⟨-, hL, -, hN, -⟩ := hp
  have h := (((reads_placed (BitVec.ofNat 13 p.frameLen) (by omega)).or 16 (BitVec.ofNat 5 p.depth) (by omega)
    (by omega)).or 24 (bit (p.slotW == .w32)) (by omega) (by omega)).1
  rw [BitVec.toNat_ofNat, BitVec.toNat_ofNat, Nat.mod_eq_of_lt (by omega), Nat.mod_eq_of_lt (by omega), toNat_bit] at h
  exact h

theorem convcfgWord_toNat (c : ConvCfg) :
    (convcfgWord c).toNat = c.nbits.toNat + 2 ^ 8 * c.shift.toNat + 2 ^ 16 * bitNat c.sgn := by
  have h := (((reads_placed c.nbits (by omega)).or 8 c.shift (by omega) (by omega)).or 16 (bit c.sgn) (by omega)
    (by omega)).1
  rwa [toNat_bit] at h

theorem pathcfgWord_toNat (c : PathCfg) :
    (pathcfgWord c).toNat = bitNat c.firEn + 2 * bitNat c.gateEn + 4 * bitNat c.sat + 8 * bitNat c.calEn := by
  have h := ((((reads_placed (bit c.firEn) (by omega)).or 1 (bit c.gateEn) (by omega) (by omega)).or 2 (bit c.sat)
    (by omega) (by omega)).or 3 (bit c.calEn) (by omega) (by omega)).1
  simp only [toNat_bit] at h
  exact h

theorem evtWord_toNat (e : Evt) : (evtWord e).toNat = bitNat e.capfail + 2 * bitNat e.sinkmiss := by
  have h := ((reads_placed (bit e.capfail) (by omega)).or 1 (bit e.sinkmiss) (by omega) (by omega)).1
  simp only [toNat_bit] at h
  exact h

theorem qcntWord_toNat {pl : Pool} (hf : pl.freeq.length ≤ 16) (hb : pl.busyq.length ≤ 16) :
    (qcntWord pl).toNat = pl.freeq.length + 2 ^ 8 * pl.busyq.length := by
  have h := ((reads_placed (BitVec.ofNat 5 pl.freeq.length) (by omega)).or 8 (BitVec.ofNat 5 pl.busyq.length) (by omega)
    (by omega)).1
  rw [BitVec.toNat_ofNat, BitVec.toNat_ofNat, Nat.mod_eq_of_lt (by omega), Nat.mod_eq_of_lt (by omega)] at h
  exact h

theorem ringstWord_toNat {r : Ring} (hf : r.rfill < 2 ^ 16) (hr : r.rrd < 2 ^ 16) :
    (ringstWord r).toNat = r.rfill + 2 ^ 16 * r.rrd := by
  have h := ((reads_placed (BitVec.ofNat 16 r.rfill) (by omega)).or 16 (BitVec.ofNat 16 r.rrd) (by omega) (by omega)).1
  rw [BitVec.toNat_ofNat, BitVec.toNat_ofNat, Nat.mod_eq_of_lt hf, Nat.mod_eq_of_lt hr] at h
  exact h

theorem ownmapBelow_reads (pl : Pool) {n : Nat} (hn : n ≤ 16) :
    Reads (ownmapBelow pl n)
      ((List.range n).map fun t => 4 ^ t * (ownerCode (ownerOf pl (BitVec.ofNat 4 t))).toNat).sum (2 * n) := by
  induction n with
  | zero => exact ⟨rfl, Nat.one_pos⟩
  | succ n ih =>
    have h := (ih (by omega)).or (2 * n) (ownerCode (ownerOf pl (BitVec.ofNat 4 n))) le_rfl (by omega)
    rw [List.range_succ, List.map_append, List.sum_append, List.map_singleton, List.sum_singleton,
      show 4 ^ n = 2 ^ (2 * n) by rw [Nat.pow_mul]]
    exact h

/-- A hold as its two fields from bit `lo` on (R37). -/
def holdNat (lo : Nat) (o : Option Token) : Nat := 2 ^ lo * bitNat o.isSome + 2 ^ (lo + 1) * (o.getD 0).toNat

theorem statusWord_toNat (s : State) :
    (statusWord s).toNat =
      (phaseCode s.phase).toNat + 2 ^ 2 * (playCode s.play).toNat + 2 ^ 4 * bitNat s.caldone + holdNat 5 s.pool.chold +
        holdNat 10 s.pool.mhold + 2 ^ 16 * (cstepCode s.seq.cstep).toNat + 2 ^ 20 * (mstepCode s.seq.mstep).toNat +
        2 ^ 24 * (bstepCode s.seq.bstep).toNat := by
  have hlow := ((reads_placed (phaseCode s.phase) (by omega)).or 2 (playCode s.play) (by omega) (by omega)).or 4
    (bit s.caldone) (by omega) (by omega)
  have hchold := (hlow.or 5 (bit s.pool.chold.isSome) (by omega) (by omega)).or 6 (s.pool.chold.getD 0) (by omega)
    (by omega)
  have hmhold := (hchold.or 10 (bit s.pool.mhold.isSome) (by omega) (by omega)).or 11 (s.pool.mhold.getD 0) (by omega)
    (by omega)
  have h := (((hmhold.or 16 (cstepCode s.seq.cstep) (by omega) (by omega)).or 20 (mstepCode s.seq.mstep) (by omega)
    (by omega)).or 24 (bstepCode s.seq.bstep) (by omega) (by omega)).1
  simp only [toNat_bit] at h
  rw [statusWord, h, holdNat, holdNat]
  omega

/-- STATUS as a number (R37). -/
theorem registerNat_status (s : State) : registerNat s 0x10 = (statusWord s).toNat := by
  rw [statusWord_toNat]
  simp only [registerNat]
  congr 7
  · cases s.phase <;> rfl
  · cases s.play <;> rfl
  · cases s.pool.chold <;> simp [holdNat, bitNat]
  · cases s.pool.mhold <;> simp [holdNat, bitNat]
  · cases s.seq.cstep <;> rfl
  · cases s.seq.mstep <;> rfl
  · cases s.seq.bstep <;> rfl

/-- OWNMAP as a number (R43). -/
theorem registerNat_ownmap {s : State} (hn : s.params.depth ≤ 16) :
    registerNat s 0x16 = (ownmapBelow s.pool s.params.depth).toNat := by
  rw [(ownmapBelow_reads s.pool hn).1]
  refine congrArg List.sum (List.map_congr_left fun t _ => congrArg (4 ^ t * ·) ?_)
  cases ownerOf s.pool (BitVec.ofNat 4 t) <;> rfl

/-! ### Every register -/

theorem toNat_placed_zero {n : Nat} (v : BitVec n) (hn : n ≤ 32) : (placed 0 v).toNat = v.toNat := (reads_placed v hn).1

/-- What CFGR reads is the register as a number. -/
theorem csrRead_toNat {s : State} (hfit : fieldsFit s) (c : Csr) :
    (csrRead s c).toNat = registerNat s (csrNumber c).toNat := by
  obtain ⟨hp, hfree, hbusy, hfill, hrd⟩ := hfit
  obtain ⟨-, hL, -, hN, -, hcap, -⟩ := id hp
  cases c with
  | param0 => exact param0Word_toNat hp
  | param1 =>
    refine (toNat_placed_zero _ (by omega)).trans ?_
    rw [BitVec.toNat_ofNat, Nat.mod_eq_of_lt (by omega)]
    rfl
  | srate => rfl
  | convcfg => exact convcfgWord_toNat _
  | pathcfg => exact pathcfgWord_toNat _
  | thresh | coef0 | coef1 | coef2 | coef3 | idle | calmax | fault | calcnt => exact toNat_placed_zero _ (by omega)
  | status => exact (registerNat_status s).symm
  | evt => exact evtWord_toNat _
  | qcnt => exact qcntWord_toNat (hfree.trans hN) (hbusy.trans hN)
  | ringst => exact ringstWord_toNat (by omega) (by omega)
  | first =>
    refine (toNat_placed_zero _ (by omega)).trans ?_
    have hlt := s.filter.fidx.isLt
    rw [BitVec.toNat_ofNat, Nat.mod_eq_of_lt (by omega)]
    rfl
  | ownmap => exact (registerNat_ownmap hN).symm
  | dlv k =>
    refine (toNat_placed_zero _ (by omega)).trans ?_
    fin_cases k <;> rfl

end Sys2Proof.Proofs
end

section
/-! The configuration registers read and written: O17 and O18 (spec/45_host.md R251, R252). -/

namespace Sys2Proof.Proofs

open Sys2Proof.Machine Sys2Proof.Safety Sys2Proof.Laws

/-- Settles O17: the register is assembled from its fields, and the answer changes no part. -/
theorem cfgrReadsEveryRegister : Obligations.CfgrReadsEveryRegister := by
  intro ag r s hm hr hfit
  obtain ⟨hc, hi, hp⟩ := hm
  obtain ⟨c, hcsr⟩ := Option.ne_none_iff_exists'.1 (mt (csrOfNumber_eq_none_iff r).1 (not_not_intro hr))
  have he : exec (.cfgr ag r) s = .next (s.answered ag .ok (csrRead s c)) :=
    (checked_pass _ hc hi hp).trans (by rw [hcsr]; rfl)
  refine ⟨_, _, he, rfl, ?_, keeps_answered (keeps_refl _ s) _ _ _⟩
  rw [csrRead_toNat hfit, ← csrNumber_of_csrOfNumber hcsr]

/-! ### Writes -/

/-- The value written, as the fields of CONVCFG (R31). -/
theorem convcfg_fields {v : Nat} (h17 : v % 2 ^ 17 = v) (h5 : v / 2 ^ 5 % 2 ^ 3 = 0) (h13 : v / 2 ^ 13 % 2 ^ 3 = 0) :
    v % 2 ^ 5 + 2 ^ 8 * (v / 2 ^ 8 % 2 ^ 5) + 2 ^ 16 * (v / 2 ^ 16 % 2) = v := by
  omega

/-- The value written, as the fields of PATHCFG (R32). -/
theorem pathcfg_fields {v : Nat} (h : v < 2 ^ 4) :
    v % 2 + 2 * (v / 2 ^ 1 % 2) + 4 * (v / 2 ^ 2 % 2) + 8 * (v / 2 ^ 3 % 2) = v := by
  omega

theorem bitNat_getElem (v : Word) {i : Nat} (hi : i < 32) : bitNat v[i] = v.toNat / 2 ^ i % 2 := by
  rw [← BitVec.getLsbD_eq_getElem, BitVec.getLsbD, Nat.testBit_eq_decide_div_mod_eq, bitNat]
  by_cases h : v.toNat / 2 ^ i % 2 = 1
  · simp [h]
  · simp [h]
    omega

/-- A register that was written reads as the value written (R252). -/
theorem registerNat_csrWrite_self {s : State} {c : Csr} {v : Word}
    (h : legalWrite s.params.slotW (csrNumber c).toNat v.toNat) :
    registerNat (csrWrite s c v) (csrNumber c).toNat = v.toNat := by
  cases c with
  | convcfg =>
    obtain ⟨h17, h5, h13, -⟩ := h.resolve_right (by simp [csrNumber]) |>.2
    refine Eq.trans ?_ (convcfg_fields h17 h5 h13)
    simp [csrNumber, registerNat, csrWrite, convcfgOfWord, bitNat_getElem, BitVec.extractLsb'_toNat,
      Nat.shiftRight_eq_div_pow]
  | pathcfg =>
    have hv : v.toNat < 2 ^ 4 := by simpa [legalWrite, csrNumber] using h
    refine Eq.trans ?_ (pathcfg_fields hv)
    simp [csrNumber, registerNat, csrWrite, pathcfgOfWord, bitNat_getElem]
  | thresh | coef0 | coef1 | coef2 | coef3 | idle =>
    have hv : v.toNat < 2 ^ 16 := by simpa [legalWrite, csrNumber] using h
    exact (BitVec.toNat_setWidth ..).trans (Nat.mod_eq_of_lt hv)
  | calmax =>
    obtain ⟨-, hv⟩ : 1 ≤ v.toNat ∧ v.toNat < 2 ^ 8 := by simpa [legalWrite, csrNumber] using h
    exact (BitVec.toNat_setWidth ..).trans (Nat.mod_eq_of_lt hv)
  | dlv k => fin_cases k <;> simp [legalWrite, csrNumber] at h
  | _ => simp [legalWrite, csrNumber] at h

/-- The numbers of the configuration registers (R45). -/
def cfgNumbers : List Nat := [0x04, 0x05, 0x06, 0x08, 0x09, 0x0A, 0x0B, 0x0C, 0x0D]

/-- The registers that are neither STATUS nor configuration read nothing of the configuration. -/
theorem registerNat_of_keeps {s t : State} (h : keeps [.cfg, .caldone] s t) {n : Nat} (hn : n ∉ cfgNumbers)
    (hstatus : n ≠ 0x10) : registerNat t n = registerNat s n := by
  have hpool : t.pool = s.pool := keeps_part h .pool (by simp)
  have hring : t.ring = s.ring := keeps_part h .ring (by simp)
  have hfilter : t.filter = s.filter := keeps_part h .filter (by simp)
  have hevt : t.evt = s.evt := keeps_part h .evt (by simp)
  have hfault : t.fault = s.fault := keeps_part h .fault (by simp)
  have hseq : t.seq = s.seq := keeps_part h .seq (by simp)
  obtain ⟨hparams, -⟩ := h
  unfold registerNat
  rw [hparams, hpool, hring, hfilter, hevt, hfault, hseq]
  split
  case h_4 | h_5 | h_6 | h_7 | h_8 | h_9 | h_10 | h_11 | h_12 => simp [cfgNumbers] at hn
  case h_13 => exact absurd rfl hstatus
  all_goals rfl

/-- A write of one configuration register leaves the other eight. -/
theorem registerNat_cfg_csrWrite {s : State} {c : Csr} {v : Word} {n : Nat} (hn : n ≠ (csrNumber c).toNat)
    (hcfg : n ∈ cfgNumbers) : registerNat (csrWrite s c v) n = registerNat s n := by
  simp only [cfgNumbers, List.mem_cons, List.not_mem_nil, or_false] at hcfg
  rcases hcfg with rfl | rfl | rfl | rfl | rfl | rfl | rfl | rfl | rfl
  · cases c with
    | convcfg => exact absurd rfl hn
    | _ => rfl
  · cases c with
    | pathcfg => exact absurd rfl hn
    | _ => rfl
  · cases c with
    | thresh => exact absurd rfl hn
    | _ => rfl
  · cases c with
    | coef0 => exact absurd rfl hn
    | _ => rfl
  · cases c with
    | coef1 => exact absurd rfl hn
    | _ => rfl
  · cases c with
    | coef2 => exact absurd rfl hn
    | _ => rfl
  · cases c with
    | coef3 => exact absurd rfl hn
    | _ => rfl
  · cases c with
    | idle => exact absurd rfl hn
    | _ => rfl
  · cases c with
    | calmax => exact absurd rfl hn
    | _ => rfl

/-- A legal written value names an implemented register, which takes it. -/
theorem exists_csr_of_legalWrite {sw : SlotWidth} {r : BitVec 8} {v : Word} (h : legalWrite sw r.toNat v.toNat) :
    ∃ c, csrOfNumber r = some c ∧ csrWritable c = true ∧ csrLegal sw c v = true := by
  obtain ⟨c, hc⟩ := Option.ne_none_iff_exists'.1 (mt not_legalWrite_of_unimplemented (not_not_intro h))
  exact ⟨c, hc, (csrLegal_iff hc).1 h⟩

theorem keeps_csrWrite (s : State) (c : Csr) (v : Word) : keeps [.cfg, .caldone] s (csrWrite s c v) := by
  simp [keeps_iff]

theorem beq_idle_eq (c : Csr) : (c == .idle) = (csrNumber c == 0x0C) := by
  cases c with
  | dlv k => fin_cases k <;> rfl
  | _ => rfl

/-- Settles O18: the register written reads as the value, the other configuration registers stand beside it, and the
registers outside the configuration are in parts that the write keeps. -/
theorem cfgwWritesOneRegister : Obligations.CfgwWritesOneRegister := by
  intro ag r v s hm hl
  obtain ⟨hcarries, hissuer, hphase⟩ := hm
  obtain ⟨c, hc, hw, hv⟩ := exists_csr_of_legalWrite hl
  have he : exec (.cfgw ag r v) s = .next ((csrWrite s c v).answered ag .ok 0) :=
    (checked_pass _ hcarries hissuer hphase).trans (by simp only [hc, hw, hv]; rfl)
  obtain rfl := csrNumber_of_csrOfNumber hc
  refine ⟨_, he, by simp [responds, State.answered], keeps_answered (keeps_csrWrite s c v) _ _ _,
    registerNat_csrWrite_self hl, fun n hn hstatus => ?_, ?_⟩
  · by_cases hcfg : n ∈ cfgNumbers
    · exact registerNat_cfg_csrWrite hn hcfg
    · exact registerNat_of_keeps (keeps_csrWrite s c v) hcfg hstatus
  · rw [← beq_idle_eq]
    exact csrWrite_caldone s c v

end Sys2Proof.Proofs
end

section
/-! FIDLE and reset: O32 and O52 (spec/42_dsp.md R232, R233; spec/60_exceptions.md R320, R50). -/

namespace Sys2Proof.Proofs

open Sys2Proof.Machine Sys2Proof.Safety Sys2Proof.Laws

/-- The slots of a frame read in order are the list that `frameIs` names. -/
theorem frameSlots_eq_some_of_frameIs {s : State} {t : Token} {xs : List Slot} (h : frameIs s t xs) :
    frameSlots s t = some xs :=
  Memory.readAll_eq_some.2 h

theorem legalPhases_fidle (ag : Agent) (t : Token) : legalPhases (.fidle ag t) = fidlePhases ag := by cases ag <;> rfl

/-- Settles O32: past the checks, the operation stores the average of the frame that is there. -/
theorem fidleStoresTheFrameAverage : Obligations.FidleStoresTheFrameAverage := by
  intro ag t xs s hm ht hheld hxs
  obtain ⟨hcarries, hissuer, hphase⟩ := hm
  rw [legalPhases_fidle] at hphase
  have he : exec (.fidle ag t) s =
      .next ((s.withIdle (BitVec.ofInt 16 (idleAvg s.cfg.convcfg xs s.params.frameLen))).answered ag .ok
        (valOfInt (idleAvg s.cfg.convcfg xs s.params.frameLen))) :=
    (checked_pass _ hcarries hissuer hphase).trans <|
      (owned_pass _ ht hheld).trans (by rw [frameSlots_eq_some_of_frameIs hxs]; rfl)
  have hkeeps : keeps [.cfg, .caldone] s (s.withIdle (BitVec.ofInt 16 (idleAvg s.cfg.convcfg xs s.params.frameLen))) := by
    simp [keeps_iff, State.withIdle]
  exact ⟨_, he, keeps_answered hkeeps _ _ _, rfl, rfl, rfl⟩

/-- A turn that asserts reset leaves the reset state of the parameters, with the observation and the turns to come. -/
theorem step_reset {s : State} (h : (nextTurn s).1.move = .reset) :
    ∃ now ts k, step s = .next { State.resetFor s.params with log := s.log, now := now, agenda := ts, tick := k } := by
  obtain ⟨ts, k, hn⟩ := nextTurn_state s
  exact ⟨_, ts, k, by rw [step, takeTurn, h, hn]; rfl⟩

/-- CONVCFG's reset value is the sum of its fields (R31). -/
theorem registerNat_convcfg_reset {s : State} (h : s.cfg = Cfg.reset) : registerNat s 0x04 = 0x00010010 := by
  simp [registerNat, h, Cfg.reset, bitNat]

theorem zero_dl_get (k : Fin 7) : Filter.zero.dl.get k = 0 := by fin_cases k <;> rfl

/-- Settles O52: each part of the reset state, as R50 has it. -/
theorem resetGivesTheResetValues : Obligations.ResetGivesTheResetValues := by
  intro s h
  obtain ⟨now, ts, k, he⟩ := step_reset h
  exact ⟨_, he, rfl, rfl, rfl, rfl, fun a => rfl, fun k => rfl, rfl, rfl, rfl, rfl, rfl, rfl, fun i => rfl, zero_dl_get,
    rfl, registerNat_convcfg_reset rfl, rfl, rfl, rfl, rfl, rfl, rfl, rfl, rfl, rfl, rfl, rfl, rfl, rfl, rfl, rfl⟩

end Sys2Proof.Proofs
end

section
/-! SUPPORT. Blocks of a list (spec/20_memory.md R62 to R66): the bytes of payload words, the pairs that stream bytes decode
to, and the samples of the Output Frame. -/

namespace Sys2Proof.Proofs

open Sys2Proof.Machine Sys2Proof.Safety Sys2Proof.Laws

/-- In a list of blocks of one length, element `r` of block `i`. -/
theorem getElem?_flatMap_block {α β : Type} {f : α → List β} {k r : Nat} (hf : ∀ x, (f x).length = k) (hr : r < k)
    (xs : List α) (i : Nat) : (xs.flatMap f)[k * i + r]? = xs[i]?.bind fun x => (f x)[r]? := by
  induction xs generalizing i with
  | nil => simp
  | cons x xs ih =>
    rw [List.flatMap_cons, List.getElem?_append, hf]
    cases i with
    | zero => simp [hr]
    | succ i =>
      rw [Nat.mul_succ, if_neg (by omega), List.getElem?_cons_succ, ← ih i]
      congr 1
      omega

/-- Two fields side by side as a number. -/
theorem toNat_append_eq_add {m n : Nat} (hi : BitVec m) (lo : BitVec n) :
    (hi ++ lo).toNat = lo.toNat + 2 ^ n * hi.toNat := by
  rw [BitVec.toNat_append, ← Nat.shiftLeft_add_eq_or_of_lt lo.isLt, Nat.shiftLeft_eq, Nat.mul_comm, Nat.add_comm]

/-! ### The chunk of an RPUSH (R64) -/

theorem wordBytes_getElem? (w : Word) {r : Nat} (hr : r < 4) : (wordBytes w)[r]? = some (w.extractLsb' (8 * r) 8) := by
  interval_cases r <;> rfl

/-- Byte `j` of the chunk is byte `j mod 4`, low byte first, of payload word `j / 4`. -/
theorem chunkOf_getElem? {len : BitVec 16} {j : Nat} (hj : j < len.toNat) (payload : List Word) :
    (chunkOf len payload)[j]? = payload[j / 4]?.map fun w => w.extractLsb' (8 * (j % 4)) 8 := by
  have hr : j % 4 < 4 := Nat.mod_lt _ (by decide)
  have hblock := getElem?_flatMap_block (f := wordBytes) (fun _ => rfl) hr payload (j / 4)
  rw [Nat.div_add_mod] at hblock
  simp only [chunkOf, List.getElem?_take_of_lt hj, hblock, wordBytes_getElem? _ hr, Option.map_eq_bind]
  rfl

/-! ### Stereo pairs (R62, R63) -/

/-- Stream bytes that are whole pairs decode to a fourth as many pairs. -/
theorem pairsOfBytes_length_of_four : ∀ {bs : List Byte}, bs.length % 4 = 0 → 4 * (pairsOfBytes bs).length = bs.length
  | _ :: _ :: _ :: _ :: bs, h => by
    simp only [List.length_cons] at h
    have := pairsOfBytes_length_of_four (bs := bs) (by omega)
    simp only [pairsOfBytes, List.length_cons]
    omega
  | [], _ => rfl
  | [_], h | [_, _], h | [_, _, _], h => by simp at h

/-- Pair `j` is decoded from the four bytes from `4 * j` on. -/
theorem pairsOfBytes_getElem? {b0 b1 b2 b3 : Byte} : ∀ {bs : List Byte} {j : Nat}, bs[4 * j]? = some b0 →
    bs[4 * j + 1]? = some b1 → bs[4 * j + 2]? = some b2 → bs[4 * j + 3]? = some b3 →
    (pairsOfBytes bs)[j]? = some ⟨sampleOfBytes b0 b1, sampleOfBytes b2 b3⟩
  | _ :: _ :: _ :: _ :: _, 0, h0, h1, h2, h3 => by
    cases h0
    cases h1
    cases h2
    cases h3
    rfl
  | _ :: _ :: _ :: _ :: bs, j + 1, h0, h1, h2, h3 => pairsOfBytes_getElem? (bs := bs) (j := j) h0 h1 h2 h3
  | [], _, _, _, _, h3 => by simp at h3
  | [_], _, _, _, _, h3 | [_, _], _, _, _, _, h3 | [_, _, _], _, _, _, _, h3 => by simp at h3

/-- A sample from two bytes, the low one first (R62). -/
theorem sampleOfBytes_toNat (b0 b1 : Byte) : (sampleOfBytes b0 b1).toNat = b0.toNat + 256 * b1.toNat :=
  toNat_append_eq_add b1 b0

/-! ### The samples of the Output Frame (R66) -/

theorem outSamples_length (s : State) : (outSamples s).length = 2 * s.params.frameLen := by
  simp [outSamples, List.length_flatMap, Nat.mul_comm]

/-- Samples `2 * i` and `2 * i + 1` are the left and the right one of pair `i`. -/
theorem outSamples_getElem? {s : State} {i : Nat} (hi : i < s.params.frameLen) :
    (outSamples s)[2 * i]? = some (pairAt s.out i).left ∧ (outSamples s)[2 * i + 1]? = some (pairAt s.out i).right := by
  have hrange : (List.range s.params.frameLen)[i]? = some i := List.getElem?_range hi
  have hblock := fun r (hr : r < 2) => getElem?_flatMap_block
    (f := fun i => [(pairAt s.out i).left, (pairAt s.out i).right]) (fun _ => rfl) hr (List.range s.params.frameLen) i
  simp only [hrange] at hblock
  exact ⟨hblock 0 (by decide), hblock 1 (by decide)⟩

end Sys2Proof.Proofs
end

section
/-! What a command stores and what it answers: O15, O22, O25, O38, O42, O43 and O44 (spec/40_pool.md R123, R126;
spec/42_ring.md R170; spec/43_mixer.md R191, R200, R202; spec/60_exceptions.md R281). -/

namespace Sys2Proof.Proofs

open Sys2Proof.Machine Sys2Proof.Safety Sys2Proof.Laws

/-- Settles O15. A command raises a fault, or has its effect, and either writes only its parts. -/
theorem commandWritesOnlyItsParts : Obligations.CommandWritesOnlyItsParts := fun _ _ _ => exec_keeps

/-! ### Frames -/

/-- Settles O22: the head of BUSYQ moves to agent M, and its entry of OWN with it. -/
theorem takbTakesTheOldestBusyFrame : Obligations.TakbTakesTheOldestBusyFrame := by
  intro ag wm s k q hm hsorted hhold hq
  obtain ⟨hcarries, hissuer, hphase⟩ := hm
  have he : exec (.takb ag wm) s = .next ({ s with pool := s.pool.take k q }.answered ag .ok (k.setWidth 32)) :=
    (checked_pass _ hcarries hissuer hphase).trans (by simp [hhold, takbReady, hq, respond])
  exact ⟨_, he, rfl, keeps_answered (by simp [keeps_iff]) _ _ _, rfl, rfl, rfl, rfl,
    fun u => read_putOwner hsorted k u .mix⟩

/-- Settles O25: past the checks, the slot is there to be answered. -/
theorem fldReadsOneSlot : Obligations.FldReadsOneSlot := by
  intro ag k i v s hm hk hi hheld hslot
  obtain ⟨hcarries, hissuer, hphase⟩ := hm
  have he : exec (.fld ag k i) s = .next (s.answered ag .ok v) :=
    (checked_pass _ hcarries hissuer hphase).trans <|
      (if_neg (not_not_intro hi)).trans <| (owned_pass _ hk hheld).trans (by rw [hslot]; rfl)
  exact ⟨_, he, rfl, keeps_answered (keeps_refl _ s) _ _ _⟩

/-! ### The Output Frame -/

theorem legalPhases_old (ag : Agent) (i : BitVec 12) : legalPhases (.old ag i) = oldPhases ag := by cases ag <;> rfl

/-- Settles O43: the right sample stands above the left one in the answer. -/
theorem oldReadsOnePair : Obligations.OldReadsOnePair := by
  intro ag i s hm hi
  obtain ⟨hcarries, hissuer, hphase⟩ := hm
  rw [legalPhases_old] at hphase
  have he : exec (.old ag i) s =
      .next (s.answered ag .ok ((pairAt s.out i.toNat).right ++ (pairAt s.out i.toNat).left)) :=
    (checked_pass _ hcarries hissuer hphase).trans (if_neg (not_not_intro hi))
  exact ⟨_, _, he, rfl, keeps_answered (keeps_refl _ s) _ _ _, toNat_append_eq_add _ _⟩

/-- Settles O42: an accepting sink takes the samples of the Output Frame, and an erring one none. -/
theorem sinkwSendsTheOutputFrame : Obligations.SinkwSendsTheOutputFrame := by
  intro ag wm s hm
  obtain ⟨hcarries, hissuer, hphase⟩ := hm
  have hready : exec (.sinkw ag wm) s = sinkwReady ag wm s := checked_pass _ hcarries hissuer hphase
  constructor
  · intro hsink
    have he := hready.trans (sinkwReady_eq_next.2 (Or.inr (Or.inr ⟨hsink, rfl⟩)))
    exact ⟨_, outSamples s, he, rfl, keeps_answered (by simp [keeps_iff]) _ _ _, rfl, outSamples_length s,
      fun i hi => outSamples_getElem? hi⟩
  · intro hsink
    have he := hready.trans (sinkwReady_eq_next.2 (Or.inr (Or.inl ⟨hsink, rfl⟩)))
    exact ⟨_, he, rfl, keeps_answered (keeps_refl _ s) _ _ _⟩

/-! ### The ring -/

/-- The oldest bytes of the ring are the first of its valid content. -/
theorem ringBytes_getElem?_of_ringQ {s : State} {n j : Nat} {b : Byte} (hj : j < n) (hn : n ≤ s.ring.rfill)
    (h : (ringQ s)[j]? = some b) : (ringBytes s.ring.rb s.params.ringCap s.ring.rrd n)[j]? = some b := by
  rw [ringBytes_getElem? _ _ _ _ _ hj, ← h]
  exact (ringBytes_getElem? _ _ _ _ _ (by omega)).symm

/-- RPOP takes the oldest bytes off the valid content (R191). -/
theorem ringQ_popped_eq_drop (s : State) : ringQ s.popped = (ringQ s).drop (popCount s) := by
  have hsplit := ringBytes_add s.ring.rb s.params.ringCap s.ring.rrd (popCount s) (s.ring.rfill - popCount s)
  rw [Nat.add_sub_cancel' (popCount_le s)] at hsplit
  rw [ringQ_popped, ringQ, hsplit, List.drop_left' (ringBytes_length _ _ _ _)]

/-- The Output Frame after RPOP: decoded pairs first, the old ones behind them (R63, R191). -/
theorem pairAt_popped {s : State} (hs : Memory.sorted s.out) (hfour : s.ring.rfill % 4 = 0) (j : Nat) :
    pairAt s.popped.out j =
      if j < popCount s / 4 then
        (pairsOfBytes (ringBytes s.ring.rb s.params.ringCap s.ring.rrd (popCount s)))[j]?.getD ⟨0, 0⟩
      else pairAt s.out j := by
  have hcount : popCount s % 4 = 0 := by
    simp only [popCount, outputFrameBytes]
    omega
  have hlen : (pairsOfBytes (ringBytes s.ring.rb s.params.ringCap s.ring.rrd (popCount s))).length = popCount s / 4 := by
    have h := pairsOfBytes_length_of_four (bs := ringBytes s.ring.rb s.params.ringCap s.ring.rrd (popCount s))
      (by rwa [ringBytes_length])
    rw [ringBytes_length] at h
    omega
  rw [State.popped_out, pairAt_putPairs hs, hlen]
  simp

/-- Settles O38: the oldest bytes, decoded, become the first pairs of the Output Frame. -/
theorem rpopDecodesTheOldestBytes : Obligations.RpopDecodesTheOldestBytes := by
  intro ag wm s hm hsorted hplay hfill hfour
  obtain ⟨hcarries, hissuer, hphase⟩ := hm
  have he : exec (.rpop ag wm) s = .next (s.popped.answered ag .ok (BitVec.ofNat 32 (popCount s))) :=
    (checked_pass _ hcarries hissuer hphase).trans
      (rpopReady_eq_next.2 (Or.inr (Or.inr ⟨hplay, Nat.ne_of_gt hfill, rfl⟩)))
  refine ⟨_, he, rfl, keeps_answered (by simp [keeps_iff]) _ _ _, ringQ_popped_eq_drop s, rfl, rfl, rfl,
    fun j b0 b1 b2 b3 hj h0 h1 h2 h3 => ?_, fun j hj => ?_⟩
  · replace hj : j < popCount s / 4 := hj
    have hbyte : ∀ {i b}, i < 4 * j + 4 → (ringQ s)[i]? = some b →
        (ringBytes s.ring.rb s.params.ringCap s.ring.rrd (popCount s))[i]? = some b :=
      fun hi => ringBytes_getElem?_of_ringQ (by omega) (popCount_le s)
    have hpair : pairAt s.popped.out j = ⟨sampleOfBytes b0 b1, sampleOfBytes b2 b3⟩ := by
      rw [pairAt_popped hsorted hfour, if_pos hj, pairsOfBytes_getElem? (hbyte (by omega) h0) (hbyte (by omega) h1)
        (hbyte (by omega) h2) (hbyte (by omega) h3), Option.getD_some]
    rw [State.answered_out, hpair]
    exact ⟨sampleOfBytes_toNat b0 b1, sampleOfBytes_toNat b2 b3⟩
  · exact (pairAt_popped hsorted hfour j).trans (if_neg (Nat.not_lt.2 hj))

/-- Settles O44: the chunk has the length named and fits, and is stored behind the valid content. -/
theorem rpushAppendsTheChunk : Obligations.RpushAppendsTheChunk := by
  intro ag len payload s hm hpayload hpos hfour hsorted hfill hroom
  obtain ⟨hcarries, hissuer, hphase⟩ := hm
  have hlen := chunkOf_length hpayload
  have he : exec (.rpush ag len payload) s = .next ((s.pushed (chunkOf len payload)).answered ag .ok (len.setWidth 32)) :=
    (if_neg (not_not_intro hpayload)).trans <| (checked_pass _ hcarries hissuer hphase).trans <|
      (if_neg (by omega)).trans (if_neg (Nat.not_lt.2 hroom))
  refine ⟨_, chunkOf len payload, he, rfl, keeps_answered (by simp [keeps_iff]) _ _ _, hlen,
    fun j hj => chunkOf_getElem? hj payload, ringQ_pushed hsorted (by omega), by simp [hlen], rfl, fun a ha => ?_⟩
  exact read_ringStore_other _ _ _ _ a (hlen ▸ ha)

end Sys2Proof.Proofs
end

section
/-! The configuration outside SETUP: O58 (spec/10_state.md R79; spec/45_host.md R252, R330). -/

namespace Sys2Proof.Proofs

open Sys2Proof.Machine Sys2Proof.Safety Sys2Proof.Laws

/-- The parameters and the configuration are as before, but for IDLE and CALDONE in BOOT. -/
def CfgFrozen (s t : State) : Prop :=
  t.params = s.params ∧ { t.cfg with idle := s.cfg.idle } = s.cfg ∧
    (s.phase ≠ .boot → t.cfg = s.cfg ∧ t.caldone = s.caldone)

theorem CfgFrozen.of_eq {s t : State} (hparams : t.params = s.params) (hcfg : t.cfg = s.cfg)
    (hdone : t.caldone = s.caldone) : CfgFrozen s t := ⟨hparams, by rw [hcfg], fun _ => ⟨hcfg, hdone⟩⟩

theorem CfgFrozen.of_keeps {ps : List Part} {s t : State} (h : keeps ps s t) (hcfg : .cfg ∉ ps) (hdone : .caldone ∉ ps) :
    CfgFrozen s t := .of_eq h.1 (keeps_part h .cfg hcfg) (keeps_part h .caldone hdone)

theorem CfgFrozen.of_tabled {s v t : State} (h : CfgFrozen s v) (ht : Tabled v t) : CfgFrozen s t := by
  obtain ⟨-, q, p, e, f, rfl⟩ := ht
  exact h

/-- Outside SETUP a command writes no configuration: CFGW is refused (R252), and FIDLE may write IDLE in BOOT (R294). -/
theorem cfgFrozen_of_exec {i : Instr} {s t : State} (h : exec i s = .next t) (hp : s.phase ≠ .setup) : CfgFrozen s t := by
  rcases exec_decides h with ⟨c, -, rfl⟩ | ⟨hf, he⟩
  · exact .of_eq rfl rfl rfl
  · obtain ⟨-, hissuer, hphase⟩ := mayIssue_of_firstFault hf
    cases i with
    | cfgw ag r v => exact absurd (List.mem_singleton.1 hphase) hp
    | fidle ag k =>
      obtain ⟨slots, -, rfl⟩ := he
      have hboot : s.phase = .boot := by
        cases ag with
        | C => simpa [legalPhases, hp] using hphase
        | H | M | R | S => exact absurd (List.mem_singleton.1 hphase) hp
      exact ⟨rfl, rfl, fun hno => absurd hboot hno⟩
    | _ => exact .of_keeps (effect_keeps he) (by simp [mayWrite]) (by simp [mayWrite])

/-- Whatever a move but reset carries out, outside SETUP it writes no configuration. -/
theorem cfgFrozen_of_moved {m : Move} {s t : State} (h : Moved s m t) (hm : m ≠ .reset) (hp : s.phase ≠ .setup) :
    CfgFrozen s t := by
  cases h with
  | quiet ht => exact (CfgFrozen.of_tabled (.of_eq rfl rfl rfl) ht :)
  | presented p w => exact .of_eq rfl rfl rfl
  | illegal p ws ag => exact .of_eq rfl rfl rfl
  | served hfirst he => exact (cfgFrozen_of_exec he hp :)
  | issued ho he ht => exact ((cfgFrozen_of_exec he hp).of_tabled ht :)
  | resumed he ht =>
    have hkeep := completeOp_keeps_waiting he
    refine .of_tabled (.of_eq ?_ ?_ ?_) ht
    · exact hkeep.1.trans (issuing_params _ _ s)
    · exact (keeps_part hkeep .cfg (by simp)).trans (issuing_cfg _ _ s)
    · exact (keeps_part hkeep .caldone (by simp)).trans (issuing_caldone _ _ s)
  | reset => exact absurd rfl hm

/-- Settles O58: a step is one move, in a state of the same phase and configuration. -/
theorem configurationIsFrozenAfterStart : Obligations.ConfigurationIsFrozenAfterStart := by
  intro s t h hm hp
  obtain ⟨ts, k, hmoved⟩ := moved_of_step h
  exact (cfgFrozen_of_moved hmoved hm hp :)

end Sys2Proof.Proofs
end

section
/-! SUPPORT. The rows of the opcode table as formats of a command word (spec/30_encoding.md R91, R97, R98): which words
a format reads, and what a command that decodes says of its words. -/

namespace Sys2Proof.Proofs

open Sys2Proof.Machine Sys2Proof.Safety Sys2Proof.Laws

/-! ### Formats -/

/-- What a row of R97 says of a command word: its opcode, whether it uses WM, whether it has a token, and how many low
bits of IMM it uses (R91, R98). -/
structure Format where
  opc : BitVec 6
  waits : Bool
  hasToken : Bool
  immBits : Nat

/-- The formats of the 23 rows, in the order of `opcodeRows`. -/
def formats : List Format :=
  [⟨0x00, false, false, 0⟩, ⟨0x01, false, false, 8⟩, ⟨0x02, false, false, 8⟩, ⟨0x03, false, false, 0⟩,
    ⟨0x08, true, false, 0⟩, ⟨0x09, true, true, 0⟩, ⟨0x0A, true, false, 0⟩, ⟨0x0B, false, true, 0⟩,
    ⟨0x0C, false, true, 12⟩, ⟨0x0D, false, true, 12⟩, ⟨0x0E, true, true, 0⟩, ⟨0x10, false, false, 0⟩,
    ⟨0x11, false, false, 16⟩, ⟨0x12, false, false, 16⟩, ⟨0x13, false, false, 16⟩, ⟨0x14, false, true, 0⟩,
    ⟨0x18, false, false, 0⟩, ⟨0x19, true, false, 0⟩, ⟨0x1A, false, true, 0⟩, ⟨0x1B, true, false, 0⟩,
    ⟨0x1C, false, false, 12⟩, ⟨0x20, false, false, 16⟩, ⟨0x21, false, false, 2⟩]

/-- The word has the format's opcode, and passes the checks of R98 with the fields `f`. -/
def Format.reads (fm : Format) (w : Word) (f : Fields) : Prop :=
  opcOf w = fm.opc ∧ checkFields w fm.waits fm.hasToken fm.immBits = .ok f

/-- Every word that a row's format reads decodes to a command, whatever words stand behind it. -/
theorem Format.reads.decode_isOk {fm : Format} {w : Word} {f : Fields} (h : fm.reads w f) (hfm : fm ∈ formats)
    (extra : List Word) : ∃ i, decode w extra = .ok i := by
  obtain ⟨ho, hf⟩ := h
  rw [decode, ho]
  fin_cases hfm
  all_goals exact ⟨_, congrArg (Except.map _) hf⟩

/-- A word that a format reads is packed from the fields read. -/
theorem Format.reads.packHead_eq {fm : Format} {w : Word} {f : Fields} (h : fm.reads w f) :
    packHead fm.opc f.ag f.wm f.tok f.imm = w := by
  obtain ⟨ho, hf⟩ := h
  obtain ⟨hag, hwm, hrsv, -, -, -, htok, himm⟩ := checkFields_eq_ok.1 hf
  rw [← ho, htok, himm]
  exact packHead_fields hag.symm hwm.symm hrsv

/-! ### A word that decodes -/

/-- A field cut from an IMM that has no bits beyond it is that IMM. -/
theorem setWidth_setWidth_of_lt {n : Nat} {x : BitVec 16} (h : x.toNat < 2 ^ n) : (x.setWidth n).setWidth 16 = x := by
  refine BitVec.eq_of_toNat_eq ?_
  rw [BitVec.toNat_setWidth, BitVec.toNat_setWidth, Nat.mod_eq_of_lt h, Nat.mod_eq_of_lt x.isLt]

theorem headD_eq_of_length_one {ws : List Word} (h : ws.length = 1) : [ws.headD 0] = ws := by
  obtain ⟨w, rfl⟩ := List.length_eq_one_iff.1 h
  rfl

/-- `i` is a command whose words are `w` and `extra`, provided these are as many as `w` calls for. -/
def spelled (w : Word) (extra : List Word) (i : Instr) : Prop :=
  extra.length = commandLength w - 1 → i.wellFormed = true ∧ encode i = w :: extra

/-- One row of the decoder: its format reads the word, and the words spell its command, if they do for all fields that
the format admits. -/
theorem reads_of_row {w : Word} {extra : List Word} {i : Instr} {k n : Nat} {waits hasToken : Bool}
    {mk : Fields → Instr} (ho : (opcOf w).toNat = k) (h : (checkFields w waits hasToken n).map mk = .ok i)
    (hfm : ⟨BitVec.ofNat 6 k, waits, hasToken, n⟩ ∈ formats)
    (hmk : ∀ ag wm tok imm, (waits = true ∨ wm = .poll) → (hasToken = true ∨ tok = 0) →
      (imm.setWidth n).setWidth 16 = imm → imm = immOf w → packHead (BitVec.ofNat 6 k) ag wm tok imm = w →
      spelled w extra (mk ⟨ag, wm, tok, imm⟩)) :
    (∃ fm ∈ formats, ∃ f, fm.reads w f) ∧ spelled w extra i := by
  cases hf : checkFields w waits hasToken n with
  | error e =>
    rw [hf] at h
    cases h
  | ok f =>
    rw [hf] at h
    cases h
    obtain ⟨-, -, -, hwm, htok, hn, ht, himm⟩ := checkFields_eq_ok.1 hf
    have hread : Format.reads ⟨BitVec.ofNat 6 k, waits, hasToken, n⟩ w f :=
      ⟨by rw [← ho, BitVec.ofNat_toNat, BitVec.setWidth_eq], hf⟩
    exact ⟨⟨_, hfm, f, hread⟩,
      hmk _ _ _ _ hwm (ht ▸ htok) (setWidth_setWidth_of_lt (himm ▸ hn)) himm hread.packHead_eq⟩

/-- A word that decodes is read by the format of a row, and spells the command with the words behind it: RPUSH with its
payload, CFGW, FST and CONV with one operand word, the other rows alone. -/
theorem reads_of_decode {w : Word} {extra : List Word} {i : Instr} (h : decode w extra = .ok i) :
    (∃ fm ∈ formats, ∃ f, fm.reads w f) ∧ spelled w extra i := by
  unfold decode at h
  split at h
  case h_24 => cases h
  case h_22 ho =>
    refine reads_of_row ho h (by simp [formats]) fun ag wm tok imm hwm htok _ himm hw hlen => ?_
    have hpayload : extra.length = payloadWords imm := by simpa [commandLength, ho, himm] using hlen
    simp only [Bool.false_eq_true, false_or] at hwm htok
    exact ⟨beq_iff_eq.2 hpayload, by rw [encode, ← hw, hwm, htok]; rfl⟩
  case h_3 ho | h_9 ho | h_12 ho =>
    refine reads_of_row ho h (by simp [formats]) fun ag wm tok imm hwm htok hcut _ hw hlen => ⟨rfl, ?_⟩
    clear h
    rw [commandLength, ho] at hlen
    rw [← headD_eq_of_length_one hlen, ← hw, ← hcut]
    simp_all [encode, BitVec.of_length_zero]
  all_goals
    rename_i ho
    refine reads_of_row ho h (by simp [formats]) fun ag wm tok imm hwm htok hcut _ hw hlen => ⟨rfl, ?_⟩
    clear h
    rw [commandLength, ho] at hlen
    rw [List.eq_nil_of_length_eq_zero hlen, ← hw, ← hcut]
    simp_all [encode, BitVec.of_length_zero]

/-- The command that is taken from a list of words is decoded from the first one and as many more as it calls for. -/
theorem fetch_eq_command {ws rest : List Word} {i : Instr} (h : fetch ws = .command i rest) :
    ∃ w extra, ws = w :: extra ++ rest ∧ extra.length = commandLength w - 1 ∧ decode w extra = .ok i := by
  unfold fetch at h
  split at h
  · cases h
  · next w ws =>
    split at h
    · cases h
    · next hlen =>
      split at h
      · next j hd =>
        cases h
        exact ⟨w, _, by simp, by simpa using Nat.not_lt.1 hlen, hd⟩
      · cases h

/-! ### Masks -/

/-- The bits of a word that a format fixes: OPC, RSV, and what it does not use of WM, TOK and IMM. -/
def Format.mask (fm : Format) : Word :=
  BitVec.allOnes 6 ++ ((0 : BitVec 3) ++ ((if fm.waits then 0 else BitVec.allOnes 2) ++
    (BitVec.allOnes 1 ++ ((if fm.hasToken then 0 else BitVec.allOnes 4) ++ BitVec.allOnes 16 <<< fm.immBits))))

/-- What a format fixes them at: the opcode, and 0 in every other field. -/
def Format.value (fm : Format) : Word :=
  fm.opc ++ ((0 : BitVec 3) ++ ((0 : BitVec 2) ++ ((0 : BitVec 1) ++ ((0 : BitVec 4) ++ (0 : BitVec 16)))))

theorem opcodeRows_eq_formats : opcodeRows = formats.map fun fm => (fm.value, fm.mask) := by decide

/-- A word is its six fields, side by side (R91). -/
theorem word_eq_fields (w : Word) : opcOf w ++ (agOf w ++ (wmOf w ++ (rsvOf w ++ (tokOf w ++ immOf w)))) = w := by
  have htok : tokOf w ++ immOf w = w.extractLsb' 0 20 := BitVec.extractLsb'_append_extractLsb'_eq_extractLsb' rfl
  have hrsv : rsvOf w ++ w.extractLsb' 0 20 = w.extractLsb' 0 21 :=
    BitVec.extractLsb'_append_extractLsb'_eq_extractLsb' rfl
  have hwm : wmOf w ++ w.extractLsb' 0 21 = w.extractLsb' 0 23 :=
    BitVec.extractLsb'_append_extractLsb'_eq_extractLsb' rfl
  have hag : agOf w ++ w.extractLsb' 0 23 = w.extractLsb' 0 26 :=
    BitVec.extractLsb'_append_extractLsb'_eq_extractLsb' rfl
  have hopc : opcOf w ++ w.extractLsb' 0 26 = w.extractLsb' 0 32 :=
    BitVec.extractLsb'_append_extractLsb'_eq_extractLsb' rfl
  rw [htok, hrsv, hwm, hag, hopc, BitVec.extractLsb'_eq_self]

/-- Two fields side by side have a value under a mask exactly when each field has its own. -/
theorem and_append_eq_append_iff {m n : Nat} {a c e : BitVec m} {b d f : BitVec n} :
    (a ++ b) &&& (c ++ d) = e ++ f ↔ a &&& c = e ∧ b &&& d = f := by
  rw [BitVec.and_append]
  refine ⟨fun h => ⟨?_, ?_⟩, fun ⟨ha, hb⟩ => by rw [ha, hb]⟩
  · simpa [BitVec.extractLsb'_append_eq_left] using congrArg (·.extractLsb' n m) h
  · simpa [BitVec.extractLsb'_append_eq_right] using congrArg (·.extractLsb' 0 n) h

theorem and_allOnes_shiftLeft_eq_zero_iff {m n : Nat} {x : BitVec m} :
    x &&& BitVec.allOnes m <<< n = 0 ↔ x.toNat < 2 ^ n := by
  rw [and_eq_zero_iff_getLsbD]
  constructor
  · intro h
    refine Nat.lt_pow_two_of_testBit _ fun i hi => ?_
    by_cases hm : i < m
    · exact h i hm (by simp [hm, Nat.not_lt.2 hi])
    · exact BitVec.getLsbD_of_ge x i (Nat.not_lt.1 hm)
  · intro h i hi hbit
    have hn : n ≤ i := by simpa [hi] using hbit
    exact Nat.testBit_lt_two_pow (h.trans_le (Nat.pow_le_pow_right (by decide) hn))

theorem and_unused_eq_zero_iff {n : Nat} {x : BitVec n} {used : Bool} :
    x &&& (if used then 0 else BitVec.allOnes n) = 0 ↔ used = true ∨ x = 0 := by
  cases used <;> simp

/-- What a row's mask and match say of the fields of a word. -/
theorem Format.and_mask_eq_value_iff {fm : Format} {w : Word} :
    w &&& fm.mask = fm.value ↔ opcOf w = fm.opc ∧ (fm.waits = true ∨ wmOf w = 0) ∧ rsvOf w = 0 ∧
      (fm.hasToken = true ∨ tokOf w = 0) ∧ (immOf w).toNat < 2 ^ fm.immBits := by
  have hfields : (opcOf w ++ (agOf w ++ (wmOf w ++ (rsvOf w ++ (tokOf w ++ immOf w))))) &&& fm.mask = fm.value ↔ _ :=
    and_append_eq_append_iff.trans <| and_congr_right' <| and_append_eq_append_iff.trans <| and_congr_right' <|
      and_append_eq_append_iff.trans <| and_congr_right' <| and_append_eq_append_iff.trans <| and_congr_right'
        and_append_eq_append_iff
  rw [word_eq_fields] at hfields
  rw [hfields, BitVec.and_allOnes, BitVec.and_allOnes, and_unused_eq_zero_iff, and_unused_eq_zero_iff,
    and_allOnes_shiftLeft_eq_zero_iff]
  simp

/-! ### Codes that are not reserved (R11, R14) -/

theorem exists_agentCode_iff {c : BitVec 3} : (∃ ag, c = agentCode ag) ↔ c.toNat < 5 := by
  constructor
  · rintro ⟨ag, rfl⟩
    cases ag <;> decide
  · have hcodes : ∀ c : BitVec 3, c.toNat < 5 → (agentOfCode c).isSome = true := by decide
    intro h
    obtain ⟨ag, hag⟩ := Option.isSome_iff_exists.1 (hcodes c h)
    exact ⟨ag, agentOfCode_eq_some.1 hag⟩

theorem exists_waitModeCode_iff {c : BitVec 2} : (∃ wm, c = waitModeCode wm) ↔ c ≠ 3 := by
  constructor
  · rintro ⟨wm, rfl⟩
    cases wm <;> decide
  · have hcodes : ∀ c : BitVec 2, c ≠ 3 → (waitModeOfCode c).isSome = true := by decide
    intro h
    obtain ⟨wm, hwm⟩ := Option.isSome_iff_exists.1 (hcodes c h)
    exact ⟨wm, waitModeOfCode_eq_some.1 hwm⟩

theorem waitModeCode_eq_zero_iff {wm : WaitMode} : waitModeCode wm = 0 ↔ wm = .poll := by cases wm <;> decide

/-- A format reads a word exactly when the word has the row's match under its mask and neither AG nor WM is
reserved. -/
theorem Format.exists_reads_iff {fm : Format} {w : Word} :
    (∃ f, fm.reads w f) ↔ w &&& fm.mask = fm.value ∧ (agOf w).toNat < 5 ∧ wmOf w ≠ 3 := by
  rw [and_mask_eq_value_iff, ← exists_agentCode_iff, ← exists_waitModeCode_iff]
  constructor
  · rintro ⟨f, ho, hf⟩
    obtain ⟨hag, hwm, hrsv, hpoll, htok, himm, -, -⟩ := checkFields_eq_ok.1 hf
    exact ⟨⟨ho, hwm ▸ hpoll.imp_right waitModeCode_eq_zero_iff.2, hrsv, htok, himm⟩, ⟨_, hag⟩, ⟨_, hwm⟩⟩
  · rintro ⟨⟨ho, hpoll, hrsv, htok, himm⟩, ⟨ag, hag⟩, ⟨wm, hwm⟩⟩
    exact ⟨⟨ag, wm, tokOf w, immOf w⟩, ho, checkFields_eq_ok.2
      ⟨hag, hwm, hrsv, hpoll.imp_right fun h => waitModeCode_eq_zero_iff.1 (hwm ▸ h), htok, himm, rfl, rfl⟩⟩

end Sys2Proof.Proofs
end

section
/-! The encoding: O1, O2, O3 and O4 (spec/30_encoding.md R90, R91, R97, R98, R101). -/

namespace Sys2Proof.Proofs

open Sys2Proof.Machine Sys2Proof.Safety Sys2Proof.Laws

/-- Settles O1: the first word has the row's opcode and passes its checks, and names as many words as there are. -/
theorem encodedCommandsDecodeToThemselves : Obligations.EncodedCommandsDecodeToThemselves :=
  fun _ rest hi => fetch_encode_append hi rest

/-- Settles O2: the words taken are those that spell the command decoded. -/
theorem decodedCommandsEncodeToTheirWords : Obligations.DecodedCommandsEncodeToTheirWords := by
  intro ws i rest h
  obtain ⟨w, extra, rfl, hlen, hdecode⟩ := fetch_eq_command h
  obtain ⟨-, hspelled⟩ := reads_of_decode hdecode
  obtain ⟨hwf, hwords⟩ := hspelled hlen
  exact ⟨hwf, by rw [hwords]⟩

/-- Settles O3: a word decodes exactly when the format of a row reads it. -/
theorem legalWordsAreTheRowsOfTheTable : Obligations.LegalWordsAreTheRowsOfTheTable := by
  intro w extra
  calc (∃ i, decode w extra = .ok i)
    _ ↔ ∃ fm ∈ formats, ∃ f, fm.reads w f := by
      constructor
      · rintro ⟨i, hi⟩
        obtain ⟨hread, -⟩ := reads_of_decode hi
        exact hread
      · rintro ⟨fm, hfm, f, hf⟩
        exact hf.decode_isOk hfm extra
    _ ↔ (∃ fm ∈ formats, w &&& fm.mask = fm.value) ∧ (agOf w).toNat < 5 ∧ wmOf w ≠ 3 := by
      simp only [Format.exists_reads_iff, ← and_assoc, exists_and_right]
    _ ↔ _ := by
      simp only [opcodeRows_eq_formats, List.mem_map, exists_exists_and_eq_and]
      rfl

/-- The words of a command are taken as the command. -/
theorem fetch_of_encode_eq {i : Instr} {ws : List Word} (hi : i.wellFormed = true) (h : encode i = ws) :
    fetch ws = .command i [] := by
  rw [← h, ← List.append_nil (encode i)]
  exact fetch_encode_append hi []

/-- Settles O4: the words of each line are the encoding of the command beside them. -/
theorem wordsOfTheExamplesDecode : Obligations.WordsOfTheExamplesDecode :=
  ⟨fetch_of_encode_eq rfl (by decide), fetch_of_encode_eq rfl (by decide), fetch_of_encode_eq rfl (by decide),
    fetch_of_encode_eq rfl (by decide), fetch_of_encode_eq rfl (by decide), fetch_of_encode_eq rfl (by decide),
    fetch_of_encode_eq rfl (by decide), fetch_of_encode_eq rfl (by decide), fetch_of_encode_eq rfl (by decide),
    fetch_of_encode_eq (by decide) (by decide), fetch_of_encode_eq rfl (by decide)⟩

end Sys2Proof.Proofs
end

section
/-! Commands that are illegal or fault, and FST: O5, O8, O11 and O24 (spec/30_encoding.md R94, R98, R99;
spec/40_pool.md R125; spec/60_exceptions.md R281, R286). -/

namespace Sys2Proof.Proofs

open Sys2Proof.Machine Sys2Proof.Safety Sys2Proof.Laws

/-! ### Illegal commands -/

/-- An illegal command is taken with the extra words its command word calls for (R99). -/
theorem fetch_of_decode_error {w : Word} {ws : List Word} {e : Illegal} (hlen : commandLength w - 1 ≤ ws.length)
    (h : decode w (ws.take (commandLength w - 1)) = .error e) :
    fetch (w :: ws) = .illegal e w (ws.drop (commandLength w - 1)) := by
  simp only [fetch, if_neg (Nat.not_lt.2 hlen), h]

/-- Settles O5: the held commands are passed over, and the illegal one behind them is taken and faulted. -/
theorem illegalCommandFaultsAndIsConsumed : Obligations.IllegalCommandFaultsAndIsConsumed := by
  intro s p hs w ws e hmove hh hp hlen hdecode
  have hf := fetch_of_decode_error hlen hdecode
  obtain ⟨src, snk, late, ts, k, -, hstep⟩ := step_of_comes (o := s.now.origin) ⟨hmove, rfl⟩
  have hserved : step s = .next (State.illegalFaulted
      ({ s with now := ⟨s.now.origin, src, snk, late⟩, agenda := ts, tick := k }.servingPort p
        (hs.flatMap encode ++ ws.drop (commandLength w - 1))) (agOf w)) := by
    rw [hstep, runMove]
    refine Eq.trans (servePort_of_passedOver hh hp fun i rest hi => by cases hf.symm.trans hi) ?_
    rw [hf]
  refine ⟨_, hserved, rfl, rfl, rfl, rfl, fun q hq => ?_⟩
  cases q with
  | fault => exact absurd rfl hq
  | _ => rfl

/-! ### Commands that fault -/

/-- Settles O8: an operation raises a fault, answers, or waits, each of which is a next state. -/
theorem everyCommandAnswersANextState : Obligations.EveryCommandAnswersANextState := fun _ s hi => exec_answers hi s

/-- The FAULT bit of a cause is its place in the table of R280. -/
theorem causeMask_eq (c : Cause) : causeMask c = BitVec.ofNat 10 (2 ^ faultNumber c) := by cases c <;> rfl

theorem causeMask_setWidth (c : Cause) : (causeMask c).setWidth 32 = BitVec.ofNat 32 (2 ^ faultNumber c) := by
  cases c <;> rfl

/-- A fault sets one bit and changes no other part (R281). -/
theorem keeps_faulted (s : State) (ag : Agent) (c : Cause) : keeps [.fault] s (s.faulted ag c) := by simp [keeps_iff]

/-- FAULT is no status in which an operation can end once its checks pass (R283). -/
theorem fault_not_mem_endsIn (i : Instr) (s : State) : Status.fault ∉ endsIn i s := by
  unfold endsIn
  split
  · simp
  · simp
  · simp
  · cases i with
    | caprd | rpop | sinkw | rpush =>
      dsimp only
      split <;> simp
    | _ => simp

/-- Two answers of a command to one state are the same response. -/
theorem responds_unique {s t : State} {ag ag' : Agent} {st st' : Status} {v v' : Word} (h : responds s t ag st v)
    (h' : responds s t ag' st' v') : st = st' ∧ v = v' := by
  have heq := List.append_cancel_left (h.symm.trans h')
  simp only [List.cons.injEq, Response.mk.injEq] at heq
  obtain ⟨⟨-, -, hst, hv⟩, -⟩ := heq
  exact ⟨hst, hv⟩

/-- Settles O11: a command that passes its checks ends in no FAULT, and one that does not has raised its fault. -/
theorem faultedCommandChangesOnlyItsBit : Obligations.FaultedCommandChangesOnlyItsBit := by
  intro i s t v he hresp
  rcases exec_decides he with ⟨c, -, rfl⟩ | ⟨hf, -⟩
  · obtain ⟨-, hv⟩ := responds_unique (st' := .fault) (v' := (causeMask c).setWidth 32) hresp rfl
    exact ⟨c, hv.trans (causeMask_setWidth c), by rw [State.faulted_fault, causeMask_eq], keeps_faulted s i.agent c⟩
  · obtain ⟨-, ⟨st, hst, x, hresp', -⟩ | ⟨-, -, -, -, -, hlog, -⟩⟩ := passedCommandAnswersOnceOrWaits i s t hf he
    · obtain ⟨rfl, -⟩ := responds_unique hresp hresp'
      exact absurd hst (fault_not_mem_endsIn i s)
    · have hlen := congrArg List.length (hresp.symm.trans hlog)
      simp at hlen

/-! ### FST -/

/-- A 32-bit slot is the whole operand word (R94). -/
theorem slotOfWord_w32 (v : Word) : slotOfWord .w32 v = BitVec.ofNat 32 v.toNat := by
  rw [slotOfWord, slotBits, Nat.mod_eq_of_lt v.isLt]

/-- Slots of frames have addresses of their own. -/
theorem slotAddr_inj {s : State} {k t : Token} {i j : Nat} (hj : j < s.params.frameLen) (hi : i < s.params.frameLen)
    (h : slotAddr s k j = slotAddr s t i) : (k, j) = (t, i) := by
  by_cases hk : k = t
  · subst hk
    simpa [slotAddr] using h
  · have hout := slotAddr_outside (s := s) hk hj
    simp only [slotAddr] at h hout
    omega

/-- Settles O24: past the checks, the slot is put at its own address. -/
theorem fstStoresOneSlot : Obligations.FstStoresOneSlot := by
  intro ag t i v s hm hsorted ht hi hheld
  obtain ⟨hcarries, hissuer, hphase⟩ := hm
  have he : exec (.fst ag t i v) s =
      .next ((s.withSlot t i.toNat (slotOfWord s.params.slotW v)).answered ag .ok 0) :=
    (checked_pass _ hcarries hissuer hphase).trans <| (if_neg (not_not_intro hi)).trans (owned_pass _ ht hheld)
  refine ⟨_, he, rfl, keeps_answered (by simp [keeps_iff]) _ _ _, ?_, fun k j hj hne => ?_, fun a ha => ?_⟩
  · refine (Memory.read_put_same hsorted _ _).trans (congrArg some ?_)
    cases s.params.slotW with
    | w16 => rfl
    | w32 => exact slotOfWord_w32 v
  · exact Memory.read_put_other _ _ fun h => hne (slotAddr_inj hj hi h)
  · exact Memory.read_put_other _ _ ha

end Sys2Proof.Proofs
end

section
/-! The pool's commands and its count: O20, O21, O23 and O55 (spec/40_pool.md R121, R122, R124, R131; spec/10_state.md
R132). -/

namespace Sys2Proof.Proofs

open Sys2Proof.Machine Sys2Proof.Safety Sys2Proof.Laws

/-! ### Moves of one token -/

/-- An answer given with another pool writes the pool alone. -/
theorem keeps_pool_answered (s : State) (pl : Pool) (ag : Agent) (st : Status) (v : Word) :
    keeps [.pool] s ({ s with pool := pl }.answered ag st v) :=
  keeps_answered (by simp [keeps_iff]) _ _ _

/-- Settles O20: the head of FREEQ moves to agent C, and its entry of OWN with it. -/
theorem acqfTakesTheHeadOfTheFreeQueue : Obligations.AcqfTakesTheHeadOfTheFreeQueue := by
  intro ag wm s k q hm hsorted hhold hq
  obtain ⟨hcarries, hissuer, hphase⟩ := hm
  have he : exec (.acqf ag wm) s = .next ({ s with pool := s.pool.acquire k q }.answered ag .ok (k.setWidth 32)) :=
    (checked_pass _ hcarries hissuer hphase).trans <| (if_neg (by simp [hhold])).trans <|
      acqfReady_eq_next.2 (Or.inr ⟨k, q, hq, rfl⟩)
  exact ⟨_, he, rfl, keeps_pool_answered _ _ _ _ _, rfl, rfl, rfl, rfl, fun u => read_putOwner hsorted k u .cap⟩

/-- Settles O21: with room in BUSYQ, agent C's token moves to its tail, and its entry of OWN with it. -/
theorem pubbAppendsToTheBusyQueue : Obligations.PubbAppendsToTheBusyQueue := by
  intro ag wm k s hm hsorted hk hhold hroom
  obtain ⟨hcarries, hissuer, hphase⟩ := hm
  obtain rfl : ag = .C := List.mem_singleton.1 hissuer
  have he : exec (.pubb .C wm k) s = .next ({ s with pool := s.pool.publish k }.answered .C .ok 0) :=
    (checked_pass _ hcarries hissuer hphase).trans <| (owned_pass (ag := .C) _ hk hhold).trans <|
      pubbReady_eq_next.2 (Or.inr ⟨hroom, rfl⟩)
  exact ⟨_, he, rfl, keeps_pool_answered _ _ _ _ _, rfl, rfl, rfl, rfl, fun u => read_putOwner hsorted k u .busy⟩

theorem legalPhases_relf (ag : Agent) (k : Token) : legalPhases (.relf ag k) = relfPhases ag := by cases ag <;> rfl

/-- Settles O23: the issuer's token moves to the tail of FREEQ, and its entry of OWN with it. -/
theorem relfReturnsTheFrame : Obligations.RelfReturnsTheFrame := by
  intro ag k s hm hsorted hk hheld
  obtain ⟨hcarries, hissuer, hphase⟩ := hm
  rw [legalPhases_relf] at hphase
  have he : exec (.relf ag k) s = .next ({ s with pool := s.pool.release ag k }.answered ag .ok 0) :=
    (checked_pass _ hcarries hissuer hphase).trans (owned_pass _ hk hheld)
  refine ⟨_, he, rfl, keeps_pool_answered _ _ _ _ _, ?_⟩
  cases ag with
  | C | M => exact ⟨rfl, rfl, rfl, rfl, fun u => read_putOwner hsorted k u .free⟩
  | H | R | S => cases hheld

/-! ### Conservation -/

/-- The tokens that stand somewhere, place by place. -/
def placedTokens (pl : Pool) : List Token := pl.freeq ++ pl.busyq ++ pl.chold.toList ++ pl.mhold.toList

/-- A token stands in the pool as often as in its four places together. -/
theorem count_placedTokens (pl : Pool) (t : Token) :
    (placedTokens pl).count t =
      placeCount pl t .free + placeCount pl t .busy + placeCount pl t .cap + placeCount pl t .mix := by
  have hhold : ∀ o : Option Token, o.toList.count t = if o = some t then 1 else 0 := by
    intro o
    cases o <;> simp [List.count_singleton]
  simp [placedTokens, placeCount, hhold, Nat.add_assoc]

/-- What stands in the pool are the tokens below N, each once, in some order (R26). -/
theorem placedTokens_perm {s : State} (h : PoolOk s) (hn : s.params.depth ≤ 16) :
    (placedTokens s.pool).Perm (tokensBelow s.params.depth) := by
  rw [List.perm_iff_count]
  intro t
  rw [count_placedTokens, count_tokensBelow hn]
  by_cases ht : t.toNat < s.params.depth
  · simp only [poolOk_iff.1 h, ht, true_and]
    cases ownerOf s.pool t <;> rfl
  · simp [poolOk_iff.1 h, ht]

theorem length_placedTokens (pl : Pool) :
    (placedTokens pl).length = pl.freeq.length + pl.busyq.length + (if pl.chold = none then 0 else 1) +
      (if pl.mhold = none then 0 else 1) := by
  simp [placedTokens, Option.length_toList, Option.isSome_iff_ne_none, ite_not, Nat.add_assoc]

/-- Settles O55: the sum is the length of an arrangement of the N tokens, and a hold counts one of them. -/
theorem tokensAreConserved : Obligations.TokensAreConserved := by
  intro s h
  have hsum : s.pool.freeq.length + s.pool.busyq.length + (if s.pool.chold = none then 0 else 1) +
      (if s.pool.mhold = none then 0 else 1) = s.params.depth := by
    obtain ⟨-, -, -, hdepth, -⟩ := h.params
    rw [← length_placedTokens, (placedTokens_perm h.pool hdepth).length_eq]
    simp [tokensBelow]
  refine ⟨hsum, fun hc => ?_, fun hheld => ?_⟩
  · rw [if_neg hc] at hsum
    omega
  · rcases hheld with hc | hm
    · rw [if_neg hc] at hsum
      omega
    · rw [if_neg hm] at hsum
      omega

end Sys2Proof.Proofs
end

section
/-! CAPRD: O26 and O27 (spec/41_capture.md R150; spec/60_exceptions.md R283, R300). -/

namespace Sys2Proof.Proofs

open Sys2Proof.Machine Sys2Proof.Safety Sys2Proof.Laws

/-! ### A frame written whole -/

/-- A frame written whole reads as what was written, slot by slot (R150). -/
theorem slotAt_withFrame {s : State} (hs : Memory.sorted s.fm) {k : Token} {d : List (Option Slot)}
    (hd : d.length = s.params.frameLen) {j : Nat} (hj : j < s.params.frameLen) :
    slotAt (s.withFrame k d) k j = (d[j]?).join := by
  have hin : slotAddr s k 0 ≤ slotAddr s k j ∧ slotAddr s k j < slotAddr s k 0 + d.length := by
    simp only [slotAddr]; omega
  have hj' : slotAddr s k j - slotAddr s k 0 = j := by simp [slotAddr]
  change Memory.read (s.withFrame k d).fm (slotAddr s k j) = _
  rw [State.withFrame_fm, Memory.read_putAll hs, if_pos hin, hj']

/-- Every frame but `k`, and every address outside frame `k`, reads in `u` as in `s`. -/
def onlyFrameWritten (k : Token) (s u : State) : Prop :=
  (∀ k' j, j < s.params.frameLen → k' ≠ k → slotAt u k' j = slotAt s k' j) ∧
    ∀ a, (a < slotAddr s k 0 ∨ slotAddr s k s.params.frameLen ≤ a) → Memory.read u.fm a = Memory.read s.fm a

/-- A frame written whole is the only one written. -/
theorem onlyFrameWritten_of_putAll {s u : State} {k : Token} {d : List (Option Slot)} (hp : u.params = s.params)
    (hfm : u.fm = Memory.putAll s.fm (slotAddr s k 0) d) (hd : d.length = s.params.frameLen) :
    onlyFrameWritten k s u := by
  have hread : ∀ a, (a < slotAddr s k 0 ∨ slotAddr s k 0 + s.params.frameLen ≤ a) →
      Memory.read u.fm a = Memory.read s.fm a := fun a ha => by
    rw [hfm]
    exact read_putAll_outside _ _ _ (hd ▸ ha)
  refine ⟨fun k' j hj hne => ?_, fun a ha => hread a (by simpa [slotAddr] using ha)⟩
  have haddr : slotAddr u k' j = slotAddr s k' j := by simp only [slotAddr, hp]
  rw [slotAt, haddr]
  exact hread _ (slotAddr_outside hne hj)

/-! ### What the source presents -/

/-- A slot of SLOT_W bits is taken as it is (R94, R300). -/
theorem slotOfWord_of_lt {sw : SlotWidth} {x : Slot} (h : x.toNat < 2 ^ slotBits sw) : slotOfWord sw x = x := by
  rw [slotOfWord, Nat.mod_eq_of_lt h, BitVec.ofNat_toNat, BitVec.setWidth_eq]

/-- A frame of L slots of SLOT_W bits is drawn as it is presented (R300). -/
theorem drawnFrame_getElem?_join {p : Params} {d : List Slot} (hd : d.length = p.frameLen)
    (hb : ∀ x ∈ d, x.toNat < 2 ^ slotBits p.slotW) {j : Nat} (hj : j < p.frameLen) :
    ((drawnFrame p d)[j]?).join = d[j]? := by
  have hjd : j < d.length := hd ▸ hj
  have hslot : slotOfWord p.slotW d[j] = d[j] := slotOfWord_of_lt (hb _ (List.getElem_mem hjd))
  simp [drawnFrame, hj, hjd, hslot]

/-! ### The command -/

/-- CAPRD with its checks passed goes on from its ready condition. -/
theorem exec_caprd_of_mayIssue {ag : Agent} {wm : WaitMode} {k : Token} {s : State} (hm : mayIssue (.caprd ag wm k) s)
    (hk : k.toNat < s.params.depth) (hheld : s.pool.heldBy ag = some k) :
    exec (.caprd ag wm k) s = caprdReady ag wm k s := by
  obtain ⟨hcarries, hissuer, hphase⟩ := hm
  exact (checked_pass _ hcarries hissuer hphase).trans (owned_pass _ hk hheld)

/-- Settles O26: past the checks, the frame drawn is written whole, and it is the frame presented. -/
theorem caprdFillsTheOwnedFrame : Obligations.CaprdFillsTheOwnedFrame := by
  intro ag wm k d s hm hsorted hk hheld hsource hlen hbits
  have he : exec (.caprd ag wm k) s = .next ((s.withFrame k (drawnFrame s.params d)).sourceConsumed.answered ag .ok
      (BitVec.ofNat 32 s.params.frameLen)) :=
    (exec_caprd_of_mayIssue hm hk hheld).trans (caprdReady_eq_next.2 (Or.inr (Or.inr ⟨d, hsource, rfl⟩)))
  refine ⟨_, he, rfl, keeps_answered (by simp [keeps_iff]) _ _ _, rfl, fun j hj => ?_,
    onlyFrameWritten_of_putAll rfl rfl (drawnFrame_length _ _)⟩
  exact (slotAt_withFrame hsorted (drawnFrame_length _ _) hj).trans (drawnFrame_getElem?_join hlen hbits hj)

/-- Settles O27: past the checks, the frame is written whole with no values. -/
theorem caprdErrorLeavesTheFrameUndefined : Obligations.CaprdErrorLeavesTheFrameUndefined := by
  intro ag wm k s hm hsorted hk hheld hsource
  have he : exec (.caprd ag wm k) s = .next ((s.withUndefFrame k).sourceConsumed.answered ag .error 0) :=
    (exec_caprd_of_mayIssue hm hk hheld).trans (caprdReady_eq_next.2 (Or.inr (Or.inl ⟨hsource, rfl⟩)))
  exact ⟨_, he, rfl, keeps_answered (by simp [keeps_iff]) _ _ _, rfl, fun j hj => slotAt_withUndefFrame hsorted hj,
    onlyFrameWritten_of_putAll rfl rfl List.length_replicate⟩

end Sys2Proof.Proofs
end

section
/-! The sequencers raise no fault: O51 (spec/41_capture.md R157; spec/43_mixer.md R208; spec/45_host.md R256). From a state
that meets the invariant each command of a sequencer passes its checks, so only a table could write FAULT, and the boot
sequencer's does so at B_FAILREL alone. -/

namespace Sys2Proof.Proofs

open Sys2Proof.Machine Sys2Proof.Safety Sys2Proof.Laws

/-- A command that passes its checks leaves FAULT (R281). -/
theorem fault_of_passed {i : Instr} {s t : State} (hf : firstFault i s = none) (he : exec i s = .next t) :
    t.fault = s.fault :=
  keeps_part (effect_keeps (effect_of_passed hf he)) .fault (fault_not_mem_mayEffect i)

/-- The capture sequencer raises no fault (R157). -/
theorem fault_of_captureMove {s t : State} (h : Inv s) (he : captureMove s = .next t) : t.fault = s.fault := by
  unfold captureMove at he
  split at he
  · next hrun =>
    obtain ⟨hrun, -⟩ := hrun
    obtain ⟨hp, hctl⟩ := inv_iff.1 h
    obtain ⟨hc, -⟩ := (controlOk_run_iff hrun).1 hctl
    obtain ⟨i, hcmd, hf, hshape⟩ := captureCommand_passes hp.pool hc hrun
    obtain ⟨ha, hwf⟩ : i.agent = .C ∧ i.wellFormed = true := by
      rcases hshape with rfl | ⟨k, -, rfl | rfl | rfl⟩ <;> exact ⟨rfl, rfl⟩
    obtain ⟨v, hv, -, rfl⟩ := sequencerMove_carries hp hcmd ha hwf hc.wait hf he
    obtain ⟨c, b, e, htable⟩ := afterTable_capture_eq v
    rw [htable]
    exact (fault_of_passed hf hv).trans (issuing_fault _ _ _)
  · cases he
    rfl

/-- The mixer sequencer raises no fault (R208). -/
theorem fault_of_mixerMove {s t : State} (h : Inv s) (he : mixerMove s = .next t) : t.fault = s.fault := by
  unfold mixerMove at he
  split at he
  · next hrun =>
    obtain ⟨hrun, -⟩ := hrun
    obtain ⟨hp, hctl⟩ := inv_iff.1 h
    obtain ⟨-, hm, -⟩ := (controlOk_run_iff hrun).1 hctl
    obtain ⟨i, hcmd, hf, hshape⟩ := mixerCommand_passes hp.pool hm hrun
    obtain ⟨ha, hwf⟩ : i.agent = .M ∧ i.wellFormed = true := by
      rcases hshape with rfl | rfl | rfl | rfl | ⟨k, -, rfl | rfl⟩ <;> exact ⟨rfl, rfl⟩
    obtain ⟨v, hv, -, rfl⟩ := sequencerMove_carries hp hcmd ha hwf hm.wait hf he
    obtain ⟨m, b, e, htable⟩ := afterTable_mixer_eq v
    rw [htable]
    exact (fault_of_passed hf hv).trans (issuing_fault _ _ _)
  · cases he
    rfl

/-- FAULT as it was, or calibration has failed in BOOT at B_FAILREL: the phase is FATAL and F_CALFAIL is set (R256). -/
def onlyCalfail (s t : State) : Prop :=
  t.fault = s.fault ∨ (s.phase = .boot ∧ s.seq.bstep = .failrel ∧ t.phase = .fatal ∧ t.fault = s.fault ||| 0x200)

/-- The boot sequencer's table sets F_CALFAIL at B_FAILREL and no other bit. -/
theorem afterTable_boot_onlyCalfail {v : State} (hboot : v.phase = .boot) :
    onlyCalfail v (afterTable .C bootTable v) := by
  unfold afterTable bootTable
  split
  · exact Or.inl rfl
  · split
    case h_8 hstep _ => exact Or.inr ⟨hboot, hstep, rfl, rfl⟩
    all_goals exact Or.inl rfl

/-- The boot sequencer raises no fault but F_CALFAIL (R256). -/
theorem onlyCalfail_of_bootMove {s t : State} (h : Inv s) (he : bootMove s = .next t) : onlyCalfail s t := by
  unfold bootMove at he
  split at he
  · next hboot =>
    obtain ⟨hboot, -⟩ := hboot
    obtain ⟨hp, hctl⟩ := inv_iff.1 h
    obtain ⟨-, hb⟩ := (controlOk_boot_iff hboot).1 hctl
    obtain ⟨i, hcmd, hf, hshape⟩ := bootCommand_passes hp.pool hb hboot
    obtain ⟨ha, hwf, hstart⟩ : i.agent = .C ∧ i.wellFormed = true ∧ ∀ ag, i ≠ .start ag := by
      rcases hshape with rfl | ⟨k, -, rfl | rfl | rfl⟩ <;> exact ⟨rfl, rfl, nofun⟩
    obtain ⟨v, hv, -, rfl⟩ := sequencerMove_carries hp hcmd ha hwf hb.wait hf he
    obtain ⟨hphase, hseq⟩ := phase_seq_of_exec hstart hv
    rw [issuing_phase] at hphase
    have htable := afterTable_boot_onlyCalfail (hphase.trans hboot)
    rwa [onlyCalfail, fault_of_passed hf hv, hphase, hseq, issuing_fault, issuing_seq] at htable
  · cases he
    exact Or.inl rfl

/-- A sequencer's move raises no fault but F_CALFAIL (R157, R208, R256). -/
theorem onlyCalfail_of_sequencer {m : Move} {s t : State} (hm : m ∈ [Move.boot, .capture, .mixer]) (h : Inv s)
    (he : runMove m s = .next t) : onlyCalfail s t := by
  cases m with
  | boot => exact onlyCalfail_of_bootMove h he
  | capture => exact Or.inl (fault_of_captureMove h he)
  | mixer => exact Or.inl (fault_of_mixerMove h he)
  | present | serve | resumeC | resumeM | reset => simp at hm

/-- Settles O51: a turn is one move, in a state that differs in what neither the invariant nor the claim reads. -/
theorem sequencersRaiseNoFault : Obligations.SequencersRaiseNoFault := by
  intro s t h hm he
  obtain ⟨ts, k, hn⟩ := nextTurn_state s
  rw [step, takeTurn, hn] at he
  have hinv : Inv (State.withTurn { s with agenda := ts, tick := k } (nextTurn s).1) :=
    inv_of_agree h rfl rfl rfl rfl rfl rfl rfl rfl rfl rfl
  exact (onlyCalfail_of_sequencer hm hinv he :)

end Sys2Proof.Proofs
end

section
/-! RPUSH of a chunk that does not fit, and SEVT: O45 and O46 (spec/42_ring.md R171, R173 to R175). -/

namespace Sys2Proof.Proofs

open Sys2Proof.Machine Sys2Proof.Safety Sys2Proof.Laws

/-- Settles O45: its checks passed and its length legal, the chunk is longer than the room that is left. -/
theorem rpushDropsWhatDoesNotFit : Obligations.RpushDropsWhatDoesNotFit := by
  intro ag len payload s hm hpayload hpos hfour hfull
  obtain ⟨hcarries, hissuer, hphase⟩ := hm
  have he : exec (.rpush ag len payload) s = .next (s.answered ag .dropped 0) :=
    (if_neg (not_not_intro hpayload)).trans <| (checked_pass _ hcarries hissuer hphase).trans <|
      (if_neg (by omega)).trans (if_pos hfull)
  exact ⟨_, he, rfl, keeps_answered (keeps_refl _ s) _ _ _⟩

/-- A session event writes the Playing flag and the ring alone (R173, R175). -/
theorem keeps_afterEvent (s : State) (ev : SessionEvent) : keeps [.play, .ring] s (s.afterEvent ev) := by
  simp [keeps_iff]

/-- A ring with no valid byte has no content (R27). -/
theorem ringQ_of_rfill_eq_zero {s : State} (h : s.ring.rfill = 0) : ringQ s = [] :=
  List.eq_nil_of_length_eq_zero ((ringBytes_length _ _ _ _).trans h)

/-- Playing starts within a session only (R174). -/
theorem playAfter_playing (p : Play) : playAfter p .playing = if p = .idle then .idle else .playing := by
  cases p <;> rfl

/-- Playing pauses within a session only (R174). -/
theorem playAfter_paused (p : Play) : playAfter p .paused = if p = .idle then .idle else .paused := by
  cases p <;> rfl

/-- Settles O46: an event moves PLAY as the table of R174 has it, and a connection empties the ring. -/
theorem sevtMovesThePlayingFlag : Obligations.SevtMovesThePlayingFlag := by
  intro ag ev s hm
  obtain ⟨hcarries, hissuer, hphase⟩ := hm
  have he : exec (.sevt ag ev) s =
      .next ((s.afterEvent ev).answered ag .ok ((playCode (s.afterEvent ev).play).setWidth 32)) :=
    checked_pass _ hcarries hissuer hphase
  refine ⟨_, he, keeps_answered (keeps_afterEvent s ev) _ _ _, ?_, ?_⟩
  · cases ev with
    | connected => exact ⟨rfl, ringQ_of_rfill_eq_zero rfl, rfl⟩
    | disconnected => exact ⟨rfl, rfl⟩
    | playing => exact ⟨playAfter_playing s.play, rfl⟩
    | paused => exact ⟨playAfter_paused s.play, rfl⟩
  · rw [State.answered_play, responds, State.answered_log, State.afterEvent_log, State.afterEvent_now]
    cases (s.afterEvent ev).play with
    | idle | paused | playing => rfl

end Sys2Proof.Proofs
end

section
/-! SUPPORT. The functions of units DSP and MIX on samples: narrowing (spec/00_scope.md R16), each stage of the mic path
(spec/44_dsp.md R221, R225, R227, R231, R236) and the mixing addition (spec/43_mixer.md R198). -/

namespace Sys2Proof.Proofs

open Sys2Proof.Machine Sys2Proof.Safety Sys2Proof.Laws

/-! ### Narrowing (R16) -/

theorem wrap16_toInt (v : Int) : (wrap16 v).toInt = (v + 32768) % 65536 - 32768 := by
  rw [wrap16, BitVec.toInt_ofInt, Int.bmod_def]
  omega

theorem wrap16_toInt_of_range {v : Int} (h : -32768 ≤ v ∧ v ≤ 32767) : (wrap16 v).toInt = v := by
  rw [wrap16_toInt]
  omega

/-- Saturating is wrapping the value limited to the range, which leaves it as it is. -/
theorem sat16_eq_wrap16 (v : Int) : sat16 v = wrap16 (max (-32768) (min 32767 v)) := by
  unfold sat16
  split
  · next hlow => rw [max_eq_left (by omega)]; rfl
  · next hlow =>
    split
    · next hhigh => rw [min_eq_left (by omega)]; rfl
    · next hhigh => rw [min_eq_right (by omega), max_eq_right (by omega)]; rfl

theorem sat16_toInt (v : Int) : (sat16 v).toInt = max (-32768) (min 32767 v) := by
  rw [sat16_eq_wrap16, wrap16_toInt_of_range (by omega)]

/-! ### Convert and scale (R221, R225) -/

/-- The sample field, of which the upper half of the codes is negative in signed mode. -/
theorem convSlot_eq (c : ConvCfg) (x : Slot) :
    convSlot c x =
      if c.sgn = true ∧ 2 ^ (c.nbits.toNat - 1) ≤ x.toNat / 2 ^ c.shift.toNat % 2 ^ c.nbits.toNat then
        ((x.toNat / 2 ^ c.shift.toNat % 2 ^ c.nbits.toNat : Nat) : Int) - 2 ^ c.nbits.toNat
      else (x.toNat / 2 ^ c.shift.toNat % 2 ^ c.nbits.toNat : Nat) := by
  cases hs : c.sgn with
  | false => simp [convSlot, hs]
  | true =>
    simp only [convSlot, hs, sextN, if_true, true_and]
    rw [← ite_not]
    simp only [Nat.not_lt]

/-- A pattern of at most 16 bits read signed is a sample. -/
theorem sextN_range {n f : Nat} (hn : 1 ≤ n) (hn16 : n ≤ 16) (hf : f < 2 ^ n) :
    -32768 ≤ sextN n f ∧ sextN n f ≤ 32767 := by
  have htwice : 2 ^ n = 2 * 2 ^ (n - 1) := by rw [← pow_succ', Nat.sub_add_cancel hn]
  have hhalf : 2 ^ (n - 1) ≤ 2 ^ 15 := Nat.pow_le_pow_right (by decide) (by omega)
  unfold sextN
  split
  · next hlow => omega
  · next hhigh =>
    zify at hf htwice hhalf hhigh
    omega

/-- In signed mode a converted slot is a sample. -/
theorem convSlot_signed {c : ConvCfg} (hs : c.sgn = true) (hn : 1 ≤ c.nbits.toNat) (hn16 : c.nbits.toNat ≤ 16)
    (x : Slot) : -32768 ≤ convSlot c x ∧ convSlot c x ≤ 32767 := by
  rw [convSlot, if_pos hs]
  exact sextN_range hn hn16 (Nat.mod_lt _ (Nat.two_pow_pos _))

/-- The scaled code in exact integers (R238). -/
theorem scaleCode_eq {c : ConvCfg} {idle u : Nat} (hu : u ≤ maxCode c) :
    scaleCode c idle u =
      if (u : Int) = idle then 0
      else if (u : Int) > idle then ((u : Int) - idle) * 32767 / (2 ^ c.nbits.toNat - 1 - idle)
      else -(((idle : Int) - u) * 32768 / idle) := by
  have htop : ((maxCode c : Nat) : Int) = 2 ^ c.nbits.toNat - 1 := by
    rw [maxCode, Nat.cast_sub Nat.one_le_two_pow]
    push_cast
    rfl
  rw [scaleCode, ← htop]
  rcases Nat.lt_trichotomy u idle with hlt | heq | hgt
  · rw [if_neg (by omega), if_neg (by omega), if_neg (by omega), if_neg (by omega)]
    push_cast [Nat.cast_sub hlt.le]
    rfl
  · rw [if_pos heq, if_pos (by omega)]
  · rw [if_neg (by omega), if_pos hgt, if_neg (by omega), if_pos (by omega)]
    push_cast [Nat.cast_sub hgt.le, Nat.cast_sub (hgt.le.trans hu)]
    rfl

/-- A scaled code is a sample: each side of the idle value is a fraction of full scale. -/
theorem scaleCode_range {c : ConvCfg} {idle u : Nat} (hu : u ≤ maxCode c) :
    -32768 ≤ scaleCode c idle u ∧ scaleCode c idle u ≤ 32767 := by
  have habove : (u - idle) * 32767 / (maxCode c - idle) ≤ 32767 :=
    Nat.div_le_of_le_mul (Nat.mul_le_mul_right _ (Nat.sub_le_sub_right hu idle))
  have hbelow : (idle - u) * 32768 / idle ≤ 32768 :=
    Nat.div_le_of_le_mul (Nat.mul_le_mul_right _ (Nat.sub_le idle u))
  unfold scaleCode
  split
  · decide
  · split
    · exact ⟨(by decide : (-32768 : Int) ≤ 0).trans (Int.natCast_nonneg _), Int.ofNat_le.2 habove⟩
    · exact ⟨Int.neg_le_neg (Int.ofNat_le.2 hbelow),
        (Int.neg_nonpos_of_nonneg (Int.natCast_nonneg _)).trans (by decide)⟩

theorem scaleCode_idle (c : ConvCfg) (idle : Nat) : scaleCode c idle idle = 0 := if_pos rfl

/-- The scale stage: a signed sample as it is, an unsigned code about the idle value (R236). -/
theorem micScaled_toInt {c : Cfg} (hn : 1 ≤ c.convcfg.nbits.toNat) (hn16 : c.convcfg.nbits.toNat ≤ 16) (x : Slot) :
    (micScaled c x).toInt =
      if c.convcfg.sgn = true then convSlot c.convcfg x
      else if convSlot c.convcfg x = c.idle.toNat then 0
      else if convSlot c.convcfg x > c.idle.toNat then
        (convSlot c.convcfg x - c.idle.toNat) * 32767 / (2 ^ c.convcfg.nbits.toNat - 1 - c.idle.toNat)
      else -((c.idle.toNat - convSlot c.convcfg x) * 32768 / c.idle.toNat) := by
  cases hs : c.convcfg.sgn with
  | true =>
    rw [micScaled, hs, if_pos rfl, if_pos rfl, wrap16_toInt_of_range (convSlot_signed hs hn hn16 x)]
  | false =>
    obtain ⟨hnonneg, hle⟩ := convSlot_unsigned hs x
    have hcode : ((convSlot c.convcfg x).toNat : Int) = convSlot c.convcfg x := Int.toNat_of_nonneg hnonneg
    have hmax : (convSlot c.convcfg x).toNat ≤ maxCode c.convcfg := by omega
    rw [micScaled, hs, if_neg Bool.false_ne_true, if_neg Bool.false_ne_true,
      wrap16_toInt_of_range (scaleCode_range hmax), scaleCode_eq hmax, hcode]

/-! ### Filter (R227) -/

theorem pushed_get (f : Machine.Filter) (x : Pcm) (k : Fin 7) :
    (f.pushed x).get k = if k = f.fidx then x else f.dl.get k := by
  simp only [Filter.pushed, Vector.get_eq_getElem, Vector.getElem_set, Fin.ext_iff, eq_comm]

theorem pushed_get_tapIndex_zero (f : Machine.Filter) (x : Pcm) : (f.pushed x).get (tapIndex f.fidx 0) = x := by
  have hnewest : ∀ i : Fin 7, tapIndex i 0 = i := by decide
  rw [pushed_get, if_pos (hnewest _)]

/-- Behind the newest sample the delay line holds the inputs that came before it. -/
theorem pushed_get_tapIndex_succ (f : Machine.Filter) (x : Pcm) (k : Fin 6) :
    (f.pushed x).get (tapIndex f.fidx k.succ) = inputBefore f k.castSucc := by
  have holder : ∀ (i : Fin 7) (k : Fin 6), tapIndex i k.succ ≠ i := by decide
  rw [pushed_get, if_neg (holder _ _), inputBefore, Fin.coeSucc_eq_succ]

/-- The accumulator is the dot product of the taps with the sample and the six inputs before it. -/
theorem firAcc_pushed (c : Cfg) (f : Machine.Filter) (x : Pcm) :
    firAcc (taps c) (f.pushed x) f.fidx =
      c.coef0.toInt * x.toInt + c.coef1.toInt * (inputBefore f 0).toInt + c.coef2.toInt * (inputBefore f 1).toInt +
        c.coef3.toInt * (inputBefore f 2).toInt + c.coef2.toInt * (inputBefore f 3).toInt +
        c.coef1.toInt * (inputBefore f 4).toInt + c.coef0.toInt * (inputBefore f 5).toInt := by
  have hterms : firAcc (taps c) (f.pushed x) f.fidx =
      (taps c).get 0 * ((f.pushed x).get (tapIndex f.fidx 0)).toInt +
        ((List.finRange 6).map fun k =>
          (taps c).get k.succ * ((f.pushed x).get (tapIndex f.fidx k.succ)).toInt).sum := by
    simp only [firAcc, List.finRange_succ (n := 6), List.map_cons, List.sum_cons, List.map_map, Function.comp_def]
  simp only [hterms, pushed_get_tapIndex_zero, pushed_get_tapIndex_succ, List.finRange_succ, List.finRange_zero,
    List.map_cons, List.map_nil, List.sum_cons, List.sum_nil]
  simp [taps, Vector.get_eq_getElem]
  ring

theorem lpfOut_toInt (c : Cfg) (f : Machine.Filter) (x : Pcm) :
    (lpfOut c f x).toInt =
      ((c.coef0.toInt * x.toInt + c.coef1.toInt * (inputBefore f 0).toInt + c.coef2.toInt * (inputBefore f 1).toInt +
        c.coef3.toInt * (inputBefore f 2).toInt + c.coef2.toInt * (inputBefore f 3).toInt +
        c.coef1.toInt * (inputBefore f 4).toInt + c.coef0.toInt * (inputBefore f 5).toInt) / 32768 + 32768) % 65536 -
        32768 := by
  rw [lpfOut, wrap16_toInt, firAcc_pushed, asr]
  rfl

/-- The filter holds the sample as its newest input. -/
theorem inputBefore_lpfNext_zero (f : Machine.Filter) (x : Pcm) : inputBefore (lpfNext f x) 0 = x := by
  have hback : ∀ i : Fin 7, tapIndex ⟨(i.val + 1) % 7, Nat.mod_lt _ (by decide)⟩ (0 + 1) = i := by decide
  rw [inputBefore, lpfNext, hback, pushed_get, if_pos rfl]

/-- Every earlier input is one call older. -/
theorem inputBefore_lpfNext_succ (f : Machine.Filter) (x : Pcm) (k : Fin 6) :
    inputBefore (lpfNext f x) k.succ = inputBefore f k.castSucc := by
  have hback : ∀ (i : Fin 7) (k : Fin 6),
      tapIndex ⟨(i.val + 1) % 7, Nat.mod_lt _ (by decide)⟩ (k.succ + 1) = tapIndex i k.succ := by decide
  rw [inputBefore, lpfNext, hback, pushed_get_tapIndex_succ]

/-- A zero sample leaves an all-zero delay line as it is. -/
theorem pushed_zero_of_dl_zero {f : Machine.Filter} (h : ∀ k, f.dl.get k = 0) : f.pushed 0 = f.dl := by
  refine Vector.ext fun i hi => ?_
  have hget : (f.pushed 0).get ⟨i, hi⟩ = f.dl.get ⟨i, hi⟩ := by
    rw [pushed_get, h, ite_self]
  simpa only [Vector.get_eq_getElem] using hget

/-- A zero sample through an all-zero delay line gives zero. -/
theorem lpfOut_zero_of_dl_zero {f : Machine.Filter} (h : ∀ k, f.dl.get k = 0) (c : Cfg) : lpfOut c f 0 = 0 := by
  have hacc : firAcc (taps c) (f.pushed 0) f.fidx = 0 := by
    rw [firAcc_pushed]
    simp [inputBefore, h]
  rw [lpfOut, hacc]
  rfl

/-! ### Gate (R231) -/

theorem micGated_toInt (c : Cfg) (x : Pcm) :
    (micGated c x).toInt = if c.pathcfg.gateEn = true ∧ |x.toInt| < (c.thresh.toNat : Int) then 0 else x.toInt := by
  have hsmall : |x.toInt| < (c.thresh.toNat : Int) ↔ x.toInt.natAbs < c.thresh.toNat := by
    rw [Int.abs_eq_natAbs, Nat.cast_lt]
  simp only [micGated, gateSample, hsmall, ite_and]
  split
  · split <;> rfl
  · rfl

theorem micGated_zero (c : Cfg) : micGated c 0 = 0 := by simp [micGated, gateSample]

/-! ### The mic path (R236) -/

theorem micPath_of_firEn {c : Cfg} (h : c.pathcfg.firEn = true) (f : Machine.Filter) (x : Slot) :
    micPath c f x = (micGated c (lpfOut c f (micScaled c x)), lpfNext f (micScaled c x)) := if_pos h

theorem micPath_of_not_firEn {c : Cfg} (h : c.pathcfg.firEn = false) (f : Machine.Filter) (x : Slot) :
    micPath c f x = (micGated c (micScaled c x), f) := if_neg (Bool.eq_false_iff.1 h)

/-- The mic path stage by stage. -/
theorem micStages_micPath {c : Cfg} (hn : 1 ≤ c.convcfg.nbits.toNat) (hn16 : c.convcfg.nbits.toNat ≤ 16)
    (f : Machine.Filter) (x : Slot) : MicStages c f x (micPath c f x).1 (micPath c f x).2 := by
  cases hfir : c.pathcfg.firEn with
  | true =>
    rw [micPath_of_firEn hfir]
    refine ⟨convSlot c.convcfg x, (micScaled c x).toInt, (lpfOut c f (micScaled c x)).toInt, convSlot_eq _ _,
      micScaled_toInt hn hn16 x, ?_, micGated_toInt _ _, ?_⟩
    · rw [if_pos hfir, lpfOut_toInt]
    · rw [if_pos hfir]
      exact ⟨congrArg _ (inputBefore_lpfNext_zero _ _), inputBefore_lpfNext_succ _ _, rfl⟩
  | false =>
    rw [micPath_of_not_firEn hfir]
    refine ⟨convSlot c.convcfg x, (micScaled c x).toInt, (micScaled c x).toInt, convSlot_eq _ _,
      micScaled_toInt hn hn16 x, ?_, micGated_toInt _ _, ?_⟩
    · rw [if_neg (Bool.eq_false_iff.1 hfir)]
    · rw [if_neg (Bool.eq_false_iff.1 hfir)]

/-! ### The mixing addition (R198) -/

theorem mixAdd_wrap_toInt (a m : Pcm) : (mixAdd false a m).toInt = (a.toInt + m.toInt + 32768) % 65536 - 32768 :=
  wrap16_toInt _

theorem mixAdd_sat_toInt (a m : Pcm) : (mixAdd true a m).toInt = max (-32768) (min 32767 (a.toInt + m.toInt)) :=
  sat16_toInt _

/-- Adding silence leaves a sample as it is, whatever SAT is (R209). -/
theorem mixAdd_zero (sat : Bool) (a : Pcm) : mixAdd sat a 0 = a := by
  have hlow := BitVec.le_toInt a
  have hhigh := BitVec.toInt_lt (x := a)
  refine BitVec.eq_of_toInt_eq ?_
  cases sat with
  | false =>
    rw [mixAdd_wrap_toInt, show (0 : Pcm).toInt = 0 from rfl]
    omega
  | true =>
    rw [mixAdd_sat_toInt, show (0 : Pcm).toInt = 0 from rfl]
    omega

theorem mixPair_zero (sat : Bool) (p : Pair) : mixPair sat p 0 = p := by
  rw [mixPair, mixAdd_zero, mixAdd_zero]

end Sys2Proof.Proofs
end

section
/-! The mixer: O37, O39, O40 and O41 (spec/43_mixer.md R190, R195, R198, R209; spec/44_dsp.md R236, R237). -/

namespace Sys2Proof.Proofs

open Sys2Proof.Machine Sys2Proof.Safety Sys2Proof.Laws

/-- Settles O37: every pair of an Output Frame that lists nothing is (0, 0). -/
theorem oclrClearsTheOutputFrame : Obligations.OclrClearsTheOutputFrame := by
  intro ag s hm
  obtain ⟨hcarries, hissuer, hphase⟩ := hm
  have he : exec (.oclr ag) s = .next ({ s with out := [] }.answered ag .ok 0) := checked_pass _ hcarries hissuer hphase
  exact ⟨_, he, rfl, keeps_answered (by simp [keeps_iff]) _ _ _, fun i => rfl⟩

/-- Settles O40: the sum of two samples is exact, so wrapping and limiting it are those of one integer. -/
theorem mixAddWrapsOrSaturates : Obligations.MixAddWrapsOrSaturates :=
  ⟨mixAdd_wrap_toInt, mixAdd_sat_toInt, by decide, by decide, by decide, by decide, by decide, by decide⟩

/-! ### The loop of MIXF (R195) -/

theorem micSamples_length (c : Cfg) (f : Machine.Filter) (xs : List Slot) : (micSamples c f xs).length = xs.length := by
  induction xs generalizing f with
  | nil => rfl
  | cons x xs ih => rw [micSamples, List.length_cons, List.length_cons, ih]

/-- The loop leaves the pairs below its index. -/
theorem pairAt_mixSlots_of_lt {c : Cfg} (xs : List Slot) {out : Memory Pair} (h : Memory.sorted out) {f : Machine.Filter}
    {i j : Nat} (hj : j < i) : pairAt (mixSlots c out f i xs).1 j = pairAt out j := by
  induction xs generalizing out f i with
  | nil => rfl
  | cons x xs ih => rw [mixSlots, ih (sorted_putPair h _ _) (by omega), pairAt_putPair h, if_neg (by omega)]

/-- The `k`-th pair from the loop's index on is mixed with the `k`-th mic sample, if there is one. -/
theorem pairAt_mixSlots_add (c : Cfg) (xs : List Slot) {out : Memory Pair} (h : Memory.sorted out) (f : Machine.Filter)
    (i k : Nat) :
    pairAt (mixSlots c out f i xs).1 (i + k) =
      (micSamples c f xs)[k]?.elim (pairAt out (i + k)) (mixPair c.pathcfg.sat (pairAt out (i + k))) := by
  induction xs generalizing out f i k with
  | nil => rfl
  | cons x xs ih =>
    rw [mixSlots, micSamples]
    cases k with
    | zero =>
      rw [pairAt_mixSlots_of_lt xs (sorted_putPair h _ _) (by omega), pairAt_putPair h, if_pos (Nat.add_zero i)]
      rfl
    | succ k =>
      rw [show i + (k + 1) = i + 1 + k by omega, ih (sorted_putPair h _ _), pairAt_putPair h, if_neg (by omega),
        List.getElem?_cons_succ]

theorem mixSlots_filter (c : Cfg) (xs : List Slot) (out : Memory Pair) (f : Machine.Filter) (i : Nat) :
    (mixSlots c out f i xs).2 = xs.foldl (fun f x => (micPath c f x).2) f := by
  induction xs generalizing out f i with
  | nil => rfl
  | cons x xs ih => exact ih _ _ _

/-- The Output Frame after MIXF, pair by pair. -/
theorem pairAt_mixed {s : State} (h : Memory.sorted s.out) (xs : List Slot) (i : Nat) :
    pairAt (s.mixed xs).out i =
      (micSamples s.cfg s.filter xs)[i]?.elim (pairAt s.out i) (mixPair s.cfg.pathcfg.sat (pairAt s.out i)) := by
  have hloop := pairAt_mixSlots_add s.cfg xs h s.filter 0 i
  rwa [Nat.zero_add] at hloop

theorem mixed_filter (s : State) (xs : List Slot) :
    (s.mixed xs).filter = xs.foldl (fun f x => (micPath s.cfg f x).2) s.filter := mixSlots_filter _ _ _ _ _

/-- Past its checks, MIXF mixes the frame that is there. -/
theorem exec_mixf_of_mayIssue {ag : Agent} {t : Token} {xs : List Slot} {s : State} (hm : mayIssue (.mixf ag t) s)
    (ht : t.toNat < s.params.depth) (hheld : s.pool.heldBy ag = some t) (hxs : frameIs s t xs) :
    exec (.mixf ag t) s = .next ((s.mixed xs).answered ag .ok 0) := by
  obtain ⟨hcarries, hissuer, hphase⟩ := hm
  exact (checked_pass _ hcarries hissuer hphase).trans <|
    (owned_pass _ ht hheld).trans (by rw [frameSlots_eq_some_of_frameIs hxs]; rfl)

/-- Without FIR_EN no slot moves the filter. -/
theorem foldl_micPath_of_not_firEn {c : Cfg} (h : c.pathcfg.firEn = false) (f : Machine.Filter) (xs : List Slot) :
    xs.foldl (fun f x => (micPath c f x).2) f = f :=
  List.foldl_fixed' (fun x => by rw [micPath_of_not_firEn h]) xs

/-- Settles O39: the mic path is its stages, and the loop of MIXF adds its samples in index order. -/
theorem mixfAddsTheMicPathToBothChannels : Obligations.MixfAddsTheMicPathToBothChannels := by
  refine ⟨fun c f x hn hn16 => micStages_micPath hn hn16 f x, fun ag t xs s hm hsorted ht hheld hxs => ?_⟩
  refine ⟨_, exec_mixf_of_mayIssue hm ht hheld hxs, rfl, keeps_answered (by simp [keeps_iff]) _ _ _,
    fun i m hi => ?_, fun i hi => ?_, mixed_filter s xs, fun hfir => ?_⟩
  · rw [State.answered_out, pairAt_mixed hsorted, hi]
    rfl
  · obtain ⟨hlen, -⟩ := hxs
    rw [State.answered_out, pairAt_mixed hsorted, List.getElem?_eq_none (by rw [micSamples_length, hlen]; exact hi)]
    rfl
  · rw [State.answered_filter, mixed_filter, foldl_micPath_of_not_firEn hfir]

/-! ### Silence (R209, R237) -/

/-- The filter gives zero for zero: it is out of the path, or its delay line is all zero. -/
def FilterSilent (c : Cfg) (f : Machine.Filter) : Prop := c.pathcfg.firEn = false ∨ ∀ k, f.dl.get k = 0

theorem FilterSilent.of_dl_eq {c : Cfg} {f g : Machine.Filter} (h : FilterSilent c f) (hg : g.dl = f.dl) :
    FilterSilent c g := h.imp_right fun hz k => by rw [hg, hz]

/-- A slot that converts to the idle value scales to zero (R225). -/
theorem micScaled_of_idle {c : Cfg} (hs : c.convcfg.sgn = false) {x : Slot} (hx : convSlot c.convcfg x = c.idle.toNat) :
    micScaled c x = 0 := by
  rw [micScaled, hs, if_neg Bool.false_ne_true, hx, Int.toNat_natCast, scaleCode_idle]
  rfl

/-- An idle slot through a silent filter gives zero and leaves the delay line. -/
theorem micPath_of_idle {c : Cfg} {f : Machine.Filter} (hs : c.convcfg.sgn = false) {x : Slot}
    (hx : convSlot c.convcfg x = c.idle.toNat) (hf : FilterSilent c f) :
    (micPath c f x).1 = 0 ∧ (micPath c f x).2.dl = f.dl := by
  cases hfir : c.pathcfg.firEn with
  | false =>
    rw [micPath_of_not_firEn hfir, micScaled_of_idle hs hx]
    exact ⟨micGated_zero c, rfl⟩
  | true =>
    have hz : ∀ k, f.dl.get k = 0 := hf.resolve_left (by rw [hfir]; decide)
    rw [micPath_of_firEn hfir, micScaled_of_idle hs hx, lpfOut_zero_of_dl_zero hz]
    exact ⟨micGated_zero c, pushed_zero_of_dl_zero hz⟩

/-- Idle slots one after the other give zeros, the delay line staying as it is. -/
theorem micSamples_of_idle {c : Cfg} (hs : c.convcfg.sgn = false) {xs : List Slot} {f : Machine.Filter}
    (hxs : ∀ x ∈ xs, convSlot c.convcfg x = c.idle.toNat) (hf : FilterSilent c f) :
    (∀ m ∈ micSamples c f xs, m = 0) ∧ (xs.foldl (fun f x => (micPath c f x).2) f).dl = f.dl := by
  induction xs generalizing f with
  | nil => exact ⟨fun m hm => (List.not_mem_nil hm).elim, rfl⟩
  | cons x xs ih =>
    obtain ⟨hx, hxs⟩ := List.forall_mem_cons.1 hxs
    obtain ⟨hsample, hdl⟩ := micPath_of_idle hs hx hf
    obtain ⟨hrest, hrestdl⟩ := ih hxs (hf.of_dl_eq hdl)
    exact ⟨List.forall_mem_cons.2 ⟨hsample, hrest⟩, hrestdl.trans hdl⟩

/-- Settles O41: every mic sample of an idle frame is zero, and adding zero changes no pair. -/
theorem silentFrameLeavesTheOutputFrame : Obligations.SilentFrameLeavesTheOutputFrame := by
  intro ag t xs s hm hsorted ht hheld hxs hs hidle hf
  obtain ⟨hsilent, hdl⟩ := micSamples_of_idle hs hidle hf
  refine ⟨_, exec_mixf_of_mayIssue hm ht hheld hxs, fun i => ?_, (congrArg Filter.dl (mixed_filter s xs)).trans hdl⟩
  rw [State.answered_out, pairAt_mixed hsorted]
  cases hi : (micSamples s.cfg s.filter xs)[i]? with
  | none => rfl
  | some m =>
    rw [hsilent m (List.mem_of_getElem? hi)]
    exact mixPair_zero _ _

end Sys2Proof.Proofs
end

section
/-! SUPPORT. What CONV, SCALE, LPF, GATE and FIDLE answer where they may be issued (spec/44_dsp.md R220, R224, R226,
R230, R232), and how a sample is read back from VAL (spec/30_encoding.md R96). -/

namespace Sys2Proof.Proofs

open Sys2Proof.Machine Sys2Proof.Safety Sys2Proof.Laws

/-! ### A sample in VAL (R96) -/

theorem valOfInt_eq_valOfPcm (v : Int) : valOfInt v = valOfPcm (wrap16 v) := rfl

theorem valOfPcm_toNat (x : Pcm) : (valOfPcm x).toNat = x.toNat := BitVec.toNat_setWidth_of_le (by decide)

theorem valOfPcm_toNat_lt (x : Pcm) : (valOfPcm x).toNat < 2 ^ 16 := by
  rw [valOfPcm_toNat]
  exact x.isLt

theorem valOfPcm_setWidth (x : Pcm) : (valOfPcm x).setWidth 16 = x :=
  BitVec.eq_of_toNat_eq (by rw [BitVec.toNat_setWidth, valOfPcm_toNat, Nat.mod_eq_of_lt x.isLt])

/-- A value that is a sample is the signed reading of VAL's low half. -/
theorem valOfInt_toInt_of_range {v : Int} (h : -32768 ≤ v ∧ v ≤ 32767) : ((valOfInt v).setWidth 16).toInt = v := by
  rw [valOfInt_eq_valOfPcm, valOfPcm_setWidth, wrap16_toInt_of_range h]

/-- A value that is an unsigned 16-bit number is VAL as it stands. -/
theorem valOfInt_toNat_of_lt {n : Nat} (h : n < 2 ^ 16) : (valOfInt n).toNat = n := by
  rw [valOfInt_eq_valOfPcm, valOfPcm_toNat, wrap16, BitVec.toNat_ofInt]
  omega

/-- `SLOT_W` bits of an operand word (R94). -/
theorem slotOfWord_toNat (sw : SlotWidth) (v : Word) : (slotOfWord sw v).toNat = v.toNat % 2 ^ slotBits sw := by
  rw [slotOfWord, BitVec.toNat_ofNat, Nat.mod_eq_of_lt ((Nat.mod_le _ _).trans_lt v.isLt)]

/-! ### Operations past their checks -/

theorem legalPhases_conv (ag : Agent) (v : Word) : legalPhases (.conv ag v) = dspPhases ag := by cases ag <;> rfl

theorem legalPhases_scale (ag : Agent) (u : BitVec 16) : legalPhases (.scale ag u) = dspPhases ag := by cases ag <;> rfl

theorem legalPhases_gate (ag : Agent) (x : Pcm) : legalPhases (.gate ag x) = dspPhases ag := by cases ag <;> rfl

theorem exec_conv_of_mayIssue {ag : Agent} {v : Word} {s : State} (hm : mayIssue (.conv ag v) s) :
    exec (.conv ag v) s =
      .next (s.answered ag .ok (valOfInt (convSlot s.cfg.convcfg (slotOfWord s.params.slotW v)))) := by
  obtain ⟨hcarries, hissuer, hphase⟩ := hm
  rw [legalPhases_conv] at hphase
  exact checked_pass _ hcarries hissuer hphase

theorem exec_scale_of_mayIssue {ag : Agent} {u : BitVec 16} {s : State} (hm : mayIssue (.scale ag u) s)
    (hu : u.toNat ≤ maxCode s.cfg.convcfg) :
    exec (.scale ag u) s =
      .next (s.answered ag .ok (valOfInt (scaleCode s.cfg.convcfg s.cfg.idle.toNat u.toNat))) := by
  obtain ⟨hcarries, hissuer, hphase⟩ := hm
  rw [legalPhases_scale] at hphase
  exact (checked_pass _ hcarries hissuer hphase).trans (if_neg (Nat.not_lt.2 hu))

theorem exec_lpf_of_mayIssue {ag : Agent} {x : Pcm} {s : State} (hm : mayIssue (.lpf ag x) s) :
    exec (.lpf ag x) s =
      .next ({ s with filter := lpfNext s.filter x }.answered ag .ok (valOfPcm (lpfOut s.cfg s.filter x))) := by
  obtain ⟨hcarries, hissuer, hphase⟩ := hm
  exact checked_pass _ hcarries hissuer hphase

theorem exec_gate_of_mayIssue {ag : Agent} {x : Pcm} {s : State} (hm : mayIssue (.gate ag x) s) :
    exec (.gate ag x) s = .next (s.answered ag .ok (valOfPcm (gateSample s.cfg x))) := by
  obtain ⟨hcarries, hissuer, hphase⟩ := hm
  rw [legalPhases_gate] at hphase
  exact checked_pass _ hcarries hissuer hphase

theorem exec_fidle_of_mayIssue {ag : Agent} {t : Token} {xs : List Slot} {s : State} (hm : mayIssue (.fidle ag t) s)
    (ht : t.toNat < s.params.depth) (hheld : s.pool.heldBy ag = some t) (hxs : frameIs s t xs) :
    exec (.fidle ag t) s =
      .next ((s.withIdle (BitVec.ofInt 16 (idleAvg s.cfg.convcfg xs s.params.frameLen))).answered ag .ok
        (valOfInt (idleAvg s.cfg.convcfg xs s.params.frameLen))) := by
  obtain ⟨hcarries, hissuer, hphase⟩ := hm
  rw [legalPhases_fidle] at hphase
  exact (checked_pass _ hcarries hissuer hphase).trans <|
    (owned_pass _ ht hheld).trans (by rw [frameSlots_eq_some_of_frameIs hxs]; rfl)

end Sys2Proof.Proofs
end

section
/-! Unit DSP, one operation at a time: O28, O29, O31 and O33 (spec/44_dsp.md R221, R225, R231 to R233). -/

namespace Sys2Proof.Proofs

open Sys2Proof.Machine Sys2Proof.Safety Sys2Proof.Laws

/-! ### CONV -/

/-- Settles O28: the slot is the operand's low bits, and a field of at most 16 bits is narrowed without loss. -/
theorem convExtractsTheSampleField : Obligations.ConvExtractsTheSampleField := by
  intro ag v s hm hcfg
  obtain ⟨⟨hn, hn16, -⟩, -⟩ := hcfg
  refine ⟨_, _, exec_conv_of_mayIssue hm, rfl, keeps_answered (keeps_refl _ s) _ _ _, valOfPcm_toNat_lt _, ?_⟩
  cases hs : s.cfg.convcfg.sgn with
  | true =>
    rw [if_pos rfl, valOfInt_toInt_of_range (convSlot_signed hs hn hn16 _), convSlot, if_pos hs, slotOfWord_toNat]
    rfl
  | false =>
    rw [if_neg Bool.false_ne_true, convSlot, hs, if_neg Bool.false_ne_true, slotOfWord_toNat]
    exact valOfInt_toNat_of_lt ((Nat.mod_lt _ (Nat.two_pow_pos _)).trans_le (Nat.pow_le_pow_right (by decide) hn16))

/-! ### SCALE -/

/-- The lower anchor point: code 0 below IDLE is negative full scale. -/
theorem scaleCode_zero {c : ConvCfg} {idle : Nat} (h : 0 < idle) : scaleCode c idle 0 = -32768 := by
  rw [scaleCode, if_neg h.ne, if_neg (Nat.not_lt_zero _), Nat.sub_zero, Nat.mul_div_cancel_left _ h]
  rfl

/-- The upper anchor point: MAXCODE above IDLE is positive full scale. -/
theorem scaleCode_maxCode {c : ConvCfg} {idle : Nat} (h : idle < maxCode c) : scaleCode c idle (maxCode c) = 32767 := by
  rw [scaleCode, if_neg h.ne', if_pos h, Nat.mul_div_cancel_left _ (Nat.sub_pos_of_lt h)]
  rfl

theorem maxCode_cast (c : ConvCfg) : (maxCode c : Int) = 2 ^ c.nbits.toNat - 1 := by
  rw [maxCode, Nat.cast_sub Nat.one_le_two_pow]
  push_cast
  rfl

/-- Settles O29: the scaled code is a sample, so VAL's signed reading is its exact value. -/
theorem scaleIsPiecewiseLinearAboutIdle : Obligations.ScaleIsPiecewiseLinearAboutIdle := by
  intro ag u s hm hu
  have hread := valOfInt_toInt_of_range (scaleCode_range (idle := s.cfg.idle.toNat) hu)
  refine ⟨_, _, exec_scale_of_mayIssue hm hu, rfl, keeps_answered (keeps_refl _ s) _ _ _, valOfPcm_toNat_lt _,
    ?_, fun hlt hzero => ?_, fun hgt htop => ?_⟩
  · rw [hread, scaleCode_eq hu, maxCode_cast]
  · rw [hread, Int.ofNat_eq_zero.1 hzero, scaleCode_zero (by omega)]
  · rw [hread, Int.ofNat_inj.1 htop, scaleCode_maxCode (by omega)]

/-! ### GATE -/

theorem gateSample_eq (c : Cfg) (x : Pcm) : gateSample c x = if |x.toInt| < (c.thresh.toNat : Int) then 0 else x := by
  simp only [gateSample, Int.abs_eq_natAbs, Nat.cast_lt]

/-- A sample that is not below the threshold passes. -/
theorem gateSample_of_le {c : Cfg} {x : Pcm} (h : (c.thresh.toNat : Int) ≤ |x.toInt|) : gateSample c x = x := by
  rw [gateSample_eq, if_neg (not_lt.2 h)]

/-- No sample is larger than 32768, which -32768 attains. -/
theorem abs_toInt_le (x : Pcm) : |x.toInt| ≤ 32768 := abs_le.2 ⟨BitVec.le_toInt x, (BitVec.toInt_lt (x := x)).le⟩

/-- Settles O31: each clause compares the absolute value, which is at most 32768, with the threshold. -/
theorem gateZeroesSmallSamples : Obligations.GateZeroesSmallSamples := by
  intro ag x s hm
  refine ⟨_, _, exec_gate_of_mayIssue hm, rfl, keeps_answered (keeps_refl _ s) _ _ _, valOfPcm_toNat_lt _,
    ?_, fun hzero => ?_, fun hlarge => ?_, fun hmin hle => ?_⟩
  · rw [valOfPcm_setWidth, gateSample_eq, apply_ite BitVec.toInt]
    rfl
  · rw [valOfPcm_setWidth, gateSample_of_le (by rw [hzero]; exact abs_nonneg _)]
  · have hbelow : |x.toInt| < (s.cfg.thresh.toNat : Int) := (abs_toInt_le x).trans_lt (by omega)
    rw [gateSample_eq, if_pos hbelow]
    rfl
  · subst hmin
    rw [valOfPcm_setWidth, gateSample_of_le (Int.ofNat_le.2 hle)]

/-! ### FIDLE and SCALE -/

/-- The average of slots that all convert to one code is that code (R233). -/
theorem idleAvg_of_const {c : ConvCfg} {xs : List Slot} {v : Int} (hxs : ∀ x ∈ xs, convSlot c x = v)
    (hlen : 1 ≤ xs.length) : idleAvg c xs xs.length = v := by
  have hsum : (xs.map (convSlot c)).sum = xs.length * v := by
    rw [List.map_congr_left hxs, List.map_const', List.sum_replicate, nsmul_eq_mul]
  rw [idleAvg, hsum, tdiv, Int.mul_tdiv_cancel_left _ (by omega)]

/-- SCALE of the code that IDLE holds answers 0 (R225). -/
theorem exec_scale_of_idle_eq {ag : Agent} {u : BitVec 16} {s : State} (hm : mayIssue (.scale ag u) s)
    (hu : u.toNat ≤ maxCode s.cfg.convcfg) (hidle : s.cfg.idle = u) :
    exec (.scale ag u) s = .next (s.answered ag .ok 0) := by
  rw [exec_scale_of_mayIssue hm hu, hidle, scaleCode_idle]
  rfl

/-- Settles O33: FIDLE's next state has the code as its IDLE value and is otherwise one in which SCALE may be issued. -/
theorem calibratedCodeScalesToZero : Obligations.CalibratedCodeScalesToZero := by
  intro ag ag' t xs v s hm ht hheld hxs hlen hs hv hcode hscale
  have havg : BitVec.ofInt 16 (idleAvg s.cfg.convcfg xs s.params.frameLen) = v := by
    obtain ⟨hlength, -⟩ := hxs
    rw [← hlength, idleAvg_of_const hcode (hlength ▸ hlen), BitVec.ofInt_natCast, BitVec.ofNat_toNat,
      BitVec.setWidth_eq]
  have hfidle := exec_fidle_of_mayIssue hm ht hheld hxs
  rw [havg] at hfidle
  exact ⟨_, _, hfidle, rfl, exec_scale_of_idle_eq hscale hv rfl, rfl⟩

end Sys2Proof.Proofs
end

section
/-! Unit DSP, the filter: O30 and O34 to O36 (spec/44_dsp.md R227, R228). -/

namespace Sys2Proof.Proofs

open Sys2Proof.Machine Sys2Proof.Safety Sys2Proof.Laws

/-! ### One call -/

/-- The output is the floor of the accumulator over 32768, narrowed. -/
theorem lpfOut_eq_wrap16 (c : Cfg) (f : Machine.Filter) (x : Pcm) :
    lpfOut c f x = wrap16 (firAcc (taps c) (f.pushed x) f.fidx / 32768) := rfl

/-- Settles O30: the accumulator is the dot product, and every input grows one call older. -/
theorem lpfIsTheDotProductOfTheLastInputs : Obligations.LpfIsTheDotProductOfTheLastInputs := by
  intro ag x s hm
  refine ⟨_, exec_lpf_of_mayIssue hm, keeps_answered (by simp [keeps_iff]) _ _ _, ?_, inputBefore_lpfNext_zero _ _,
    inputBefore_lpfNext_succ _ _, rfl, (pushed_get _ _ _).trans (if_pos rfl),
    fun k hk => (pushed_get _ _ _).trans (if_neg hk)⟩
  rw [lpfOut_eq_wrap16, firAcc_pushed]
  rfl

/-! ### Rotation -/

/-- The output depends on the inputs held, not on where they stand. -/
theorem lpfOut_congr {f g : Machine.Filter} (h : ∀ k : Fin 7, inputBefore f k = inputBefore g k) (c : Cfg) (x : Pcm) :
    lpfOut c f x = lpfOut c g x := by
  simp only [lpfOut_eq_wrap16, firAcc_pushed, h]

/-- Filters that hold the same inputs do so after the same sample. -/
theorem inputBefore_lpfNext_congr {f g : Machine.Filter} (h : ∀ k : Fin 7, inputBefore f k = inputBefore g k) (x : Pcm)
    (k : Fin 7) : inputBefore (lpfNext f x) k = inputBefore (lpfNext g x) k := by
  cases k using Fin.cases with
  | zero => rw [inputBefore_lpfNext_zero, inputBefore_lpfNext_zero]
  | succ k => rw [inputBefore_lpfNext_succ, inputBefore_lpfNext_succ, h]

/-- Settles O35, by induction on the inputs. -/
theorem filterRotationIsInvisible : Obligations.FilterRotationIsInvisible := by
  intro c f g xs h
  induction xs generalizing f g with
  | nil => rfl
  | cons x xs ih => rw [lpfOutputs, lpfOutputs, lpfOut_congr h, ih _ _ (inputBefore_lpfNext_congr h x)]

/-! ### A constant input -/

/-- The newest `n` inputs are all `x`. -/
def NewestAre (f : Machine.Filter) (x : Pcm) (n : Nat) : Prop := ∀ k : Fin 7, k.val < n → inputBefore f k = x

theorem newestAre_zero (f : Machine.Filter) (x : Pcm) : NewestAre f x 0 := fun _ hk => absurd hk (Nat.not_lt_zero _)

theorem NewestAre.lpfNext {f : Machine.Filter} {x : Pcm} {n : Nat} (h : NewestAre f x n) :
    NewestAre (Machine.lpfNext f x) x (n + 1) := by
  intro k hk
  cases k using Fin.cases with
  | zero => exact inputBefore_lpfNext_zero f x
  | succ k => exact (inputBefore_lpfNext_succ f x k).trans (h k.castSucc (Nat.lt_of_succ_lt_succ hk))

/-- Each call with `x` adds one to the newest inputs that are `x`. -/
theorem NewestAre.lpfAfter {f : Machine.Filter} {x : Pcm} {n : Nat} (h : NewestAre f x n) (m : Nat) :
    NewestAre (Safety.lpfAfter f (List.replicate m x)) x (n + m) := by
  induction m generalizing f n with
  | zero => exact h
  | succ m ih => exact (Nat.add_right_comm n 1 m : n + 1 + m = n + (m + 1)) ▸ ih h.lpfNext

/-- With six inputs `x` held, the accumulator of a seventh is the sum of the taps times `x`. -/
theorem firAcc_of_newestAre {f : Machine.Filter} {x : Pcm} (h : NewestAre f x 6) (c : Cfg) :
    firAcc (taps c) (f.pushed x) f.fidx =
      (2 * c.coef0.toInt + 2 * c.coef1.toInt + 2 * c.coef2.toInt + c.coef3.toInt) * x.toInt := by
  rw [firAcc_pushed, h 0 (by decide), h 1 (by decide), h 2 (by decide), h 3 (by decide), h 4 (by decide),
    h 5 (by decide)]
  ring

/-- Settles O34: after six calls every input the taps meet is `x`, whatever the filter held before. -/
theorem constantInputSettles : Obligations.ConstantInputSettles := by
  intro c f x sum
  have hout : lpfOut c (lpfAfter f (List.replicate 6 x)) x = BitVec.ofInt 16 (sum * x.toInt / 32768) := by
    rw [lpfOut_eq_wrap16, firAcc_of_newestAre ((newestAre_zero f x).lpfAfter 6)]
    rfl
  refine ⟨hout, fun hsum => ?_⟩
  rw [hout, hsum, Int.mul_ediv_cancel_left _ (by decide), BitVec.ofInt_toInt]

/-! ### Taps that are not negative -/

/-- A tap that is not negative times a sample. -/
theorem tap_mul_sample_range {h : Int} (hnonneg : 0 ≤ h) (x : Pcm) :
    h * -32768 ≤ h * x.toInt ∧ h * x.toInt ≤ h * 32767 :=
  ⟨mul_le_mul_of_nonneg_left (BitVec.le_toInt x) hnonneg,
    mul_le_mul_of_nonneg_left (Int.le_of_lt_add_one BitVec.toInt_lt) hnonneg⟩

/-- Settles O36: the accumulator lies between the sum of the taps times the least and the largest sample. -/
theorem nonNegativeTapsNeverWrap : Obligations.NonNegativeTapsNeverWrap := by
  intro c f x h0 h1 h2 h3 hsum
  rw [lpfOut_eq_wrap16]
  refine wrap16_toInt_of_range ?_
  rw [firAcc_pushed]
  have b0 := tap_mul_sample_range h0 x
  have b1 := tap_mul_sample_range h1 (inputBefore f 0)
  have b2 := tap_mul_sample_range h2 (inputBefore f 1)
  have b3 := tap_mul_sample_range h3 (inputBefore f 2)
  have b4 := tap_mul_sample_range h2 (inputBefore f 3)
  have b5 := tap_mul_sample_range h1 (inputBefore f 4)
  have b6 := tap_mul_sample_range h0 (inputBefore f 5)
  omega

end Sys2Proof.Proofs
end

section
/-! NOP and START: O16 and O19 (spec/45_host.md R250, R253, R254). -/

namespace Sys2Proof.Proofs

open Sys2Proof.Machine Sys2Proof.Safety Sys2Proof.Laws

/-! ### NOP -/

theorem legalPhases_nop (ag : Agent) : legalPhases (.nop ag) = nopPhases ag := by cases ag <;> rfl

/-- Settles O16: past the checks of port, agent and phase, the answer is recorded and changes no part. -/
theorem nopChangesNothing : Obligations.NopChangesNothing := by
  intro ag s hm
  obtain ⟨hcarries, hissuer, hphase⟩ := hm
  rw [legalPhases_nop] at hphase
  have he : exec (.nop ag) s = .next (s.answered ag .ok 0) := checked_pass _ hcarries hissuer hphase
  exact ⟨_, he, rfl, keeps_answered (keeps_refl _ s) _ _ _⟩

/-! ### START -/

/-- What START writes (R253, R254). -/
theorem keeps_started (s : State) : keeps [.pool, .out, .filter, .seq, .phase] s s.started := by
  simp [keeps_iff]

/-- START answers the code of the phase it leaves: 1 for BOOT, 2 for RUN (R253). -/
theorem phaseCode_started (s : State) :
    (phaseCode s.started.phase).setWidth 32 = if s.cfg.pathcfg.calEn then (1 : Word) else 2 := by
  rw [State.started_phase]
  cases s.cfg.pathcfg.calEn <;> rfl

theorem exec_start_of_mayIssue {ag : Agent} {s : State} (hm : mayIssue (.start ag) s) (hs : ¬ notStartable s) :
    exec (.start ag) s = .next (s.started.answered ag .ok (if s.cfg.pathcfg.calEn then 1 else 2)) := by
  obtain ⟨hcarries, hissuer, hphase⟩ := hm
  rw [← phaseCode_started]
  exact (checked_pass _ hcarries hissuer hphase).trans (if_neg (startable_eq_false_iff.not.2 hs))

theorem length_tokensBelow (n : Nat) : (tokensBelow n).length = n := by simp [tokensBelow]

/-- The tokens below `n` stand in order (R24). -/
theorem getElem?_tokensBelow {k n : Nat} (hk : k < n) : (tokensBelow n)[k]? = some (BitVec.ofNat 4 k) := by
  simp [tokensBelow, hk]

/-- Settles O19: the state START leaves has the seeded pool, an Output Frame that lists nothing, the zero filter and the
sequencers of R254. -/
theorem startSeedsThePool : Obligations.StartSeedsThePool := by
  intro ag s hm hs
  refine ⟨_, exec_start_of_mayIssue hm hs, State.started_phase s, ?_, keeps_answered (keeps_started s) _ _ _, ?_⟩
  · rw [responds, State.answered_log, State.started_log, State.started_now]
  · rw [State.answered_pool, State.answered_out, State.answered_filter, State.answered_seq, State.started_pool,
      State.started_out, State.started_filter, State.started_seq]
    exact ⟨fun k => rfl, rfl, rfl, rfl, length_tokensBelow _, fun k hk => getElem?_tokensBelow hk, fun k => rfl,
      zero_dl_get, rfl, rfl, rfl, rfl, rfl⟩

end Sys2Proof.Proofs
end

section
/-! Exceptions: O9 and O10 (spec/60_exceptions.md R281, R284, R286, R339). The machine's one stop is a term that no words
encode (log 14), and neither the ports nor the sequencers have such a term to carry out. -/

namespace Sys2Proof.Proofs

open Sys2Proof.Machine Sys2Proof.Safety Sys2Proof.Laws

/-! ### What is carried out is a command -/

/-- The command that is served was taken from words of its port. -/
theorem exists_fetch_of_firstServable {holds : Instr → Bool} {i : Instr} {rest : List Word} :
    ∀ {n : Nat} {ws kept : List Word}, firstServable holds n ws = (kept, .command i rest) →
      ∃ ws', fetch ws' = .command i rest := by
  intro n
  induction n with
  | zero => intro ws kept h; simp [firstServable] at h
  | succ n ih =>
    intro ws kept h
    simp only [firstServable] at h
    split at h
    · cases h
    · cases h
    · next j r hfetch =>
      split at h
      · obtain ⟨-, hlater⟩ := Prod.mk.inj h
        exact ih (Prod.ext rfl hlater)
      · cases h
        exact ⟨ws, hfetch⟩

theorem wellFormed_of_firstServable {holds : Instr → Bool} {i : Instr} {rest ws kept : List Word} {n : Nat}
    (h : firstServable holds n ws = (kept, .command i rest)) : i.wellFormed = true := by
  obtain ⟨ws', hfetch⟩ := exists_fetch_of_firstServable h
  obtain ⟨hwf, -⟩ := decodedCommandsEncodeToTheirWords ws' i rest hfetch
  exact hwf

theorem wellFormed_of_captureCommand {s : State} {i : Instr} (h : captureCommand s = some i) : i.wellFormed = true := by
  unfold captureCommand at h
  split at h
  case h_1 => cases h; rfl
  all_goals obtain ⟨k, -, rfl⟩ := Option.map_eq_some_iff.1 h; rfl

theorem wellFormed_of_mixerCommand {s : State} {i : Instr} (h : mixerCommand s = some i) : i.wellFormed = true := by
  unfold mixerCommand at h
  split at h
  case h_4 | h_5 => obtain ⟨k, -, rfl⟩ := Option.map_eq_some_iff.1 h; rfl
  all_goals cases h; rfl

theorem wellFormed_of_bootCommand {s : State} {i : Instr} (h : bootCommand s = some i) : i.wellFormed = true := by
  unfold bootCommand at h
  split at h
  case h_1 => cases h
  case h_2 => cases h; rfl
  all_goals obtain ⟨k, -, rfl⟩ := Option.map_eq_some_iff.1 h; rfl

/-! ### Every move answers a next state -/

theorem servePort_answers (p : CmdPort) (s : State) : ∃ t, servePort p s = .next t := by
  obtain ⟨kept, f, hfirst, ⟨-, e⟩ | ⟨-, w, rest, -, e⟩ | ⟨i, rest, rfl, -, e⟩⟩ := servePort_cases p s
  · exact ⟨_, e⟩
  · exact ⟨_, e⟩
  · rw [e]
    exact exec_answers (wellFormed_of_firstServable hfirst) _

theorem resumeAgent_answers (ag : Agent) (s : State) : ∃ t, resumeAgent ag s = .next t := by
  unfold resumeAgent
  split
  · exact ⟨_, rfl⟩
  · exact completeOp_answers _ _

theorem andThen_answers {r : Result} {f : State → Result} (hr : ∃ s, r = .next s) (hf : ∀ s, ∃ t, f s = .next t) :
    ∃ t, r.andThen f = .next t := by
  obtain ⟨s, rfl⟩ := hr
  exact hf s

/-- A sequencer stops, looks at its outstanding operation again, or carries out its command; then its table may act. -/
theorem sequencerMove_answers {o : Origin} {ag : Agent} {command : Option Instr} {table stop : State → State} {s : State}
    (hwf : ∀ i, command = some i → i.wellFormed = true) :
    ∃ t, sequencerMove o ag command table stop s = .next t := by
  have htable : ∀ v : State, ∃ t,
      (if (v.waiting.of ag).isSome then .next v else .next (table v) : Result) = .next t :=
    fun _ => ite_answers ⟨_, rfl⟩ ⟨_, rfl⟩
  by_cases hwait : (s.waiting.of ag).isSome = true
  · simp only [sequencerMove, hwait, if_true]
    exact andThen_answers (resumeAgent_answers _ _) htable
  · cases command with
    | none =>
      simp only [sequencerMove, hwait]
      exact ⟨_, rfl⟩
    | some i =>
      simp only [sequencerMove, hwait]
      exact andThen_answers (exec_answers (hwf i rfl) _) htable

theorem runMove_answers (m : Move) (s : State) : ∃ t, runMove m s = .next t := by
  have hskip : ∃ t, (Host.Outcome.next s : Result) = .next t := ⟨_, rfl⟩
  cases m with
  | present p w => exact ⟨_, rfl⟩
  | serve p => exact servePort_answers p s
  | resumeC | resumeM => exact ite_answers (resumeAgent_answers _ _) hskip
  | boot => exact ite_answers (sequencerMove_answers fun _ => wellFormed_of_bootCommand) hskip
  | capture => exact ite_answers (sequencerMove_answers fun _ => wellFormed_of_captureCommand) hskip
  | mixer => exact ite_answers (sequencerMove_answers fun _ => wellFormed_of_mixerCommand) hskip
  | reset => exact ⟨_, rfl⟩

/-- Settles O9: a step is one move, and a move carries out only commands that some words encode. -/
theorem everyStepAnswersANextState : Obligations.EveryStepAnswersANextState := fun _ => runMove_answers _ _

/-! ### The first failing check -/

/-- A command some check of which fails answers the fault of the first one. -/
theorem exec_of_firstFault {i : Instr} {s : State} {c : Cause} (hi : i.wellFormed = true) (hf : firstFault i s = some c) :
    exec i s = .next (s.faulted i.agent c) := by
  obtain ⟨t, he⟩ := exec_answers hi s
  rcases exec_decides he with ⟨c', hc', rfl⟩ | ⟨hpassed, -⟩
  · obtain rfl : c' = c := Option.some.inj (hc'.symm.trans hf)
    exact he
  · cases hpassed.symm.trans hf

/-- Settles O10: the checks of the meanings come in the order of R284, so the fault raised is the first failing
check's. -/
theorem firstFailingCheckRaisesItsFault : Obligations.FirstFailingCheckRaisesItsFault := by
  intro i s c hi hf
  refine ⟨_, exec_of_firstFault hi hf, ?_, ?_, keeps_faulted s i.agent c⟩
  · rw [State.faulted_fault, causeMask_eq]
  · rw [← causeMask_setWidth]
    rfl

end Sys2Proof.Proofs
end
